-- ==== Sys2Proof/Word.lean ====
section
/-! DEFINITION. The word types of HQCCA: 32-bit bus words, bytes, polynomial register numbers. -/

namespace Sys2Proof

/-- A 32-bit word: a CSR value, an ARG value, a command word (R20, R65). -/
abbrev Word := BitVec 32

/-- An 8-bit byte, bit 7 most significant (R10). -/
abbrev Byte := BitVec 8

/-- The number of a polynomial register, P0 to P7 (R15): NPOLY = 8. -/
abbrev Reg := Fin 8

end Sys2Proof
end

