-- ==== Sys2Proof/Machine/Signals.lean ====
section
/-! DEFINITION. What crosses HQCCA's signals (R126): host bus accesses and their responses, port requests and
answers, and the steps of the outside world that State.inputs lists. -/

namespace Sys2Proof.Machine

/-- The width of a host access: 8, 16 or 32 bits (R126). -/
inductive AccessSize where
  | b8
  | b16
  | b32
  deriving DecidableEq, Repr, Inhabited

/-- The direction of a host access; a write carries the bus data. -/
inductive AccessKind where
  | read
  | write (data : Word)
  deriving DecidableEq, Repr, Inhabited

/-- One access of the host bus master, at a host address (R40: the block sits at BASE). -/
structure Access where
  addr : Word
  size : AccessSize
  kind : AccessKind
  deriving DecidableEq, Repr, Inhabited

/-- What the host observes on an access (R43, R48): an OKAY or SLVERR response and read data, 0 on a write. -/
structure BusResponse where
  slverr : Bool
  data : Word
  deriving DecidableEq, Repr, Inhabited

/-- The two requests of the inner-codec port (R99). -/
inductive CodecRequest where
  | enc (message : List Byte)
  | dec (codeword : List Byte)
  deriving DecidableEq, Repr, Inhabited

/-- The answers that can cross the inner-codec port (R126); which one a request admits is R99's. -/
inductive CodecAnswer where
  | ok (bytes : List Byte)
  | uncorrectable
  deriving DecidableEq, Repr, Inhabited

/-- One step of some agent (R14, R109, R126): a host access, a turn of the command engine, an answer on the DRBG
port, an answer on the inner-codec port, or the level the platform drives on `rst`. An answer belongs to the request it
answers, by that request's number (State.portReq): an abandoned request's late answer is discarded (R128). DEDUCED (log
entry 12): the number is how the model says which request an answer is for. -/
inductive Input where
  | host (a : Access)
  | engine
  | drbg (req : Nat) (bytes : List Byte)
  | codec (req : Nat) (ans : CodecAnswer)
  | rst (asserted : Bool)
  deriving DecidableEq, Repr, Inhabited

/-- A host access, as opposed to a step of another agent. -/
def Input.isHost : Input → Bool
  | .host _ => true
  | .engine => false
  | .drbg _ _ => false
  | .codec _ _ => false
  | .rst _ => false

end Sys2Proof.Machine
end

