-- ==== Sys2Proof/Config.lean ====
section
/-! DEFINITION. What an instance of HQCCA fixes (R6, R40) and the free values of what the spec leaves open. -/

namespace Sys2Proof

/-- The named parameters of an instance (R6, R40, U14). They are held in State and no step changes them, so a
statement over all states is a statement over all instances. -/
structure Params where
  /-- N: number of coefficients of a polynomial, width of a polynomial register. -/
  n : Nat
  /-- MULT: repetition factor of the Reed-Muller code. -/
  mult : Nat
  /-- CC_K: message length in bytes of the inner codec. -/
  ccK : Nat
  /-- CC_N1: inner codeword length in bytes. -/
  ccN1 : Nat
  /-- BUF_BYTES: size of the local byte buffer. -/
  bufBytes : Nat
  /-- BASE: the host address of the block, chosen by the platform (R40). -/
  base : Word
  deriving DecidableEq, Repr

/-- The instance of State.reset. MULT and CC_K are the spec's defaults (R6); N is the value R9 takes as its example.
DESIGN CHOICE (log entry 1, unsafe only for a claim about this one instance): CC_N1, BUF_BYTES and BASE are OPEN in
the spec. -/
def Params.default : Params :=
  { n := 60000, mult := 6, ccK := 32, ccN1 := 64, bufBytes := 65536, base := 0 }

/-- The free values of the spec's `any value` points (U2, U3, U4, U10, U11): the k-th one drawn. It has no body, so
nothing about it can be proved. -/
opaque Config.freeValue : Nat → Nat

/-- The step some agent takes when State.inputs lists none: the k-th free draw (U5, U7, U12, U13). It has no body, so a
run may be any interleaving of any host, any collaborators and the engine, but for R109's fairness (State.freeStep). -/
opaque Config.freeInput : Nat → Machine.Input

end Sys2Proof
end

