-- ==== Sys2Proof/Machine/Derived.lean ====
section
/-! DEFINITION. The quantities R6 derives from an instance's parameters. -/

namespace Sys2Proof

/-- RM_LEN in bytes: one base Reed-Muller codeword packed (R6, R90). -/
def rmBlockBytes : Nat := 16

/-- The least b with 2^b >= n (R6, R82). -/
def ceilLog2 (n : Nat) : Nat := if n ≤ 1 then 0 else Nat.log2 (n - 1) + 1

/-- N_BYTES = floor(N/8) + 1 (R6). -/
def Params.nBytes (p : Params) : Nat := p.n / 8 + 1

/-- The bytes of the MULT copies of one block: N2 = MULT * 16 bytes (R6). -/
def Params.n2Bytes (p : Params) : Nat := p.mult * rmBlockBytes

/-- CC_L = CC_N1 * MULT * 16, the concatenated codeword's length in bytes (R6). -/
def Params.ccL (p : Params) : Nat := p.ccN1 * p.n2Bytes

/-- CC_AVAIL: the concatenated codeword fits in a polynomial register (R8). -/
def Params.ccAvail (p : Params) : Bool := decide (8 * p.ccL ≤ p.n)

/-- BN = bits_needed (R6, R82). -/
def Params.bitsNeeded (p : Params) : Nat := ceilLog2 p.n

/-- BY = bytes_needed = ceil(BN / 8) (R6, R82). -/
def Params.bytesNeeded (p : Params) : Nat := (p.bitsNeeded + 7) / 8

/-- DISC = 8 * BY - BN (R6, R82). -/
def Params.discard (p : Params) : Nat := 8 * p.bytesNeeded - p.bitsNeeded

/-- A range lies in BUF: computed on unbounded integers, so it never wraps (R44). -/
def Params.inBuf (p : Params) (a len : Nat) : Bool := decide (a + len ≤ p.bufBytes)

/-- The bytes R38 gives the inner-codec staging. -/
def Params.stagingBytes (p : Params) : Nat := max p.ccN1 p.ccK

/-- The offset of a host address from BASE (R40; log entry 13). -/
def Params.offsetOf (p : Params) (addr : Word) : Nat := (addr - p.base).toNat

end Sys2Proof
end

