-- ==== Sys2Proof/Machine/State.lean ====
section
/-! DEFINITION. The state of HQCCA (10_state.md, R14 to R39), its reset value, and the reasons a step can stop. -/

namespace Sys2Proof.Machine

/-- The control FSM's states, STATUS.STATE 0 to 9 (R30). The reserved values 10 to 15 are never produced (V5). -/
inductive Fsm where
  | idle
  | poly
  | xfer
  | sample
  | rmEnc
  | rmDec
  | ccInnerEnc
  | ccRmEnc
  | ccRmDec
  | ccInnerDec
  deriving DecidableEq, Repr

/-- The error codes of R110, 0x00 to 0x08. The reserved codes are never recorded (V6). -/
inductive ErrCode where
  | none
  | busy
  | illegalEncoding
  | illegalOperand
  | range
  | serialization
  | sampleBudget
  | innerProtocol
  | uncorrectable
  deriving DecidableEq, Repr

/-- The command latch CUR (R31). -/
structure Latch where
  word : Word
  arg0 : Word
  arg1 : Word
  arg2 : Word
  deriving DecidableEq, Repr

/-- Where the running command stands between its port exchanges (R109): `drbgWait` and `codecWait` are an outstanding
request (at most one, R64), `drbgGot` and `codecGot` the answer just taken, `rmEncode` CCENC's second phase. -/
inductive Phase where
  | start
  | drbgWait (count : Nat)
  | drbgGot (bytes : List Byte)
  | codecWait (req : CodecRequest)
  | codecGot (ans : CodecAnswer)
  | rmEncode
  deriving DecidableEq, Repr

/-- BUF (R42): the bytes written since power-on, by address. Canonical form: addresses strictly rising. -/
abbrev Memory := List Host.Cell

/-- The machine. Fields from `resp` on are the model's own (see INVENTORY.md, State). Polynomials are unsigned
integers below 2^N (R15, R16; N is an instance parameter, so they are Nats with an invariant, log entry 16). -/
structure State where
  /-- The instance (R6, R40); no step changes it. -/
  params : Params
  /-- P0 to P7 (R15). -/
  polys : Vector Nat 8
  /-- Whether a command has written P[i] since power-on (R18, U1). -/
  polyWritten : Vector Bool 8
  /-- BUF (R37, R42). -/
  buf : Memory
  /-- CTRL.IE_DONE (R27). -/
  ieDone : Bool
  /-- CTRL.IE_ERR (R27). -/
  ieErr : Bool
  /-- STATUS.BUSY (R28). -/
  busy : Bool
  /-- STATUS.DONE (R28). -/
  done : Bool
  /-- STATUS.ERR (R28). -/
  err : Bool
  /-- STATUS.STATE, the control FSM (R30, R103). -/
  fsm : Fsm
  /-- ERRCODE.CODE (R29). -/
  errCode : ErrCode
  /-- ERRCODE.OPC (R29). -/
  errOpc : Byte
  /-- ARG0 (R33). -/
  arg0 : Word
  /-- ARG1 (R33). -/
  arg1 : Word
  /-- ARG2 (R33). -/
  arg2 : Word
  /-- SAMPLE_LIMIT (R34). -/
  sampleLimit : Word
  /-- SAMPLE_DRAWS (R35). -/
  sampleDraws : Word
  /-- CUR (R31). -/
  cur : Latch
  /-- SAMPLE_LIMIT as read at acceptance (R57, R106). -/
  limit : Word
  /-- The running command's place between port exchanges, and the outstanding request (R64, R109). -/
  phase : Phase
  /-- The convolution accumulator (R38). -/
  mulAcc : Nat
  /-- The sampler's candidate vector (R38). -/
  candidate : Nat
  /-- The sampler's remaining count (R38: 32 bits). -/
  remaining : Word
  /-- The sampler's draw count (R38: 32 bits). DEDUCED (log entry 16): it stays at its largest value, which is what R81's
  unbounded counter comes to, since R35 reads it saturated. -/
  draws : Word
  /-- The Reed-Muller soft vector (R38). -/
  soft : List Nat
  /-- The correlation array (R38). -/
  corr : List Int
  /-- The inner-codec staging (R38). -/
  staging : List Byte
  /-- The level of the power-on reset input (R126, R129). -/
  rst : Bool
  /-- The response to the host's last access; none before the first, and none while one waits (log entry 9). -/
  resp : Option BusResponse
  /-- The recorded fault of U1: a command has read a polynomial register unwritten since power-on. -/
  uninitPoly : Bool
  /-- The recorded fault of U2: a command has read a BUF byte unwritten since power-on. -/
  uninitBuf : Bool
  /-- How many port requests have been made; an outstanding request has this number (R64, R128; log entry 12). -/
  portReq : Nat
  /-- Numbers the free values drawn so far. -/
  freeCtr : Nat
  /-- For how many more free steps the engine, able to step, may still be passed over (R109's weak fairness, log entry
  17); none while no such wait is under way. -/
  patience : Option Nat
  /-- The steps of the outside world to come, oldest first. -/
  inputs : List Input
  deriving DecidableEq, Repr

/-- An instance right after power-on reset (R39, R129). The CSRs are R39's. DESIGN CHOICE (log entries 2 and 4): the
polynomial registers, CUR and the hidden state, which the spec leaves unspecified, are 0. -/
def State.resetOf (p : Params) : State where
  params := p
  polys := Vector.replicate 8 0
  polyWritten := Vector.replicate 8 false
  buf := []
  ieDone := false
  ieErr := false
  busy := false
  done := false
  err := false
  fsm := .idle
  errCode := .none
  errOpc := 0
  arg0 := 0
  arg1 := 0
  arg2 := 0
  sampleLimit := 0
  sampleDraws := 0
  cur := ⟨0, 0, 0, 0⟩
  limit := 0
  phase := .start
  mulAcc := 0
  candidate := 0
  remaining := 0
  draws := 0
  soft := List.replicate 128 0
  corr := List.replicate 128 0
  staging := List.replicate p.stagingBytes 0
  rst := false
  resp := none
  uninitPoly := false
  uninitBuf := false
  portReq := 0
  freeCtr := 0
  patience := none
  inputs := []

/-- The machine right after reset, in the default instance (R39; log entry 1). -/
def State.reset : State := State.resetOf Params.default

/-- Why a step can end in a fault. -/
inductive Fault where
  /-- Raised by the engine's turn when BUSY = 1 and CUR holds no command word: a value 93 calls never produced and says
  to treat as a fault. No run reaches it. Safe: the model stops. -/
  | latchNotACommand
  deriving DecidableEq, Repr

/-- Why a step can be refused. -/
inductive Refusal where
  /-- Raised by an arm of exec whose command has no meaning yet. Safe: the model stops. -/
  | notModelled (mnemonic : String)
  /-- Raised by step in an instance outside R8, which the spec says to refuse by name (U15). Safe: the model stops. -/
  | illFormedInstance
  deriving DecidableEq, Repr

end Sys2Proof.Machine
end

