-- ==== Sys2Proof/Machine/Ops.lean ====
section
/-! DEFINITION. Named operations over byte strings, BUF, the polynomial registers and the error record. -/

namespace Sys2Proof.Machine

/-! ### Byte strings (R11) -/

/-- `BE(B)`: the first byte is the most significant (R11, R45, R46, R47). -/
def beValue (bs : List Byte) : Nat := bs.foldl (fun v b => 256 * v + b.toNat) 0

/-- `BEbytes_k(v)` for v < 256^k (R11). -/
def beBytes (k v : Nat) : List Byte := (List.range k).map fun t => BitVec.ofNat 8 (v / 256 ^ (k - 1 - t))

/-! ### Free values -/

/-- The k-th free byte (U2, U3, U10): any value. -/
def freeByte (k : Nat) : Byte := BitVec.ofNat 8 (Config.freeValue k)

/-- `len` free bytes, the first numbered `k`. -/
def freeBytes (k len : Nat) : List Byte := (List.range len).map fun t => freeByte (k + t)

/-! ### Memory -/

/-- What an address of BUF that no entry lists reads as: no value, it has not been written since power-on (R37, U2,
U3; log entry 3). -/
def Memory.unlisted : Option Byte := none

/-- The byte written last at an address. -/
def Memory.read (m : Memory) (a : Nat) : Option Byte :=
  match m with
  | [] => Memory.unlisted
  | (k, b) :: rest => if k = a then some b else Memory.read rest a

/-- Write one byte, keeping the addresses strictly rising. -/
def Memory.write (m : Memory) (a : Nat) (b : Byte) : Memory :=
  match m with
  | [] => [(a, b)]
  | (k, c) :: rest =>
    if a < k then (a, b) :: (k, c) :: rest
    else if a = k then (a, b) :: rest
    else (k, c) :: Memory.write rest a b

/-- `MemWrite(addr, n, B)` (R12): the bytes of `bs` at `a`, `a + 1`, and so on. -/
def Memory.writeBytes (m : Memory) (a : Nat) (bs : List Byte) : Memory :=
  match bs with
  | [] => m
  | b :: rest => Memory.writeBytes (Memory.write m a b) (a + 1) rest

/-- The canonical form: addresses strictly rising. An unlisted address reads as no value, which no entry holds, so
equal contents are equal lists. -/
abbrev Memory.wf (m : Memory) : Prop := (m.map Prod.fst).Pairwise (· < ·)

/-! ### BUF as commands see it (R12, R37, R44) -/

/-- A BUF byte as a command or the host reads it: the byte written last; a byte unwritten since power-on has no value
and reads as the `k`-th free byte from the counter on (U2, U3). -/
def State.bufByte (s : State) (a k : Nat) : Byte := (Memory.read s.buf a).getD (freeByte (s.freeCtr + k))

/-- `MemRead(addr, n)` (R12). -/
def State.loadBytes (s : State) (a len : Nat) : List Byte := (List.range len).map fun t => s.bufByte (a + t) t

/-- Every byte of the range has been written since power-on (R37, U2). -/
def State.bufWritten (s : State) (a len : Nat) : Bool :=
  (List.range len).all fun t => (Memory.read s.buf (a + t)).isSome

/-- A command's read of a BUF range: a byte unwritten since power-on records the fault of U2. The free values that may
have been read are used up. -/
def State.noteLoad (s : State) (a len : Nat) : State :=
  { s with freeCtr := s.freeCtr + len, uninitBuf := s.uninitBuf || !s.bufWritten a len }

/-- A write of a BUF range (R12). -/
def State.storeBytes (s : State) (a : Nat) (bs : List Byte) : State :=
  { s with buf := Memory.writeBytes s.buf a bs }

/-! ### Polynomial registers (R12, R15, R17) -/

/-- `P[i]` (R12). -/
def State.poly (s : State) (i : Reg) : Nat := s.polys.get i

/-- `P[i] <- v` (R12); from now on a command has written P[i] (R18). -/
def State.setPoly (s : State) (i : Reg) (v : Nat) : State :=
  { s with polys := s.polys.set i.val v i.isLt, polyWritten := s.polyWritten.set i.val true i.isLt }

/-- A command's read of P[i]: reading a register unwritten since power-on records the fault of U1 (R18). -/
def State.notePoly (s : State) (i : Reg) : State :=
  { s with uninitPoly := s.uninitPoly || !s.polyWritten.get i }

/-! ### The error record and completion (R106, R108) -/

/-- `record_error(code, opc)` of R106: the one operation that records an error. HQCCA has no traps: nothing else is
saved and control goes nowhere (R115). -/
def State.recordError (s : State) (e : ErrCode) (opc : Byte) : State :=
  { s with err := true, errCode := e, errOpc := opc }

/-- `STATUS.DONE <- 1`. -/
def State.signalDone (s : State) : State := { s with done := true }

/-- The completion step's last lines (R108): DONE 1, BUSY 0, STATE IDLE. The command is over, so no port request is
outstanding (R64). -/
def State.complete (s : State) : State :=
  { s with done := true, busy := false, fsm := .idle, phase := .start }

/-- The OPC field of the command word in CUR. -/
def Latch.opc (c : Latch) : Byte := c.word.extractLsb' 24 8

/-- `raise Err(code)` of an accepted command (R12, R108): the error is recorded with CUR's OPC and the command
completes without writing a destination (R107). -/
def State.fail (s : State) (e : ErrCode) : State := (s.recordError e s.cur.opc).complete

/-- The host's acknowledgement of an error, a 1 written to STATUS.ERR: clears ERR and ERRCODE (R28, R29, R116). -/
def State.clearError (s : State) : State := { s with err := false, errCode := .none, errOpc := 0 }

/-- A port request goes out and the engine waits for its answer (R64, R83, R99): one more request has been made. -/
def State.request (s : State) (p : Phase) : State := { s with phase := p, portReq := s.portReq + 1 }

/-- A 32-bit count one higher, staying at 0xFFFF_FFFF (R35, R38). -/
def satSucc (w : Word) : Word := if w = 0xFFFFFFFF#32 then w else w + 1#32

/-- The next `k` free values are used up. -/
def State.useFree (s : State) (k : Nat) : State := { s with freeCtr := s.freeCtr + k }

end Sys2Proof.Machine
end

