-- ==== Sys2Proof/Machine/Operands.lean ====
section
/-! DEFINITION. Operand forms: the wide operands latched in CUR (R31, R68) and the BUF ranges they name (R44). -/

namespace Sys2Proof.Machine

/-- SRC: the BUF address in ARG0, without extension, scaling or shift (R68). -/
def State.src (s : State) : Nat := s.cur.arg0.toNat

/-- W or CNT: the weight or count in ARG1 (R68). -/
def State.count (s : State) : Nat := s.cur.arg1.toNat

/-- DST: the BUF address in ARG2 (R68). -/
def State.dst (s : State) : Nat := s.cur.arg2.toNat

/-- Two ranges of at least one byte each intersect. -/
def rangesMeet (a la b lb : Nat) : Bool := decide (a < b + lb) && decide (b < a + la)

/-- The length in bytes of `CNT * MULT * 16` Reed-Muller bytes (R68). -/
def State.codeLen (s : State) : Nat := s.count * s.params.n2Bytes

/-- RMENC's and RMDEC's range checks (R91, R95): both ranges in BUF and, where CNT > 0, not intersecting. -/
def State.rmRangesOk (s : State) (srcLen dstLen : Nat) : Bool :=
  s.params.inBuf s.src srcLen && s.params.inBuf s.dst dstLen &&
    !(decide (0 < s.count) && rangesMeet s.src srcLen s.dst dstLen)

end Sys2Proof.Machine
end

