-- ==== Sys2Proof/Machine/ReedMuller.lean ====
section
/-! DEFINITION. The Reed-Muller encoder and the Hadamard correlator (42_reed_muller.md, R88 to R96). -/

namespace Sys2Proof.Machine

/-- `parity(x)` for a 7-bit x (R12). -/
def parity7 (x : Nat) : Bool := (List.range 7).foldl (fun acc i => acc != x.testBit i) false

/-- The base codeword of byte b at column j: `b[7] XOR parity((b AND 0x7F) AND j)` (R89). -/
def cwBit (b : Byte) (j : Nat) : Bool := b.toNat.testBit 7 != parity7 ((b.toNat &&& 0x7F) &&& j)

/-- Eight bits as a byte, the first one bit 7 (R90). -/
def packByte (f : Nat → Bool) : Byte :=
  BitVec.ofNat 8 ((List.range 8).foldl (fun v p => 2 * v + (f p).toNat) 0)

/-- `rm_block(b)`: column j is bit 7 - (j mod 8) of byte j div 8 (R90). -/
def rmBlock (b : Byte) : List Byte := (List.range 16).map fun q => packByte fun p => cwBit b (8 * q + p)

/-- The MULT identical copies of a byte's block (R91). -/
def rmCopies (mult : Nat) (b : Byte) : List Byte := (List.replicate mult (rmBlock b)).flatten

/-- The Reed-Muller encoding of a byte string (R91, R101). -/
def rmEncode (mult : Nat) (bs : List Byte) : List Byte := bs.flatMap (rmCopies mult)

/-- Column j of the r-th copy in a received block (R90 unpacking, R93). -/
def blockBit (x : List Byte) (r j : Nat) : Bool := (x.getD (16 * r + j / 8) 0).toNat.testBit (7 - j % 8)

/-- `S[j]`: how many of the MULT copies have a 1 at column j (R93). -/
def softCount (mult : Nat) (x : List Byte) (j : Nat) : Nat :=
  (List.range mult).foldl (fun acc r => acc + (blockBit x r j).toNat) 0

/-- The soft vector of a received block (R93). -/
def softVector (mult : Nat) (x : List Byte) : List Nat := (List.range 128).map (softCount mult x)

/-- The product of the 2^k by 2^k Hadamard matrix of the doubling `H(k+1) = [[H(k), H(k)], [H(k), -H(k)]]` with a
vector of 2^k integers (R92; R92 leaves the way it is evaluated free). -/
def hadamard : Nat → List Int → List Int
  | 0, v => v
  | k + 1, v =>
    let lo := v.take (2 ^ k)
    let hi := v.drop (2 ^ k)
    hadamard k (List.zipWith (· + ·) lo hi) ++ hadamard k (List.zipWith (· - ·) lo hi)

/-- `64 * MULT` subtracted from the first coordinate (R93). -/
def subtractFirst (c : Int) : List Int → List Int
  | [] => []
  | t :: ts => (t - c) :: ts

/-- The correlation array T of a soft vector (R93). -/
def correlate (mult : Nat) (soft : List Nat) : List Int :=
  subtractFirst (64 * (mult : Int)) (hadamard 7 (soft.map Int.ofNat))

/-- The largest magnitude in T (R93). -/
def peakMagnitude (t : List Int) : Nat := t.foldl (fun m x => max m x.natAbs) 0

/-- The winning coordinate: the least index of largest magnitude (R93, D27). -/
def peakIndex (t : List Int) : Nat := t.findIdx (fun x => x.natAbs == peakMagnitude t)

/-- The decoded byte of T: the winning index, and 0x80 if the peak is positive; a zero peak gives bit 7 = 0 (R93). -/
def peakByte (t : List Int) : Byte :=
  BitVec.ofNat 8 (peakIndex t + if 0 < t.getD (peakIndex t) 0 then 0x80 else 0)

/-- `rm_decode_block(X)` for MULT * 16 bytes (R93). -/
def rmDecodeBlock (mult : Nat) (x : List Byte) : Byte := peakByte (correlate mult (softVector mult x))

/-- The t-th block of `len` bytes. -/
def blockAt (len t : Nat) (x : List Byte) : List Byte := (x.drop (t * len)).take len

/-- The decoding of `cnt` blocks of MULT * 16 bytes (R95, R102). -/
def rmDecode (mult cnt : Nat) (x : List Byte) : List Byte :=
  (List.range cnt).map fun t => rmDecodeBlock mult (blockAt (mult * 16) t x)

/-- The soft vector and the correlation array as the decoding of `cnt` blocks leaves them: recomputed for every block,
so those of the last one (R38). -/
def State.noteCorrelation (s : State) (cnt : Nat) (x : List Byte) : State :=
  if cnt = 0 then s
  else
    let sv := softVector s.params.mult (blockAt s.params.n2Bytes (cnt - 1) x)
    { s with soft := sv, corr := correlate s.params.mult sv }

/-- RMENC's effect (R91). -/
def State.runRmenc (s : State) : State :=
  if !s.rmRangesOk s.count s.codeLen then s.fail .range
  else
    ((s.noteLoad s.src s.count).storeBytes s.dst
      (rmEncode s.params.mult (s.loadBytes s.src s.count))).complete

/-- RMDEC's effect (R95): it never reports a decoding failure (R94). -/
def State.runRmdec (s : State) : State :=
  if !s.rmRangesOk s.codeLen s.count then s.fail .range
  else
    let x := s.loadBytes s.src s.codeLen
    (((s.noteLoad s.src s.codeLen).noteCorrelation s.count x).storeBytes s.dst
      (rmDecode s.params.mult s.count x)).complete

/-- RMENC src=ARG0, n=ARG1, dst=ARG2 (R91). -/
def execRmenc (s : State) : Host.Outcome State Fault Refusal := .next s.runRmenc

/-- RMDEC src=ARG0, n=ARG1, dst=ARG2 (R95). -/
def execRmdec (s : State) : Host.Outcome State Fault Refusal := .next s.runRmdec

end Sys2Proof.Machine
end

