-- ==== Sys2Proof/Machine/Concatenated.lean ====
section
/-! DEFINITION. The concatenated-code encoder and decoder and their control FSM (43_concatenated.md, R97 to R104). -/

namespace Sys2Proof.Machine

/-- A message or an inner codeword is put into the staging (R38). DESIGN CHOICE (log entry 21): it lies in the first bytes,
and the bytes beyond it keep what they held. -/
def State.stage (s : State) (bs : List Byte) : State := { s with staging := bs ++ s.staging.drop bs.length }

/-- An inner-codec request goes out and the engine waits for its answer (R99). `staged` is what the staging holds
(R38) and `f` the FSM state the request is made in (R103). -/
def State.askCodec (s : State) (f : Fsm) (staged : List Byte) (r : CodecRequest) : State :=
  ({ s.stage staged with fsm := f }).request (.codecWait r)

/-- CCENC's second phase begins with the inner codeword staged (R101, R103). -/
def State.enterRmEncode (s : State) (codeword : List Byte) : State :=
  { s.stage codeword with fsm := .ccRmEnc, phase := .rmEncode }

/-- The inner codeword in the staging (R38): its first bytes, where `stage` puts it (log entry 21). -/
def State.stagedCodeword (s : State) : List Byte := s.staging.take s.params.ccN1

/-- CCENC's engine step (R101, R103): read the message and ask the inner encoder; check its answer; encode. In an
instance with CC_AVAIL = 0 the command is an illegal encoding (R70), refused at issue and here (log entry 14). While a
request is outstanding the engine has no step (U8). -/
def State.runCcenc (s : State) (d : Reg) : State :=
  match s.phase with
  | .start =>
    if !s.params.ccAvail then s.fail .illegalEncoding
    else if !s.params.inBuf s.src s.params.ccK then s.fail .range
    else
      let m := s.loadBytes s.src s.params.ccK
      (s.noteLoad s.src s.params.ccK).askCodec .ccInnerEnc m (.enc m)
  | .codecGot (.ok i) =>
    if i.length = s.params.ccN1 then s.enterRmEncode i else s.fail .innerProtocol
  | .codecGot .uncorrectable => s.fail .innerProtocol
  | .rmEncode => (s.setPoly d (beValue (rmEncode s.params.mult s.stagedCodeword))).complete
  | .codecWait _ => s
  | .drbgWait _ => s
  | .drbgGot _ => s

/-- The concatenated codeword in a polynomial: its low 8 * CC_L bits, big-endian (R47, R102). -/
def codewordOf (p : Params) (v : Nat) : List Byte := beBytes p.ccL (v % 2 ^ (8 * p.ccL))

/-- CCDEC's engine step (R102, R103): Reed-Muller decode and ask the inner decoder; check its answer; store. -/
def State.runCcdec (s : State) (a : Reg) : State :=
  match s.phase with
  | .start =>
    if !s.params.ccAvail then s.fail .illegalEncoding
    else if !s.params.inBuf s.dst s.params.ccK then s.fail .range
    else
      let c := codewordOf s.params (s.poly a)
      let i := rmDecode s.params.mult s.params.ccN1 c
      ((s.notePoly a).noteCorrelation s.params.ccN1 c).askCodec .ccInnerDec i (.dec i)
  | .codecGot .uncorrectable => s.fail .uncorrectable
  | .codecGot (.ok m) =>
    if m.length = s.params.ccK then ((s.stage m).storeBytes s.dst m).complete else s.fail .innerProtocol
  | .codecWait _ => s
  | .drbgWait _ => s
  | .drbgGot _ => s
  | .rmEncode => s

/-- CCENC pd, src=ARG0 (R101). -/
def execCcenc (d : Reg) (s : State) : Host.Outcome State Fault Refusal := .next (s.runCcenc d)

/-- CCDEC pa, dst=ARG2 (R102). -/
def execCcdec (a : Reg) (s : State) : Host.Outcome State Fault Refusal := .next (s.runCcdec a)

end Sys2Proof.Machine
end

