-- ==== Sys2Proof/Machine/PolyRing.lean ====
section
/-! DEFINITION. The polynomial ring commands (40_poly_ring.md, R73 to R80) and NOP. Each meaning of an accepted
command is its engine step from acceptance to completion (R109). -/

namespace Sys2Proof.Machine

/-- `rotl_N(b, i)` for b < 2^N, i < N (R12). -/
def rotlN (n b i : Nat) : Nat := ((b <<< i) ||| (b >>> (n - i))) % 2 ^ n

/-- R77's loop: for each set bit i of `a`, from least to most significant, XOR `b` rotated left by i. -/
def cyclicMul (n b a : Nat) : Nat :=
  (List.range n).foldl (fun acc i => if a.testBit i then acc ^^^ rotlN n b i else acc) 0

/-- NOP's effect (R73, R106): DONE, nothing else. -/
def State.runNop (s : State) : State := s.signalDone

/-- PZERO's effect (R74). -/
def State.runPzero (s : State) (d : Reg) : State := (s.setPoly d 0).complete

/-- PMOV's effect (R75). -/
def State.runPmov (s : State) (d a : Reg) : State := ((s.notePoly a).setPoly d (s.poly a)).complete

/-- PXOR's effect (R76): both sources are read before the destination is written (R107). -/
def State.runPxor (s : State) (d a b : Reg) : State :=
  (((s.notePoly a).notePoly b).setPoly d (s.poly a ^^^ s.poly b)).complete

/-- The convolution accumulator at its final value (R38, R77). -/
def State.setMulAcc (s : State) (v : Nat) : State := { s with mulAcc := v }

/-- PMUL's effect (R77): P[pa] is rotated, P[pb] is scanned. -/
def State.runPmul (s : State) (d a b : Reg) : State :=
  let acc := cyclicMul s.params.n (s.poly a) (s.poly b)
  ((((s.notePoly a).notePoly b).setMulAcc acc).setPoly d acc).complete

/-- LOADP's effect (R79): RANGE before any read, SERIALIZATION if a bit at position N or above is 1. -/
def State.runLoadp (s : State) (d : Reg) : State :=
  if !s.params.inBuf s.src s.params.nBytes then s.fail .range
  else
    let v := beValue (s.loadBytes s.src s.params.nBytes)
    let s1 := s.noteLoad s.src s.params.nBytes
    if 2 ^ s.params.n ≤ v then s1.fail .serialization else (s1.setPoly d v).complete

/-- STOREP's effect (R80). -/
def State.runStorep (s : State) (a : Reg) : State :=
  if !s.params.inBuf s.dst s.params.nBytes then s.fail .range
  else ((s.notePoly a).storeBytes s.dst (beBytes s.params.nBytes (s.poly a))).complete

/-- NOP (R73). -/
def execNop (s : State) : Host.Outcome State Fault Refusal := .next s.runNop

/-- PZERO pd (R74). -/
def execPzero (d : Reg) (s : State) : Host.Outcome State Fault Refusal := .next (s.runPzero d)

/-- PMOV pd, pa (R75). -/
def execPmov (d a : Reg) (s : State) : Host.Outcome State Fault Refusal := .next (s.runPmov d a)

/-- PXOR pd, pa, pb (R76). -/
def execPxor (d a b : Reg) (s : State) : Host.Outcome State Fault Refusal := .next (s.runPxor d a b)

/-- PMUL pd, pa, pb (R77). -/
def execPmul (d a b : Reg) (s : State) : Host.Outcome State Fault Refusal := .next (s.runPmul d a b)

/-- LOADP pd, src=ARG0 (R79). -/
def execLoadp (d : Reg) (s : State) : Host.Outcome State Fault Refusal := .next (s.runLoadp d)

/-- STOREP pa, dst=ARG2 (R80). -/
def execStorep (a : Reg) (s : State) : Host.Outcome State Fault Refusal := .next (s.runStorep a)

end Sys2Proof.Machine
end

