-- ==== Sys2Proof/Machine/Sampler.lean ====
section
/-! DEFINITION. The fixed-weight rejection sampler (41_sampler.md, R81 to R86). -/

namespace Sys2Proof.Machine

/-- The value of one draw: `BE(B) >> DISC` (R81). -/
def drawValue (p : Params) (bs : List Byte) : Nat := beValue bs >>> p.discard

/-- A draw is accepted: below N and naming a bit not yet set (R81). -/
def State.accepts (s : State) (v : Nat) : Bool := decide (v < s.params.n) && !s.candidate.testBit v

/-- One answered draw (R81): counted, and its bit set if it is accepted. -/
def State.takeDraw (s : State) (bs : List Byte) : State :=
  let v := drawValue s.params bs
  if s.accepts v then
    { s with draws := satSucc s.draws, candidate := s.candidate ||| 2 ^ v, remaining := s.remaining - 1 }
  else { s with draws := satSucc s.draws }

/-- `SAMPLE_DRAWS <- min(draws, 0xFFFF_FFFF)` (R35, R81, R108): the 32-bit count has saturated already. -/
def State.recordDraws (s : State) : State := { s with sampleDraws := s.draws }

/-- The head of R81's loop: completed, out of budget, or one more request of exactly BY bytes (R83). -/
def State.sampleTurn (s : State) (d : Reg) : State :=
  if s.remaining = 0 then (s.recordDraws.setPoly d s.candidate).complete
  else if s.limit ≠ 0 ∧ s.draws = s.limit then s.recordDraws.fail .sampleBudget
  else s.request (.drbgWait s.params.bytesNeeded)

/-- The sampler's working state at the start of each SAMPLE (R38, R81). -/
def State.startSample (s : State) : State :=
  { s with candidate := 0, remaining := s.cur.arg1, draws := 0 }

/-- SAMPLE's engine step (R81, R109): W > N raises ILLEGAL_OPERAND without a draw (an issue check, repeated here so that
the step is total, log entry 14); while a request is outstanding the engine has no step (U6). -/
def State.runSample (s : State) (d : Reg) : State :=
  match s.phase with
  | .start => if s.params.n < s.count then s.fail .illegalOperand else s.startSample.sampleTurn d
  | .drbgGot bs => (s.takeDraw bs).sampleTurn d
  | .drbgWait _ => s
  | .codecWait _ => s
  | .codecGot _ => s
  | .rmEncode => s

/-- SAMPLE pd, w=ARG1 (R81). -/
def execSample (d : Reg) (s : State) : Host.Outcome State Fault Refusal := .next (s.runSample d)

end Sys2Proof.Machine
end

