-- ==== Sys2Proof/Syntax.lean ====
section
/-! DEFINITION. The twelve commands of HQCCA (R69), one constructor per row of spec/opcode_table.json. -/

namespace Sys2Proof

/-- A command with its register operands in the order PD, PA, PB (R72). Wide operands are not part of the word: they
come from ARG0, ARG1 and ARG2 as latched at acceptance (R68). -/
inductive Instr where
  | nop
  | pzero (pd : Reg)
  | pmov (pd pa : Reg)
  | pxor (pd pa pb : Reg)
  | pmul (pd pa pb : Reg)
  | sample (pd : Reg)
  | loadp (pd : Reg)
  | storep (pa : Reg)
  | rmenc
  | rmdec
  | ccenc (pd : Reg)
  | ccdec (pa : Reg)
  deriving DecidableEq, Repr

end Sys2Proof
end

