-- ==== Sys2Proof/Machine/Dispatch.lean ====
section
/-! DEFINITION. One arm per command: the meaning that runs it. -/

namespace Sys2Proof.Machine

/-- A command's own step: of NOP, its completion in the step of its CMD write (R106); of every other command, the
engine's step of the accepted command whose operands CUR holds (R109). -/
def exec (i : Instr) (s : State) : Host.Outcome State Fault Refusal :=
  match i with
  | .nop => Sys2Proof.Machine.execNop s
  | .pzero d => Sys2Proof.Machine.execPzero d s
  | .pmov d a => Sys2Proof.Machine.execPmov d a s
  | .pxor d a b => Sys2Proof.Machine.execPxor d a b s
  | .pmul d a b => Sys2Proof.Machine.execPmul d a b s
  | .sample d => Sys2Proof.Machine.execSample d s
  | .loadp d => Sys2Proof.Machine.execLoadp d s
  | .storep a => Sys2Proof.Machine.execStorep a s
  | .rmenc => Sys2Proof.Machine.execRmenc s
  | .rmdec => Sys2Proof.Machine.execRmdec s
  | .ccenc d => Sys2Proof.Machine.execCcenc d s
  | .ccdec a => Sys2Proof.Machine.execCcdec a s

end Sys2Proof.Machine
end

