-- ==== Sys2Proof/WellFormed.lean ====
section
/-! DEFINITION. Which instances may be instantiated (R8) and which commands an instance has (R70). -/

namespace Sys2Proof

/-- `N >= 2` (R8), and N fits PARAM_N's 32 bits (R23). -/
def Params.nOk (p : Params) : Bool := decide (2 ≤ p.n) && decide (p.n < 2 ^ 32)

/-- `1 <= MULT <= 255` (R8). -/
def Params.multOk (p : Params) : Bool := decide (1 ≤ p.mult) && decide (p.mult ≤ 255)

/-- `1 <= CC_K <= 65535` (R8). -/
def Params.ccKOk (p : Params) : Bool := decide (1 ≤ p.ccK) && decide (p.ccK ≤ 65535)

/-- `1 <= CC_N1 <= 65535` (R8). -/
def Params.ccN1Ok (p : Params) : Bool := decide (1 ≤ p.ccN1) && decide (p.ccN1 ≤ 65535)

/-- `N_BYTES <= BUF_BYTES` and `CC_K <= BUF_BYTES` (R8). -/
def Params.bufHolds (p : Params) : Bool := decide (p.nBytes ≤ p.bufBytes) && decide (p.ccK ≤ p.bufBytes)

/-- `BUF_BYTES` a multiple of 4 and at most 0xFFFF_0000 (R8). -/
def Params.bufOk (p : Params) : Bool := decide (p.bufBytes % 4 = 0) && decide (p.bufBytes ≤ 0xFFFF0000)

/-- R8's parameter well-formedness. -/
def Params.wf (p : Params) : Bool :=
  p.nOk && p.multOk && p.ccKOk && p.ccN1Ok && p.bufHolds && p.bufOk

/-- A command the instance has: CCENC and CCDEC exist only where CC_AVAIL = 1 (R8, R70). Register numbers are in
range by their type (R67). -/
def Instr.wellFormed (p : Params) : Instr → Bool
  | .nop => true
  | .pzero _ => true
  | .pmov _ _ => true
  | .pxor _ _ _ => true
  | .pmul _ _ _ => true
  | .sample _ => true
  | .loadp _ => true
  | .storep _ => true
  | .rmenc => true
  | .rmdec => true
  | .ccenc _ => p.ccAvail
  | .ccdec _ => p.ccAvail

end Sys2Proof
end

