-- ==== Sys2Proof/Decode.lean ====
section
/-! DEFINITION. Decoding a command word (R65 to R71), total on every 32-bit word, and the encoder. -/

namespace Sys2Proof

/-- Why a word is no command (R70): the decoder's two errors. -/
inductive DecodeError where
  | illegalEncoding
  | illegalOperand
  deriving DecidableEq, Repr

/-- The listed opcodes of R69. -/
inductive Opcode where
  | nop
  | pzero
  | pmov
  | pxor
  | pmul
  | sample
  | loadp
  | storep
  | rmenc
  | rmdec
  | ccenc
  | ccdec
  deriving DecidableEq, Repr

/-- The OPC value of each opcode (R69). -/
def Opcode.byte : Opcode → Byte
  | .nop => 0x00#8
  | .pzero => 0x01#8
  | .pmov => 0x02#8
  | .pxor => 0x03#8
  | .pmul => 0x04#8
  | .sample => 0x08#8
  | .loadp => 0x10#8
  | .storep => 0x11#8
  | .rmenc => 0x18#8
  | .rmdec => 0x19#8
  | .ccenc => 0x20#8
  | .ccdec => 0x21#8

/-- Every opcode, in R69's order. -/
def Opcode.all : List Opcode :=
  [.nop, .pzero, .pmov, .pxor, .pmul, .sample, .loadp, .storep, .rmenc, .rmdec, .ccenc, .ccdec]

/-- The opcode an OPC value selects; every other value is reserved (R69, R71). -/
def Opcode.ofByte (b : Byte) : Option Opcode := Opcode.all.find? (fun o => o.byte == b)

/-- The match column of R69. -/
def Opcode.matchBits : Opcode → Word
  | .nop => 0x00000000#32
  | .pzero => 0x01000000#32
  | .pmov => 0x02000000#32
  | .pxor => 0x03000000#32
  | .pmul => 0x04000000#32
  | .sample => 0x08000000#32
  | .loadp => 0x10000000#32
  | .storep => 0x11000000#32
  | .rmenc => 0x18000000#32
  | .rmdec => 0x19000000#32
  | .ccenc => 0x20000000#32
  | .ccdec => 0x21000000#32

/-- The mask column of R69: the bits a word of the opcode must have as in `matchBits`. -/
def Opcode.maskBits : Opcode → Word
  | .nop => 0xFFFFFFFF#32
  | .pzero => 0xFF0FFFFF#32
  | .pmov => 0xFF00FFFF#32
  | .pxor => 0xFF000FFF#32
  | .pmul => 0xFF000FFF#32
  | .sample => 0xFF0FFFFF#32
  | .loadp => 0xFF0FFFFF#32
  | .storep => 0xFFF0FFFF#32
  | .rmenc => 0xFFFFFFFF#32
  | .rmdec => 0xFFFFFFFF#32
  | .ccenc => 0xFF0FFFFF#32
  | .ccdec => 0xFFF0FFFF#32

/-- The opcodes an instance with CC_AVAIL = 0 treats as unlisted (R70). -/
def Opcode.needsCc : Opcode → Bool
  | .nop => false
  | .pzero => false
  | .pmov => false
  | .pxor => false
  | .pmul => false
  | .sample => false
  | .loadp => false
  | .storep => false
  | .rmenc => false
  | .rmdec => false
  | .ccenc => true
  | .ccdec => true

/-- The OPC field, bits 31:24 (R65). -/
def opcField (w : Word) : Byte := w.extractLsb' 24 8

/-- The PD field, bits 23:20 (R65). -/
def pdField (w : Word) : BitVec 4 := w.extractLsb' 20 4

/-- The PA field, bits 19:16 (R65). -/
def paField (w : Word) : BitVec 4 := w.extractLsb' 16 4

/-- The PB field, bits 15:12 (R65). -/
def pbField (w : Word) : BitVec 4 := w.extractLsb' 12 4

/-- A used register field: 0 to 7 select a register, 8 to 15 raise ILLEGAL_OPERAND (R67). -/
def regOf (f : BitVec 4) : Except DecodeError Reg :=
  if h : f.toNat < 8 then .ok ⟨f.toNat, h⟩ else .error .illegalOperand

/-- The fields an opcode's format uses, in the order PD, PA, PB (R66, R70, R112). -/
def Opcode.operands (o : Opcode) (d a b : BitVec 4) : Except DecodeError Instr :=
  match o with
  | .nop => .ok .nop
  | .pzero => (regOf d).map Instr.pzero
  | .pmov => (regOf d).bind fun d => (regOf a).map fun a => .pmov d a
  | .pxor => (regOf d).bind fun d => (regOf a).bind fun a => (regOf b).map fun b => .pxor d a b
  | .pmul => (regOf d).bind fun d => (regOf a).bind fun a => (regOf b).map fun b => .pmul d a b
  | .sample => (regOf d).map Instr.sample
  | .loadp => (regOf d).map Instr.loadp
  | .storep => (regOf a).map Instr.storep
  | .rmenc => .ok .rmenc
  | .rmdec => .ok .rmdec
  | .ccenc => (regOf d).map Instr.ccenc
  | .ccdec => (regOf a).map Instr.ccdec

/-- R70: decoding a word, its checks in R112's order. -/
def decode (p : Params) (w : Word) : Except DecodeError Instr :=
  match Opcode.ofByte (opcField w) with
  | none => .error .illegalEncoding
  | some o =>
    if o.needsCc && !p.ccAvail then .error .illegalEncoding
    else if w &&& o.maskBits = o.matchBits then o.operands (pdField w) (paField w) (pbField w)
    else .error .illegalEncoding

/-- The opcode of a command. -/
def Instr.opcode : Instr → Opcode
  | .nop => .nop
  | .pzero _ => .pzero
  | .pmov _ _ => .pmov
  | .pxor _ _ _ => .pxor
  | .pmul _ _ _ => .pmul
  | .sample _ => .sample
  | .loadp _ => .loadp
  | .storep _ => .storep
  | .rmenc => .rmenc
  | .rmdec => .rmdec
  | .ccenc _ => .ccenc
  | .ccdec _ => .ccdec

/-- A word from its fields, RSV = 0 (R65). -/
def wordOf (o : Opcode) (d a b : Nat) : Word :=
  o.byte ++ BitVec.ofNat 4 d ++ BitVec.ofNat 4 a ++ BitVec.ofNat 4 b ++ 0#12

/-- The word of a command (R66, R69): a field the format does not use is 0. -/
def encode : Instr → Word
  | .nop => wordOf .nop 0 0 0
  | .pzero d => wordOf .pzero d.val 0 0
  | .pmov d a => wordOf .pmov d.val a.val 0
  | .pxor d a b => wordOf .pxor d.val a.val b.val
  | .pmul d a b => wordOf .pmul d.val a.val b.val
  | .sample d => wordOf .sample d.val 0 0
  | .loadp d => wordOf .loadp d.val 0 0
  | .storep a => wordOf .storep 0 a.val 0
  | .rmenc => wordOf .rmenc 0 0 0
  | .rmdec => wordOf .rmdec 0 0 0
  | .ccenc d => wordOf .ccenc d.val 0 0
  | .ccdec a => wordOf .ccdec 0 a.val 0

/-- What the decoder of the reset state's instance reads from the low `nbits` bits of `w`. A command is one 32-bit
word (R65), bit 0 its least significant bit. -/
def decodeTableWord (nbits w : Nat) : Option Instr :=
  match decode Params.default (BitVec.ofNat 32 (w % 2 ^ nbits)) with
  | .ok i => some i
  | .error _ => none

end Sys2Proof
end

