-- ==== Sys2Proof/Machine/Flags.lean ====
section
/-! DEFINITION. STATUS, ERRCODE and the interrupt output (R28 to R30, R113). HQCCA has no other flags (R36). -/

namespace Sys2Proof.Machine

/-- The encodings of STATUS.STATE (R30). -/
def Fsm.code : Fsm → BitVec 4
  | .idle => 0
  | .poly => 1
  | .xfer => 2
  | .sample => 3
  | .rmEnc => 4
  | .rmDec => 5
  | .ccInnerEnc => 6
  | .ccRmEnc => 7
  | .ccRmDec => 8
  | .ccInnerDec => 9

/-- The codes of R110. -/
def ErrCode.code : ErrCode → Byte
  | .none => 0x00#8
  | .busy => 0x01#8
  | .illegalEncoding => 0x02#8
  | .illegalOperand => 0x03#8
  | .range => 0x04#8
  | .serialization => 0x05#8
  | .sampleBudget => 0x06#8
  | .innerProtocol => 0x07#8
  | .uncorrectable => 0x08#8

/-- The interrupt output and STATUS.IRQ (R113). -/
def State.irq (s : State) : Bool := (s.done && s.ieDone) || (s.err && s.ieErr)

/-- The states a command passes through, its first state first (R30, R103). NOP never leaves IDLE (R73). -/
def statesOf : Instr → List Fsm
  | .nop => [.idle]
  | .pzero _ => [.poly]
  | .pmov _ _ => [.poly]
  | .pxor _ _ _ => [.poly]
  | .pmul _ _ _ => [.poly]
  | .sample _ => [.sample]
  | .loadp _ => [.xfer]
  | .storep _ => [.xfer]
  | .rmenc => [.rmEnc]
  | .rmdec => [.rmDec]
  | .ccenc _ => [.ccInnerEnc, .ccRmEnc]
  | .ccdec _ => [.ccRmDec, .ccInnerDec]

/-- The state a command is accepted into (R30, R106). -/
def firstState (i : Instr) : Fsm := (statesOf i).headD .idle

/-- One of the listed states, drawn by the `k`-th free value where there is a choice (U4). -/
def pickState (fs : List Fsm) (k : Nat) : Fsm :=
  match fs with
  | [] => .idle
  | [f] => f
  | f :: g :: rest => (f :: g :: rest).getD (Config.freeValue k % (f :: g :: rest).length) f

/-- What a read of STATUS.STATE returns: while BUSY, any of the states the running command passes through (R30, U4). -/
def State.visibleFsm (s : State) : Fsm :=
  if s.busy then
    match decode s.params s.cur.word with
    | .ok i => pickState (statesOf i) s.freeCtr
    | .error _ => s.fsm
  else s.fsm

/-- STATUS with the given STATE (R28): reserved bits read 0. -/
def State.statusWith (s : State) (f : Fsm) : Word :=
  0#20 ++ f.code ++ 0#4 ++ BitVec.ofBool s.irq ++ BitVec.ofBool s.err ++ BitVec.ofBool s.done ++ BitVec.ofBool s.busy

/-- STATUS as the host reads it (R28). -/
def State.statusWord (s : State) : Word := s.statusWith s.visibleFsm

/-- ERRCODE (R29): CODE, OPC, reserved bits 0. -/
def State.errcodeWord (s : State) : Word := 0#16 ++ s.errOpc ++ s.errCode.code

/-- CTRL as the host reads it (R27): SRST and the reserved bits read 0. -/
def State.ctrlWord (s : State) : Word := 0#29 ++ BitVec.ofBool s.ieErr ++ BitVec.ofBool s.ieDone ++ 0#1

end Sys2Proof.Machine
end

