-- ==== Sys2Proof/Machine/Issue.lean ====
section
/-! DEFINITION. Issue and acceptance of a command: what a write to CMD does (R106, R112). -/

namespace Sys2Proof.Machine

/-- The error code of a decoding error (R70, R110). -/
def decodeErrCode : DecodeError → ErrCode
  | .illegalEncoding => .illegalEncoding
  | .illegalOperand => .illegalOperand

/-- `CUR <- (w, ARG0, ARG1, ARG2)` (R31, R106). -/
def State.latch (s : State) (w : Word) : State := { s with cur := ⟨w, s.arg0, s.arg1, s.arg2⟩ }

/-- Acceptance (R106): BUSY, the command's first state, and the sampler budget read now (R57). -/
def State.accept (s : State) (i : Instr) : State :=
  { s with busy := true, fsm := firstState i, limit := s.sampleLimit, phase := .start }

/-- A word rejected by an issue check other than BUSY (R106): the error, with the word's OPC, and DONE. -/
def State.reject (s : State) (e : ErrCode) (w : Word) : State := (s.recordError e (opcField w)).signalDone

/-- The last issue check (R81, R106): SAMPLE with W > N. -/
def State.weightTooBig (s : State) (i : Instr) : Bool :=
  decide (i.opcode = .sample) && decide (s.params.n < s.count)

/-- R106, in its order: BUSY, the latch, decoding, SAMPLE's weight, NOP (which completes in this step), acceptance. -/
def issue (w : Word) (s : State) : Host.Outcome State Fault Refusal :=
  if s.busy then .next (s.recordError .busy (opcField w))
  else
    match decode s.params w with
    | .error e => .next ((s.latch w).reject (decodeErrCode e) w)
    | .ok i =>
      if (s.latch w).weightTooBig i then .next ((s.latch w).reject .illegalOperand w)
      else if i = .nop then exec i (s.latch w)
      else .next ((s.latch w).accept i)

end Sys2Proof.Machine
end

