-- ==== Sys2Proof/Machine/Reset.lean ====
section
/-! DEFINITION. Soft reset, the abort of a running command, and power-on reset (70_reset_and_hazards.md, R127 to R130). -/

namespace Sys2Proof.Machine

/-- A polynomial register takes any value below 2^N (R128, U10). Log entry 6: it then counts as written. -/
def State.drawPoly (s : State) (d : Reg) : State :=
  (s.setPoly d (Config.freeValue s.freeCtr % 2 ^ s.params.n)).useFree 1

/-- A BUF range takes any bytes (R128, U10). Log entry 6: they then count as written, as a spoiled register does, so that
a later command's read of them is not the fault of U2. -/
def State.drawRange (s : State) (a len : Nat) : State := (s.storeBytes a (freeBytes s.freeCtr len)).useFree len

/-- The destination of an aborted command holds an unspecified value (R128). DEDUCED (log entry 6): a command whose
RANGE check fails would write no BUF range, so it spoils none. -/
def State.spoilDestination (s : State) : Instr → State
  | .nop => s
  | .pzero d => s.drawPoly d
  | .pmov d _ => s.drawPoly d
  | .pxor d _ _ => s.drawPoly d
  | .pmul d _ _ => s.drawPoly d
  | .sample d => s.drawPoly d
  | .loadp d => s.drawPoly d
  | .storep _ => if s.params.inBuf s.dst s.params.nBytes then s.drawRange s.dst s.params.nBytes else s
  | .rmenc => if s.rmRangesOk s.count s.codeLen then s.drawRange s.dst s.codeLen else s
  | .rmdec => if s.rmRangesOk s.codeLen s.count then s.drawRange s.dst s.count else s
  | .ccenc d => s.drawPoly d
  | .ccdec _ => if s.params.inBuf s.dst s.params.ccK then s.drawRange s.dst s.params.ccK else s

/-- The abort of the running command, if there is one (R127, R128). -/
def State.abort (s : State) : State :=
  if s.busy then
    match decode s.params s.cur.word with
    | .ok i => s.spoilDestination i
    | .error _ => s
  else s

/-- Every CSR that is not hardwired takes its reset value, and no port request is outstanding (R127). -/
def State.resetCsrs (s : State) : State :=
  { s with
    ieDone := false, ieErr := false, busy := false, done := false, err := false, fsm := .idle
    errCode := .none, errOpc := 0, arg0 := 0, arg1 := 0, arg2 := 0, sampleLimit := 0, sampleDraws := 0
    phase := .start }

/-- The k-th free value as a word. -/
def freeWord (k : Nat) : Word := BitVec.ofNat 32 (Config.freeValue k)

/-- CUR and the hidden state of R38 become unspecified (R127, U11): free values of their widths. DESIGN CHOICE (log entry
5): a correlation entry, for which R38 asks at least 16 bits (signed), is 16 bits wide. -/
def State.freeHidden (s : State) : State :=
  let c := s.freeCtr
  { s with
    cur := ⟨freeWord c, freeWord (c + 1), freeWord (c + 2), freeWord (c + 3)⟩
    limit := freeWord (c + 4)
    mulAcc := Config.freeValue (c + 5) % 2 ^ s.params.n
    candidate := Config.freeValue (c + 6) % 2 ^ s.params.n
    remaining := freeWord (c + 7)
    draws := freeWord (c + 8)
    soft := (List.range 128).map fun j => Config.freeValue (c + 9 + j) % 256
    corr := (List.range 128).map fun j => (BitVec.ofNat 16 (Config.freeValue (c + 137 + j))).toInt
    staging := freeBytes (c + 265) s.params.stagingBytes
    freeCtr := c + 265 + s.params.stagingBytes }

/-- Soft reset: a host write to CTRL with SRST = 1, whatever its other bits (R127). -/
def State.softReset (s : State) : State := s.abort.resetCsrs.freeHidden

/-- The release of `rst`: every piece of state at its power-on value (R39, R129). What is no state of HQCCA stays: the
coming inputs, the free-value counter, the number of requests made and the recorded faults. -/
def State.powerOn (s : State) : State :=
  { State.resetOf s.params with
    uninitPoly := s.uninitPoly, uninitBuf := s.uninitBuf, portReq := s.portReq, freeCtr := s.freeCtr
    inputs := s.inputs }

/-- The level the platform drives on `rst` (R126, R129): asserting it stops every step, releasing it resets. -/
def State.driveRst (s : State) (asserted : Bool) : State :=
  if asserted then { s with rst := true } else if s.rst then s.powerOn else s

end Sys2Proof.Machine
end

