-- ==== Sys2Proof/Machine/Bus.lean ====
section
/-! DEFINITION. Host accesses: the CSR window and the BUF window (20_memory.md R40 to R53, 10_state.md R20 to R35). -/

namespace Sys2Proof.Machine

/-- The mapped CSRs (R20). -/
inductive Csr where
  | id
  | version
  | paramN
  | paramRm
  | paramCc
  | paramBuf
  | ctrl
  | status
  | errcode
  | cmd
  | arg0
  | arg1
  | arg2
  | sampleLimit
  | sampleDraws
  deriving DecidableEq, Repr

/-- The offset of each CSR (R20). -/
def Csr.offset : Csr → Nat
  | .id => 0x00
  | .version => 0x04
  | .paramN => 0x08
  | .paramRm => 0x0C
  | .paramCc => 0x10
  | .paramBuf => 0x14
  | .ctrl => 0x18
  | .status => 0x1C
  | .errcode => 0x20
  | .cmd => 0x24
  | .arg0 => 0x28
  | .arg1 => 0x2C
  | .arg2 => 0x30
  | .sampleLimit => 0x34
  | .sampleDraws => 0x38

/-- Every CSR, in R20's order. -/
def Csr.all : List Csr :=
  [.id, .version, .paramN, .paramRm, .paramCc, .paramBuf, .ctrl, .status, .errcode, .cmd, .arg0, .arg1, .arg2,
    .sampleLimit, .sampleDraws]

/-- The CSR at an offset of the CSR window; every other offset is unmapped (R20, R43). -/
def Csr.ofOffset (o : Nat) : Option Csr := Csr.all.find? (fun c => c.offset == o)

/-- What a read of a CSR returns (R20 to R35). CMD reads 0 (R32). -/
def State.csrWord (s : State) : Csr → Word
  | .id => 0x48514341#32
  | .version => 0x00000100#32
  | .paramN => BitVec.ofNat 32 s.params.n
  | .paramRm => 0x00#8 ++ 7#8 ++ 8#8 ++ BitVec.ofNat 8 s.params.mult
  | .paramCc => BitVec.ofNat 16 s.params.ccN1 ++ BitVec.ofNat 16 s.params.ccK
  | .paramBuf => BitVec.ofNat 32 s.params.bufBytes
  | .ctrl => s.ctrlWord
  | .status => s.statusWord
  | .errcode => s.errcodeWord
  | .cmd => 0#32
  | .arg0 => s.arg0
  | .arg1 => s.arg1
  | .arg2 => s.arg2
  | .sampleLimit => s.sampleLimit
  | .sampleDraws => s.sampleDraws

/-- How many free values a read of a CSR may use: one for STATUS.STATE (U4). -/
def Csr.freeUsed : Csr → Nat
  | .status => 1
  | .id => 0
  | .version => 0
  | .paramN => 0
  | .paramRm => 0
  | .paramCc => 0
  | .paramBuf => 0
  | .ctrl => 0
  | .errcode => 0
  | .cmd => 0
  | .arg0 => 0
  | .arg1 => 0
  | .arg2 => 0
  | .sampleLimit => 0
  | .sampleDraws => 0

/-- CTRL.IE_DONE and CTRL.IE_ERR as written (R27). -/
def State.setEnables (s : State) (ieDone ieErr : Bool) : State := { s with ieDone := ieDone, ieErr := ieErr }

/-- A write of 1 to STATUS.DONE (R28). -/
def State.clearDone (s : State) : State := { s with done := false }

/-- A write to STATUS (R28): W1C for DONE and ERR; the other bits ignore writes. -/
def State.writeStatus (s : State) (v : Word) : State :=
  let s1 := if v.getLsbD 1 then s.clearDone else s
  if v.getLsbD 2 then s1.clearError else s1

/-- A write to CTRL (R27): SRST = 1 is a soft reset and the other bits are ignored; otherwise the enables. -/
def State.writeCtrl (s : State) (v : Word) : State :=
  if v.getLsbD 0 then s.softReset else s.setEnables (v.getLsbD 1) (v.getLsbD 2)

/-- A write of a CSR (R20, R53): a write to a read-only CSR is ignored. -/
def writeCsr (c : Csr) (v : Word) (s : State) : Host.Outcome State Fault Refusal :=
  match c with
  | .id => .next s
  | .version => .next s
  | .paramN => .next s
  | .paramRm => .next s
  | .paramCc => .next s
  | .paramBuf => .next s
  | .ctrl => .next (s.writeCtrl v)
  | .status => .next (s.writeStatus v)
  | .errcode => .next s
  | .cmd => issue v s
  | .arg0 => .next { s with arg0 := v }
  | .arg1 => .next { s with arg1 := v }
  | .arg2 => .next { s with arg2 := v }
  | .sampleLimit => .next { s with sampleLimit := v }
  | .sampleDraws => .next s

/-- An OKAY response with its read data (0 on a write, log entry 9). -/
def State.okay (s : State) (data : Word) : State := { s with resp := some ⟨false, data⟩ }

/-- SLVERR: no effect, read data 0 (R43). -/
def State.slverr (s : State) : State := { s with resp := some ⟨true, 0⟩ }

/-- The bytes of an access. -/
def AccessSize.bytes : AccessSize → Nat
  | .b8 => 1
  | .b16 => 2
  | .b32 => 4

/-- Bus data from bytes, little-endian lanes, the unused lanes 0 (R48). -/
def laneWord (bs : List Byte) : Word := BitVec.ofNat 32 (bs.foldr (fun b v => b.toNat + 256 * v) 0)

/-- The bytes of a write from its bus data, little-endian lanes (R48). -/
def laneBytes (len : Nat) (v : Word) : List Byte := (List.range len).map fun t => v.extractLsb' (8 * t) 8

/-- The CSR an access of the CSR window reaches: 32-bit, aligned, mapped (R43, R50). -/
def csrAt (size : AccessSize) (off : Nat) : Option Csr := if size = .b32 then Csr.ofOffset off else none

/-- An access of the CSR window (R50, R52: always accepted). -/
def csrAccess (size : AccessSize) (kind : AccessKind) (off : Nat) (s : State) : Host.Outcome State Fault Refusal :=
  match csrAt size off with
  | none => .next s.slverr
  | some c =>
    match kind with
    | .read => .next ((s.okay (s.csrWord c)).useFree c.freeUsed)
    | .write v => writeCsr c v (s.okay 0)

/-- The BUF window admits an access: not while BUSY (R52), naturally aligned and wholly inside (R51). -/
def State.bufAdmits (s : State) (size : AccessSize) (a : Nat) : Bool :=
  !s.busy && decide (a % size.bytes = 0) && decide (a + size.bytes ≤ s.params.bufBytes)

/-- An access of the BUF window at BUF address `a` (R48, R51, R52); a byte unwritten since power-on reads as any value
(U3). -/
def State.bufAccess (s : State) (size : AccessSize) (kind : AccessKind) (a : Nat) : State :=
  if s.bufAdmits size a then
    match kind with
    | .read => (s.okay (laneWord (s.loadBytes a size.bytes))).useFree size.bytes
    | .write v => (s.okay 0).storeBytes a (laneBytes size.bytes v)
  else s.slverr

/-- The first offset of the BUF window (R40). -/
def bufWindow : Nat := 0x10000

/-- One host access (R40): the CSR window, the BUF window, and SLVERR everywhere else. -/
def hostAccess (a : Access) (s : State) : Host.Outcome State Fault Refusal :=
  if s.params.offsetOf a.addr < bufWindow then csrAccess a.size a.kind (s.params.offsetOf a.addr) s
  else .next (s.bufAccess a.size a.kind (s.params.offsetOf a.addr - bufWindow))

/-- The host's write of a word to CMD. -/
def cmdWrite (p : Params) (w : Word) : Access := ⟨p.base + 0x24#32, .b32, .write w⟩

end Sys2Proof.Machine
end

