-- ==== Sys2Proof/Machine/Engine.lean ====
section
/-! DEFINITION. The steps of the agents (R14, R109, R126): the command engine's turn, the ports' answers, `rst`, and
which step comes next. -/

namespace Sys2Proof.Machine

/-- The engine's turn: the running command's next step (R109). With no command running it has no step. A latch that
holds no command while BUSY = 1 is a fault (log entry 14). -/
def engineTurn (s : State) : Host.Outcome State Fault Refusal :=
  if s.busy then
    match decode s.params s.cur.word with
    | .ok i => exec i s
    | .error _ => .fault .latchNotACommand
  else .next s

/-- The outstanding DRBG request, by its byte count (R83). -/
def State.drbgRequest (s : State) : Option Nat :=
  match s.phase with
  | .drbgWait k => some k
  | .start => none
  | .drbgGot _ => none
  | .codecWait _ => none
  | .codecGot _ => none
  | .rmEncode => none

/-- The outstanding inner-codec request (R99). -/
def State.codecRequest (s : State) : Option CodecRequest :=
  match s.phase with
  | .codecWait r => some r
  | .start => none
  | .drbgWait _ => none
  | .drbgGot _ => none
  | .codecGot _ => none
  | .rmEncode => none

/-- The running command goes on with a phase of its own. -/
def State.setPhase (s : State) (p : Phase) : State := { s with phase := p }

/-- The answer to DRBG request number `r` (R83): taken if that request is outstanding and asked for that many bytes;
otherwise discarded and nothing changes: no request is outstanding (R126, V7), or the answered one was abandoned (R128),
or it asked for another length (log entry 12). -/
def State.answerDrbg (s : State) (r : Nat) (bs : List Byte) : State :=
  if r = s.portReq ∧ s.drbgRequest = some bs.length then s.setPhase (.drbgGot bs) else s

/-- The answer to inner-codec request number `r` (R99): taken, whatever it is, if that request is outstanding; otherwise
discarded (R126, R128, V7). -/
def State.answerCodec (s : State) (r : Nat) (ans : CodecAnswer) : State :=
  if r = s.portReq ∧ s.codecRequest.isSome = true then s.setPhase (.codecGot ans) else s

/-- One step of an agent. While `rst` is asserted HQCCA takes no step and answers nothing (R129). -/
def advance (i : Input) (s : State) : Host.Outcome State Fault Refusal :=
  match i with
  | .rst b => .next (s.driveRst b)
  | .host a => if s.rst then .next s else hostAccess a s
  | .engine => if s.rst then .next s else engineTurn s
  | .drbg r bs => .next (if s.rst then s else s.answerDrbg r bs)
  | .codec r ans => .next (if s.rst then s else s.answerCodec r ans)

/-- The oldest listed step that is enabled, and the others in their order: while `rst` is asserted the host's accesses
have no step and stay pending (R129, U16). -/
def firstEnabled (rst : Bool) (pending : List Input) : Option (Input × List Input) :=
  match pending with
  | [] => none
  | i :: rest =>
    if rst && i.isHost then (firstEnabled rst rest).map fun (j, others) => (j, i :: others)
    else some (i, rest)

/-- The engine has a step: a command runs that waits for no port answer, and `rst` is not asserted (R109, R129). -/
def State.engineEnabled (s : State) : Bool :=
  s.busy && !s.rst && s.drbgRequest.isNone && s.codecRequest.isNone

/-- A free step: any agent's, but the engine's own once it has been passed over as often as the wait's free bound allows
(R109: its steps are weakly fair; log entries 7 and 17). -/
def State.freeStep (s : State) : Input :=
  if s.engineEnabled = true ∧ s.patience = some 0 then .engine else Config.freeInput s.freeCtr

/-- The bound on the wait of an engine that is passed over in a free step: a free value when the wait begins, then one
less each time; none when the engine takes its step or has none. -/
def State.nextPatience (s : State) : Option Nat :=
  if s.engineEnabled = false ∨ s.freeStep = .engine then none
  else
    match s.patience with
    | none => some (Config.freeValue s.freeCtr)
    | some k => some (k - 1)

/-- The next step: the oldest enabled one listed, or else a free one (R14, R109, U12, U13; log entry 7). -/
def State.nextInput (s : State) : Input :=
  match firstEnabled s.rst s.inputs with
  | some (i, _) => i
  | none => s.freeStep

/-- The state once the next step has been taken from what is to come. -/
def State.dropInput (s : State) : State :=
  match firstEnabled s.rst s.inputs with
  | some (_, others) => { s with inputs := others }
  | none => { s with freeCtr := s.freeCtr + 1, patience := s.nextPatience }

/-- The state in which a command word is the very next thing to run: the command accepted, as the host's CMD write
leaves it (R106), with the engine's turn next; for NOP, which completes in the step of its CMD write, and for a word
that is rejected, the CMD write itself comes next (log entry 18). -/
def State.placeWord (s : State) (w : Word) : State :=
  let s0 : State := { s with rst := false, busy := false, fsm := .idle, phase := .start }
  match decode s.params w with
  | .ok i =>
    if i = .nop ∨ (s0.latch w).weightTooBig i then
      { s0 with inputs := .host (cmdWrite s.params w) :: s.inputs }
    else { (s0.latch w).accept i with inputs := .engine :: s.inputs }
  | .error _ => { s0 with inputs := .host (cmdWrite s.params w) :: s.inputs }

end Sys2Proof.Machine
end

