-- ==== Sys2Proof/Machine/Step.lean ====
section
/-! DEFINITION. One step of the machine. -/

namespace Sys2Proof.Machine

/-- One step of one agent (R3, R109). An instance outside R8 is refused by name (U15). -/
def step (s : State) : Host.Outcome State Fault Refusal :=
  if s.params.wf then advance s.nextInput s.dropInput else .refused .illFormedInstance

/-- `s` with the instruction whose bits are the low `nbits` bits of `w` as what the next step runs. A command is one
32-bit word (R65). -/
def State.withFetchWord (s : State) (nbits w : Nat) : State := s.placeWord (BitVec.ofNat 32 (w % 2 ^ nbits))

end Sys2Proof.Machine
end

