-- ==== Sys2Proof/Safety.lean ====
section
/-! DEFINITION. What counts as a safe state, and the invariants that claims use. -/

namespace Sys2Proof.Machine

/-- The run has not gone wrong (93, treatment `fault`): no command has read a polynomial register (U1) or a BUF byte
(U2) unwritten since power-on. -/
def State.Safe (s : State) : Prop := s.uninitPoly = false ∧ s.uninitBuf = false

/-- Every polynomial register is below 2^N (R16). -/
def State.PolysBounded (s : State) : Prop := ∀ i : Reg, s.poly i < 2 ^ s.params.n

/-- BUF is in its canonical form and every byte listed is one of BUF's (R42). -/
def State.BufOk (s : State) : Prop := Memory.wf s.buf ∧ ∀ c ∈ s.buf, c.1 < s.params.bufBytes

/-- ERRCODE holds an error exactly while ERR is 1, and is 0 otherwise (R28, R29). -/
def State.ErrorOk (s : State) : Prop :=
  (s.err = true ↔ s.errCode ≠ .none) ∧ (s.err = false → s.errOpc = 0)

/-- With no command running, STATE is IDLE and no port request is outstanding (R30, R64). -/
def State.IdleOk (s : State) : Prop := s.busy = false → s.fsm = .idle ∧ s.phase = .start

/-- The sampler's working state while a SAMPLE runs: the vector is below 2^N, and its bits and the remaining count make
up the weight (R81). -/
def State.SamplerOk (s : State) : Prop :=
  s.candidate < 2 ^ s.params.n ∧
    ((List.range s.params.n).filter fun i => s.candidate.testBit i).length + s.remaining.toNat = s.count

/-- Where a command can stand between its port exchanges, and the state it shows there (R83, R99, R103). -/
def State.PhaseOk (s : State) (i : Instr) : Prop :=
  match i, s.phase with
  | i, .start => s.fsm = firstState i
  | .sample _, .drbgWait k => s.fsm = .sample ∧ k = s.params.bytesNeeded ∧ s.SamplerOk ∧ s.remaining ≠ 0
  | .sample _, .drbgGot bs => s.fsm = .sample ∧ bs.length = s.params.bytesNeeded ∧ s.SamplerOk ∧ s.remaining ≠ 0
  | .ccenc _, .codecWait r => s.fsm = .ccInnerEnc ∧ ∃ m, r = .enc m ∧ m.length = s.params.ccK
  | .ccenc _, .codecGot _ => s.fsm = .ccInnerEnc
  | .ccenc _, .rmEncode => s.fsm = .ccRmEnc
  | .ccdec _, .codecWait r => s.fsm = .ccInnerDec ∧ s.params.inBuf s.dst s.params.ccK = true ∧
      ∃ c, r = .dec c ∧ c.length = s.params.ccN1
  | .ccdec _, .codecGot _ => s.fsm = .ccInnerDec ∧ s.params.inBuf s.dst s.params.ccK = true
  | _, _ => False

/-- While a command runs, CUR holds its word, which passed its issue checks and is not NOP (R31, R106), and the engine
stands at one of its phases. -/
def State.LatchOk (s : State) : Prop :=
  s.busy = true → ∃ i, decode s.params s.cur.word = .ok i ∧ i ≠ .nop ∧ s.weightTooBig i = false ∧ s.PhaseOk i

/-- The hidden state has the widths R38 gives it (the remaining count and the draw count by their type). A correlation
entry is held to 16 bits (signed), the least R38 allows (log entry 5; R93: every T fits). -/
def State.HiddenOk (s : State) : Prop :=
  s.mulAcc < 2 ^ s.params.n ∧ s.candidate < 2 ^ s.params.n ∧ (s.soft.length = 128 ∧ ∀ c ∈ s.soft, c < 256) ∧
    (s.corr.length = 128 ∧ ∀ t ∈ s.corr, -32768 ≤ t ∧ t < 32768) ∧ s.staging.length = s.params.stagingBytes

/-- The invariant of the machine: R16, R28, R29, R30, R31, R38, R42, R64 and R81 together, in an instance of R8. -/
def State.Inv (s : State) : Prop :=
  s.params.wf = true ∧ s.PolysBounded ∧ s.BufOk ∧ s.ErrorOk ∧ s.HiddenOk ∧ s.IdleOk ∧ s.LatchOk

/-! ### What stays the same, in the words frames use -/

/-- What no command writes: the instance, CTRL's enables, the operand registers and SAMPLE_LIMIT, CUR, the level of
`rst`, the host's last response, the coming steps and the engine's patience. -/
def State.SameControl (s t : State) : Prop :=
  t.params = s.params ∧ t.ieDone = s.ieDone ∧ t.ieErr = s.ieErr ∧ t.arg0 = s.arg0 ∧ t.arg1 = s.arg1 ∧
    t.arg2 = s.arg2 ∧ t.sampleLimit = s.sampleLimit ∧ t.cur = s.cur ∧ t.limit = s.limit ∧ t.rst = s.rst ∧
    t.resp = s.resp ∧ t.inputs = s.inputs ∧ t.patience = s.patience

/-- ERR and ERRCODE. -/
def State.SameErrors (s t : State) : Prop := t.err = s.err ∧ t.errCode = s.errCode ∧ t.errOpc = s.errOpc

/-- SAMPLE_DRAWS and the sampler's working state. -/
def State.SameSampler (s t : State) : Prop :=
  t.sampleDraws = s.sampleDraws ∧ t.candidate = s.candidate ∧ t.remaining = s.remaining ∧ t.draws = s.draws

/-- The Reed-Muller working state and the inner-codec staging. -/
def State.SameCode (s t : State) : Prop := t.soft = s.soft ∧ t.corr = s.corr ∧ t.staging = s.staging

/-- `s` with other working state of R38: what an earlier command may have left there. -/
def State.withHidden (s : State) (mulAcc candidate : Nat) (remaining draws : Word) (soft : List Nat) (corr : List Int)
    (staging : List Byte) : State :=
  { s with
    mulAcc := mulAcc, candidate := candidate, remaining := remaining, draws := draws, soft := soft, corr := corr
    staging := staging }

/-- P0 to P7, and which of them have been written. -/
def State.SamePolys (s t : State) : Prop :=
  ∀ j : Reg, t.poly j = s.poly j ∧ t.polyWritten.get j = s.polyWritten.get j

/-- Every polynomial register but one. -/
def State.SamePolysBut (s : State) (d : Reg) (t : State) : Prop :=
  ∀ j : Reg, j ≠ d → t.poly j = s.poly j ∧ t.polyWritten.get j = s.polyWritten.get j

/-- Every byte of BUF. -/
def State.SameBuf (s t : State) : Prop := ∀ x, Memory.read t.buf x = Memory.read s.buf x

/-- Every byte of BUF outside the `len` bytes at `a`. -/
def State.SameBufOutside (s : State) (a len : Nat) (t : State) : Prop :=
  ∀ x, ¬(a ≤ x ∧ x < a + len) → Memory.read t.buf x = Memory.read s.buf x

/-- The recorded faults of U1 and U2. -/
def State.SameUninit (s t : State) : Prop := t.uninitPoly = s.uninitPoly ∧ t.uninitBuf = s.uninitBuf

/-- A command has completed (R108): DONE 1, BUSY 0, STATE IDLE, no port request outstanding. -/
def State.Completed (t : State) : Prop :=
  t.done = true ∧ t.busy = false ∧ t.fsm = .idle ∧ t.drbgRequest = none ∧ t.codecRequest = none

/-- A command has completed by writing `v` to P[d], and has changed nothing else but working state of its own. -/
def State.WrotePoly (s : State) (d : Reg) (v : Nat) (t : State) : Prop :=
  t.poly d = v ∧ t.polyWritten.get d = true ∧ s.SamePolysBut d t ∧ s.SameBuf t ∧ s.SameControl t ∧
    s.SameErrors t ∧ t.Completed

/-- A command has completed without error, has written no polynomial register, and has changed BUF at most in the `len`
bytes at `a`. -/
def State.WroteBuf (s : State) (a len : Nat) (t : State) : Prop :=
  s.SameBufOutside a len t ∧ s.SamePolys t ∧ s.SameControl t ∧ s.SameErrors t ∧ t.Completed

/-- A command has completed with error `e` (R107, R108): ERR 1, ERRCODE the code with the OPC of CUR's word, and no
polynomial register and no byte of BUF changed. -/
def State.EndedWith (s : State) (e : ErrCode) (t : State) : Prop :=
  t.err = true ∧ t.errCode = e ∧ t.errOpc = s.cur.word.extractLsb' 24 8 ∧ s.SamePolys t ∧ s.SameBuf t ∧
    s.SameControl t ∧ t.Completed

/-- The engine waits for a port's answer: nothing but the working state and STATE has changed, and the command still
runs. -/
def State.Waits (s t : State) : Prop :=
  s.SamePolys t ∧ s.SameBuf t ∧ s.SameControl t ∧ s.SameErrors t ∧ t.busy = s.busy ∧ t.done = s.done ∧
    t.sampleDraws = s.sampleDraws

/-- The polynomial register a command writes (R17). -/
def destReg : Instr → Option Reg
  | .nop => none
  | .pzero d => some d
  | .pmov d _ => some d
  | .pxor d _ _ => some d
  | .pmul d _ _ => some d
  | .sample d => some d
  | .loadp d => some d
  | .storep _ => none
  | .rmenc => none
  | .rmdec => none
  | .ccenc d => some d
  | .ccdec _ => none

/-- The address of the BUF range a command writes, with CUR as in `s` (R42, R68). -/
def State.destAddr (s : State) : Nat := s.cur.arg2.toNat

/-- The length of that range: 0 for a command that writes no BUF byte (R68). -/
def State.destLen (s : State) : Instr → Nat
  | .nop => 0
  | .pzero _ => 0
  | .pmov _ _ => 0
  | .pxor _ _ _ => 0
  | .pmul _ _ _ => 0
  | .sample _ => 0
  | .loadp _ => 0
  | .storep _ => s.params.n / 8 + 1
  | .rmenc => s.cur.arg1.toNat * s.params.mult * 16
  | .rmdec => s.cur.arg1.toNat
  | .ccenc _ => 0
  | .ccdec _ => s.params.ccK

/-- The next step is `i`, in an instance of R8 that is not held in reset, and `rest` comes after it. -/
def State.Ready (s : State) (i : Input) (rest : List Input) : Prop :=
  s.params.wf = true ∧ s.rst = false ∧ s.inputs = i :: rest

end Sys2Proof.Machine
end

