-- ==== Sys2Proof/Certificates/Slice0/Obligations.lean ====
section
/-! DEFINITION. The statements for the provers: what the rules of spec/ say HQCCA does. -/

open Sys2Proof Sys2Proof.Machine

/-! ### Words the statements share -/

/-- `w` is the one word of the command `i`: the encoder gives it, and every instance that has the command decodes it
so. -/
def WordIs (i : Instr) (w : Nat) : Prop :=
  encode i = BitVec.ofNat 32 w ∧ ∀ p : Params, i.wellFormed p = true → decode p (BitVec.ofNat 32 w) = .ok i

/-- The bytes `B 0, B 1, ...` stand in the `len` bytes of BUF at `a`. -/
def HoldsBytes (s : State) (a len : Nat) (B : Nat → Byte) : Prop :=
  ∀ t, t < len → Memory.read s.buf (a + t) = some (B t)

/-- `B 0, B 1, ...` are what a read of the `len` bytes at `a` finds: each written byte as it was written. A byte
unwritten since power-on has some value (U2, U3), which nothing constrains. -/
def ReadsAs (s : State) (a len : Nat) (B : Nat → Byte) : Prop :=
  ∀ t, t < len → ∀ b, Memory.read s.buf (a + t) = some b → B t = b

/-- The recorded faults after a command has read the `len` bytes at `a`: that of U2 if one of them was unwritten. -/
def NotesBuf (s : State) (a len : Nat) (t : State) : Prop :=
  t.uninitPoly = s.uninitPoly ∧
    (t.uninitBuf = true ↔ s.uninitBuf = true ∨ ∃ k, k < len ∧ Memory.read s.buf (a + k) = none)

/-- The recorded faults after a command has read P[a] and P[b]: that of U1 if one of them was unwritten. -/
def NotesPolys (s : State) (a b : Reg) (t : State) : Prop :=
  (t.uninitPoly = true ↔ s.uninitPoly = true ∨ s.polyWritten.get a = false ∨ s.polyWritten.get b = false) ∧
    t.uninitBuf = s.uninitBuf

/-- `BE` of `len` bytes, as R11's sum. -/
def bigEndian (len : Nat) (B : Nat → Byte) : Nat := ∑ t ∈ Finset.range len, (B t).toNat * 256 ^ (len - 1 - t)

/-- `parity(x)` of a 7-bit x: whether it has an odd number of ones. -/
def oddOnes (x : Nat) : Bool := decide (((List.range 7).filter fun i => x.testBit i).length % 2 = 1)

/-- `popcount(x)` of an n-bit x (R12). -/
def onesCount (n x : Nat) : Nat := ((List.range n).filter fun i => x.testBit i).length

/-- R89: the base codeword of byte `b` at column `j`. -/
def columnBit (b : Byte) (j : Nat) : Bool := b.getLsbD 7 ^^ oddOnes ((b.toNat % 128) &&& j)

/-- Column `j` of packed Reed-Muller bytes, counted on through the blocks (R90): bit 7 - (j mod 8) of byte j div 8. -/
def packedBit (x : List Byte) (j : Nat) : Bool := (x.getD (j / 8) 0).getLsbD (7 - j % 8)

/-- In how many of the first `n` bit positions two packed strings differ (R94). -/
def bitsDiffering (n : Nat) (x y : List Byte) : Nat :=
  ((List.range n).filter fun j => packedBit x j != packedBit y j).length

/-- The entry of the Hadamard matrix at row k, column j: `(-1)^parity(k AND j)` (R92), for indices below 2^m. -/
def hadamardEntry (m k j : Nat) : Int := (-1) ^ onesCount m (k &&& j)

/-- R93's S[j] of a received block. -/
def softSum (mult : Nat) (x : List Byte) (j : Nat) : Int :=
  ∑ r ∈ Finset.range mult, if packedBit x (128 * r + j) then 1 else 0

/-- R93's T[k] of a received block, the subtraction from T[0] included. -/
def correlation (mult : Nat) (x : List Byte) (k : Nat) : Int :=
  (∑ j ∈ Finset.range 128, hadamardEntry 7 k j * softSum mult x j) - if k = 0 then 64 * (mult : Int) else 0

/-- R81's loop on a list of draws that runs out exactly where the loop ends: the completed vector, or none where the
budget ended it, and the number of draws. No answer if the list is too short or too long. -/
def samplerLoop (p : Params) (limit : Nat) : List (List Byte) → Nat → Nat → Nat → Option (Option Nat × Nat)
  | [], acc, rem, draws =>
    if rem = 0 then some (some acc, draws)
    else if limit ≠ 0 ∧ draws = limit then some (none, draws) else none
  | B :: more, acc, rem, draws =>
    if rem = 0 ∨ (limit ≠ 0 ∧ draws = limit) then none
    else if beValue B >>> p.discard < p.n ∧ acc.testBit (beValue B >>> p.discard) = false then
      samplerLoop p limit more (acc ||| 1 <<< (beValue B >>> p.discard)) (rem - 1) (draws + 1)
    else samplerLoop p limit more acc rem (draws + 1)

/-- The steps of a SAMPLE whose DRBG answers are `answers`: the engine's turn, then an answer and a turn for each. The
first request has the number `r` and each later one the next (State.portReq, log entry 12). -/
def samplerSteps (r : Nat) : List (List Byte) → List Input
  | [] => [.engine]
  | B :: more => .engine :: .drbg r B :: samplerSteps (r + 1) more

/-! ### Encoding (30_encoding.md) -/

/-- R69, R70: decoding the word of any command an instance has gives the command back, every operand at every value. -/
def Obligations.DecodeOfEncodeIsTheCommand : Prop :=
  ∀ (p : Params) (i : Instr), i.wellFormed p = true → decode p (encode i) = .ok i

/-- R70, R71: a word that decodes to a command is that command's one word, and the instance has the command. -/
def Obligations.DecodedWordIsTheCommandsOnlyWord : Prop :=
  ∀ (p : Params) (w : Word) (i : Instr), decode p w = .ok i → encode i = w ∧ i.wellFormed p = true

/-- R71: every word whose OPC is not in R69, and every word of a listed OPC with a 1 in a bit its mask requires to be
0, is illegal. -/
def Obligations.ReservedEncodingsAreIllegal : Prop :=
  ∀ (p : Params) (w : Word),
    (w.toNat / 2 ^ 24 ∉ [0x00, 0x01, 0x02, 0x03, 0x04, 0x08, 0x10, 0x11, 0x18, 0x19, 0x20, 0x21] →
        decode p w = .error .illegalEncoding) ∧
      (∀ o : Opcode, w.toNat / 2 ^ 24 = o.byte.toNat → w &&& o.maskBits ≠ o.matchBits →
        decode p w = .error .illegalEncoding) ∧
      (p.ccAvail = false → w.toNat / 2 ^ 24 = 0x20 ∨ w.toNat / 2 ^ 24 = 0x21 → decode p w = .error .illegalEncoding)

/-- R67: values 8 to 15 in a used register field raise ILLEGAL_OPERAND, in a word that is otherwise legal. -/
def Obligations.RegisterFieldsAboveSevenAreIllegalOperands : Prop :=
  ∀ (p : Params) (d a b : Nat), d < 16 → a < 16 → b < 16 →
    (8 ≤ d → ∀ opc ∈ [0x01, 0x08, 0x10],
        decode p (BitVec.ofNat 32 (opc <<< 24 ||| d <<< 20)) = .error .illegalOperand) ∧
      (8 ≤ d → p.ccAvail = true → decode p (BitVec.ofNat 32 (0x20 <<< 24 ||| d <<< 20)) = .error .illegalOperand) ∧
      (8 ≤ a → decode p (BitVec.ofNat 32 (0x11 <<< 24 ||| a <<< 16)) = .error .illegalOperand) ∧
      (8 ≤ a → p.ccAvail = true → decode p (BitVec.ofNat 32 (0x21 <<< 24 ||| a <<< 16)) = .error .illegalOperand) ∧
      (8 ≤ d ∨ 8 ≤ a →
        decode p (BitVec.ofNat 32 (0x02 <<< 24 ||| d <<< 20 ||| a <<< 16)) = .error .illegalOperand) ∧
      (8 ≤ d ∨ 8 ≤ a ∨ 8 ≤ b → ∀ opc ∈ [0x03, 0x04],
        decode p (BitVec.ofNat 32 (opc <<< 24 ||| d <<< 20 ||| a <<< 16 ||| b <<< 12)) = .error .illegalOperand)

/-- R72's example words, written out from R65 and R69, decode in every instance to the commands they stand for; CCDEC's
in every instance that has it (CC_AVAIL = 1, R70). -/
def Obligations.ExampleWordsDecodeAsWritten : Prop :=
  ∀ p : Params, decode p 0x04201000#32 = .ok (.pmul 2 0 1) ∧ decode p 0x03320000#32 = .ok (.pxor 3 2 0) ∧
    decode p 0x08400000#32 = .ok (.sample 4) ∧ decode p 0x11050000#32 = .ok (.storep 5) ∧
    (p.ccAvail = true → decode p 0x21070000#32 = .ok (.ccdec 7))

/-! ### Issue, the engine's turn, and what every command has in common (60_exceptions.md) -/

/-- R106: a CMD write while BUSY = 1 records BUSY with the word's OPC and changes nothing else; DONE is not set. The data
0 of the write's OKAY response is the model's choice (log entry 9). -/
def Obligations.CommandWriteWhileBusyRecordsBusy : Prop :=
  ∀ (s : State) (rest : List Input) (w : Word), s.Ready (.host (cmdWrite s.params w)) rest → s.busy = true →
    step s = .next { s with
      inputs := rest, resp := some ⟨false, 0⟩, err := true, errCode := .busy, errOpc := w.extractLsb' 24 8 }

/-- R106, R81: with no command running, a word that is no command is rejected with ILLEGAL_ENCODING or ILLEGAL_OPERAND as
R70 says, and SAMPLE with W > N with ILLEGAL_OPERAND: the error with the word's OPC, and DONE; beyond the latch CUR
nothing else changes (no draw is asked for, SAMPLE_DRAWS stays). The data 0 of the write's OKAY response is the model's
choice (log entry 9). -/
def Obligations.RejectedWordRecordsItsErrorOnly : Prop :=
  ∀ (s : State) (rest : List Input) (w : Word), s.Ready (.host (cmdWrite s.params w)) rest → s.busy = false →
    let rejected (code : ErrCode) : State := { s with
      inputs := rest, resp := some ⟨false, 0⟩, cur := ⟨w, s.arg0, s.arg1, s.arg2⟩
      err := true, errCode := code, errOpc := w.extractLsb' 24 8, done := true }
    (decode s.params w = .error .illegalEncoding → step s = .next (rejected .illegalEncoding)) ∧
      (decode s.params w = .error .illegalOperand → step s = .next (rejected .illegalOperand)) ∧
      (∀ d : Reg, decode s.params w = .ok (.sample d) → s.params.n < s.arg1.toNat →
        step s = .next (rejected .illegalOperand))

/-- R106, R31, R57: a command that passes every issue check is accepted: BUSY 1, STATE its first state, CUR the word
and the ARG registers, the sampler's budget read now; nothing else changes. The data 0 of the write's OKAY response is
the model's choice (log entry 9). -/
def Obligations.AcceptedCommandIsLatched : Prop :=
  ∀ (s : State) (rest : List Input) (w : Word) (i : Instr), s.Ready (.host (cmdWrite s.params w)) rest →
    s.busy = false → decode s.params w = .ok i → i ≠ .nop → (∀ d, i = .sample d → s.arg1.toNat ≤ s.params.n) →
    step s = .next { s with
      inputs := rest, resp := some ⟨false, 0⟩, cur := ⟨w, s.arg0, s.arg1, s.arg2⟩, limit := s.sampleLimit
      busy := true, phase := .start
      fsm := match i with
        | .nop => .idle
        | .pzero _ => .poly
        | .pmov _ _ => .poly
        | .pxor _ _ _ => .poly
        | .pmul _ _ _ => .poly
        | .sample _ => .sample
        | .loadp _ => .xfer
        | .storep _ => .xfer
        | .rmenc => .rmEnc
        | .rmdec => .rmDec
        | .ccenc _ => .ccInnerEnc
        | .ccdec _ => .ccRmDec }

/-- R73, R106: NOP completes in the step of its CMD write: DONE 1, BUSY and STATE as they were (0 and IDLE), and beyond
the latch CUR nothing else changes; its meaning, as exec gives it, sets DONE and nothing else; while BUSY it gives the
BUSY error; and a nonzero bit in 23:0 is an illegal encoding. The data 0 of the write's OKAY response is the model's
choice (log entry 9). -/
def Obligations.NopCompletesInItsCommandWrite : Prop :=
  WordIs .nop 0x00000000 ∧
    (∀ (p : Params) (w : Word), w.toNat / 2 ^ 24 = 0x00 → w ≠ 0 → decode p w = .error .illegalEncoding) ∧
    (∀ s : State, exec .nop s = .next { s with done := true }) ∧
    ∀ (s : State) (rest : List Input), s.Ready (.host (cmdWrite s.params 0x00000000#32)) rest →
      (s.busy = false → step s = .next { s with
        inputs := rest, resp := some ⟨false, 0⟩, cur := ⟨0x00000000#32, s.arg0, s.arg1, s.arg2⟩, done := true }) ∧
      (s.busy = true → step s = .next { s with
        inputs := rest, resp := some ⟨false, 0⟩, err := true, errCode := .busy, errOpc := 0x00#8 })

/-- R109: the engine's turn with a command running is that command's step, on the state with the turn taken from what
is to come; and with no command running the engine has no step. -/
def Obligations.EngineTurnRunsTheLatchedCommand : Prop :=
  ∀ (s : State) (rest : List Input), s.Ready .engine rest →
    (∀ i, s.busy = true → decode s.params s.cur.word = .ok i → step s = exec i { s with inputs := rest }) ∧
      (s.busy = false → step s = .next { s with inputs := rest })

/-- R107: all or nothing. If a command's step changes a polynomial register or a byte of BUF, then the command has
completed in that step without error. -/
def Obligations.ResultsAreWrittenOnlyByErrorFreeCompletion : Prop :=
  ∀ (i : Instr) (s t : State), exec i s = .next t → ¬(s.SamePolys t ∧ s.SameBuf t) → t.Completed ∧ s.SameErrors t

/-- R17, R42: a command's step changes no polynomial register but its destination, and no byte of BUF outside the range
its operands name. -/
def Obligations.OnlyTheDestinationChanges : Prop :=
  ∀ (i : Instr) (s t : State), exec i s = .next t →
    (∀ j : Reg, destReg i ≠ some j → t.poly j = s.poly j ∧ t.polyWritten.get j = s.polyWritten.get j) ∧
      s.SameBufOutside s.destAddr (s.destLen i) t

/-- R33, R35, R57: no command writes ARG0 to ARG2, SAMPLE_LIMIT or CTRL, nor CUR and the budget it reads, nor the
instance; and no command but SAMPLE writes SAMPLE_DRAWS. -/
def Obligations.CommandsKeepTheHostsRegisters : Prop :=
  ∀ (i : Instr) (s t : State), exec i s = .next t →
    s.SameControl t ∧ ((∀ d, i ≠ .sample d) → t.sampleDraws = s.sampleDraws)

/-- R38: no command's result depends on hidden state left by an earlier command. Two states that differ only in working
state of R38, with no command past its start, give states that differ only there: after one step of any command, and
after any number of steps of the machine, so that registers, BUF, CSRs, port requests and responses agree in the whole
run. -/
def Obligations.ResultsDoNotDependOnHiddenState : Prop :=
  ∀ (s : State) (m c : Nat) (r d : Word) (so : List Nat) (co : List Int) (st : List Byte), s.phase = .start →
    (∀ (i : Instr) (t : State), exec i s = .next t →
      ∃ m' c' r' d' so' co' st', exec i (s.withHidden m c r d so co st) = .next (t.withHidden m' c' r' d' so' co' st')) ∧
    ∀ (k : Nat) (t : State), Host.Core.run core k s = .next t → ∃ m' c' r' d' so' co' st',
      Host.Core.run core k (s.withHidden m c r d so co st) = .next (t.withHidden m' c' r' d' so' co' st')

/-! ### Polynomial ring (40_poly_ring.md) -/

/-- R74: PZERO pd. -/
def Obligations.PzeroClearsItsRegister : Prop :=
  ∀ (d : Reg) (s : State), WordIs (.pzero d) (0x01000000 ||| d.val <<< 20) ∧
    ∃ t, exec (.pzero d) s = .next t ∧ s.WrotePoly d 0 t ∧ s.SameSampler t ∧ s.SameCode t ∧ t.mulAcc = s.mulAcc ∧
      s.SameUninit t

/-- R75: PMOV pd, pa; with pd = pa the register is unchanged. The model's choice (log entry 2): reading a P[pa] unwritten
since power-on records the fault of U1, and the command still completes. -/
def Obligations.PmovCopiesARegister : Prop :=
  ∀ (d a : Reg) (s : State), WordIs (.pmov d a) (0x02000000 ||| d.val <<< 20 ||| a.val <<< 16) ∧
    ∃ t, exec (.pmov d a) s = .next t ∧ s.WrotePoly d (s.poly a) t ∧ s.SameSampler t ∧ s.SameCode t ∧
      t.mulAcc = s.mulAcc ∧ t.uninitPoly = (s.uninitPoly || !s.polyWritten.get a) ∧ t.uninitBuf = s.uninitBuf

/-- R76: PXOR pd, pa, pb, bit by bit; pa = pb gives 0, and the result is below 2^N where both operands are. -/
def Obligations.PxorAddsTwoRegisters : Prop :=
  ∀ (d a b : Reg) (s : State), WordIs (.pxor d a b) (0x03000000 ||| d.val <<< 20 ||| a.val <<< 16 ||| b.val <<< 12) ∧
    ∃ t, exec (.pxor d a b) s = .next t ∧ s.WrotePoly d (t.poly d) t ∧
      (∀ k, (t.poly d).testBit k = ((s.poly a).testBit k ^^ (s.poly b).testBit k)) ∧ (a = b → t.poly d = 0) ∧
      (s.poly a < 2 ^ s.params.n → s.poly b < 2 ^ s.params.n → t.poly d < 2 ^ s.params.n) ∧
      s.SameSampler t ∧ s.SameCode t ∧ t.mulAcc = s.mulAcc

/-- R77: PMUL pd, pa, pb is the cyclic convolution: coefficient k of the result is the XOR over i of a[i] AND
b[(k - i) mod N], with b = P[pa] and a = P[pb], and no coefficient stands at N or above. -/
def Obligations.PmulIsTheCyclicConvolution : Prop :=
  ∀ (d a b : Reg) (s : State), s.PolysBounded →
    WordIs (.pmul d a b) (0x04000000 ||| d.val <<< 20 ||| a.val <<< 16 ||| b.val <<< 12) ∧
    ∃ t, exec (.pmul d a b) s = .next t ∧ s.WrotePoly d (t.poly d) t ∧ t.poly d < 2 ^ s.params.n ∧
      (∀ k, k < s.params.n →
        (t.poly d).testBit k = decide (((List.range s.params.n).filter fun i =>
          (s.poly b).testBit i && (s.poly a).testBit ((k + (s.params.n - i)) % s.params.n)).length % 2 = 1)) ∧
      s.SameSampler t ∧ s.SameCode t ∧ t.mulAcc = t.poly d

/-- R77: the result is the same if PA and PB are swapped; a = 1 gives b; a = x^i gives rotl_N(b, i); and the product of
a sum is the sum of the products. -/
def Obligations.ConvolutionIsTheRingProduct : Prop :=
  ∀ (n a b c : Nat), a < 2 ^ n → b < 2 ^ n → c < 2 ^ n →
    cyclicMul n b a = cyclicMul n a b ∧ (0 < n → cyclicMul n b 1 = b) ∧
      (∀ i, i < n → cyclicMul n b (2 ^ i) = ((b <<< i) ||| (b >>> (n - i))) % 2 ^ n) ∧
      cyclicMul n b (a ^^^ c) = cyclicMul n b a ^^^ cyclicMul n b c

/-- R79: LOADP pd, src=ARG0: RANGE if the source range leaves BUF; otherwise v = BE of the N_BYTES bytes read there:
SERIALIZATION if v >= 2^N, which is so exactly when B[0] >> (N - 8*(N_BYTES-1)) is not 0, and P[pd] <- v otherwise. -/
def Obligations.LoadpDeserializes : Prop :=
  ∀ (d : Reg) (s : State), WordIs (.loadp d) (0x10000000 ||| d.val <<< 20) ∧
    (s.params.bufBytes < s.cur.arg0.toNat + (s.params.n / 8 + 1) →
      ∃ t, exec (.loadp d) s = .next t ∧ s.EndedWith .range t ∧ s.SameSampler t ∧ s.SameCode t ∧
        t.mulAcc = s.mulAcc ∧ s.SameUninit t) ∧
    (s.cur.arg0.toNat + (s.params.n / 8 + 1) ≤ s.params.bufBytes →
      ∃ B : Nat → Byte, ReadsAs s s.cur.arg0.toNat (s.params.n / 8 + 1) B ∧
        (2 ^ s.params.n ≤ bigEndian (s.params.n / 8 + 1) B ↔ (B 0).toNat >>> (s.params.n - 8 * (s.params.n / 8)) ≠ 0) ∧
        ∃ t, exec (.loadp d) s = .next t ∧
          (2 ^ s.params.n ≤ bigEndian (s.params.n / 8 + 1) B → s.EndedWith .serialization t) ∧
          (bigEndian (s.params.n / 8 + 1) B < 2 ^ s.params.n →
            s.WrotePoly d (bigEndian (s.params.n / 8 + 1) B) t) ∧
          s.SameSampler t ∧ s.SameCode t ∧ t.mulAcc = s.mulAcc)

/-- R80: STOREP pa, dst=ARG2: RANGE if the destination range leaves BUF; otherwise the N_BYTES bytes at DST are the
big-endian bytes of P[pa], and no other byte of BUF changes; and then LOADP of the same bytes never raises SERIALIZATION
and returns the same value. -/
def Obligations.StorepSerializes : Prop :=
  ∀ (a : Reg) (s : State), WordIs (.storep a) (0x11000000 ||| a.val <<< 16) ∧
    (s.params.bufBytes < s.cur.arg2.toNat + (s.params.n / 8 + 1) →
      ∃ t, exec (.storep a) s = .next t ∧ s.EndedWith .range t ∧ s.SameSampler t ∧ s.SameCode t ∧
        t.mulAcc = s.mulAcc) ∧
    (s.cur.arg2.toNat + (s.params.n / 8 + 1) ≤ s.params.bufBytes →
      ∃ t, exec (.storep a) s = .next t ∧ s.WroteBuf s.cur.arg2.toNat (s.params.n / 8 + 1) t ∧
        HoldsBytes t s.cur.arg2.toNat (s.params.n / 8 + 1)
          (fun k => BitVec.ofNat 8 (s.poly a / 256 ^ (s.params.n / 8 - k))) ∧
        s.SameSampler t ∧ s.SameCode t ∧ t.mulAcc = s.mulAcc ∧
        (s.PolysBounded → s.cur.arg0 = s.cur.arg2 → ∀ d : Reg,
          ∃ u, exec (.loadp d) t = .next u ∧ t.WrotePoly d (s.poly a) u))

/-! ### Fixed-weight sampler (41_sampler.md) -/

/-- R82: BN is the least b with 2^b >= N, BY = ceil(BN / 8), DISC = 8*BY - BN and 0 <= DISC <= 7, with R82's values. -/
def Obligations.SamplerConstantsAreExact : Prop :=
  (∀ p : Params, p.n ≤ 2 ^ p.bitsNeeded ∧ (∀ b, p.n ≤ 2 ^ b → p.bitsNeeded ≤ b) ∧
      8 * p.bytesNeeded = p.bitsNeeded + p.discard ∧ p.discard ≤ 7) ∧
    (∀ p : Params, ∀ k, (p.n = 2 ^ k → p.bitsNeeded = k) ∧ (p.n = 2 ^ k + 1 → p.bitsNeeded = k + 1)) ∧
    ∀ p : Params,
      (p.n = 10 → (p.bitsNeeded, p.bytesNeeded, p.discard) = (4, 1, 4)) ∧
      (p.n = 131 → (p.bitsNeeded, p.bytesNeeded, p.discard) = (8, 1, 0)) ∧
      (p.n = 300 → (p.bitsNeeded, p.bytesNeeded, p.discard) = (9, 2, 7)) ∧
      (p.n = 60000 → (p.bitsNeeded, p.bytesNeeded, p.discard) = (16, 2, 0)) ∧
      (p.n = 65536 → (p.bitsNeeded, p.bytesNeeded, p.discard) = (16, 2, 0)) ∧
      (p.n = 65537 → (p.bitsNeeded, p.bytesNeeded, p.discard) = (17, 3, 7))

/-- R81: the first turn of SAMPLE. W = 0 makes no draw and writes P[pd] = 0 with SAMPLE_DRAWS = 0; 0 < W <= N asks the
DRBG for exactly BY bytes. -/
def Obligations.SampleStartsWithOneRequest : Prop :=
  ∀ (d : Reg) (s : State), s.phase = .start → s.cur.arg1.toNat ≤ s.params.n →
    WordIs (.sample d) (0x08000000 ||| d.val <<< 20) ∧
    (s.cur.arg1.toNat = 0 → ∃ t, exec (.sample d) s = .next t ∧ s.WrotePoly d 0 t ∧ t.sampleDraws = 0 ∧
      s.SameCode t ∧ t.mulAcc = s.mulAcc ∧ s.SameUninit t) ∧
    (0 < s.cur.arg1.toNat → ∃ t, exec (.sample d) s = .next t ∧ s.Waits t ∧ t.fsm = s.fsm ∧
      t.drbgRequest = some s.params.bytesNeeded ∧ t.candidate = 0 ∧ t.remaining = s.cur.arg1 ∧ t.draws = 0 ∧
      s.SameCode t ∧ t.mulAcc = s.mulAcc ∧ s.SameUninit t)

/-- R81: SAMPLE's turn on an answered draw. The draw counts; a value v = BE(B) >> DISC below N at a bit not yet set is
accepted, any other is rejected; then the command completes when nothing remains, ends with SAMPLE_BUDGET when the
budget is used up, and otherwise asks for one more draw. The count has R38's 32 bits; that it stays at 0xFFFF_FFFF there
is the model's reading (DEDUCED, log entry 16). -/
def Obligations.SampleTakesOneDraw : Prop :=
  ∀ (d : Reg) (s : State) (bs : List Byte), s.phase = .drbgGot bs → s.remaining ≠ 0 →
    let v := beValue bs >>> s.params.discard
    let ok := v < s.params.n ∧ s.candidate.testBit v = false
    let count := min (s.draws.toNat + 1) 0xFFFFFFFF
    let budget := s.limit ≠ 0 ∧ count = s.limit.toNat
    ∃ t, exec (.sample d) s = .next t ∧ s.SameCode t ∧ t.mulAcc = s.mulAcc ∧ s.SameUninit t ∧ t.draws.toNat = count ∧
      (ok → s.remaining = 1 → s.WrotePoly d (s.candidate ||| 1 <<< v) t ∧ t.sampleDraws = t.draws) ∧
      (¬(ok ∧ s.remaining = 1) → budget → s.EndedWith .sampleBudget t ∧ t.sampleDraws = t.draws) ∧
      (¬(ok ∧ s.remaining = 1) → ¬budget →
        s.Waits t ∧ t.fsm = s.fsm ∧ t.drbgRequest = some s.params.bytesNeeded ∧
          (ok → t.candidate = s.candidate ||| 1 <<< v ∧ t.remaining.toNat + 1 = s.remaining.toNat) ∧
          (¬ok → t.candidate = s.candidate ∧ t.remaining = s.remaining))

/-- R81 and R83 as a run: an accepted SAMPLE whose DRBG answers are `answers`, each of exactly BY bytes, ends as R81's
loop on those answers ends: P[pd] the vector, or SAMPLE_BUDGET with P[pd] kept, and SAMPLE_DRAWS the number of draws. -/
def Obligations.SampleRunsAsItsPseudocode : Prop :=
  ∀ (s : State) (d : Reg) (answers : List (List Byte)) (rest : List Input) (out : Option Nat) (draws : Nat),
    s.params.wf = true → s.rst = false → s.inputs = samplerSteps (s.portReq + 1) answers ++ rest → s.busy = true →
    decode s.params s.cur.word = .ok (.sample d) → s.phase = .start → s.cur.arg1.toNat ≤ s.params.n →
    (∀ B ∈ answers, B.length = s.params.bytesNeeded) →
    samplerLoop s.params s.limit.toNat answers 0 s.cur.arg1.toNat 0 = some (out, draws) →
    ∃ t, Host.Core.run core (2 * answers.length + 1) s = .next t ∧ t.inputs = rest ∧ t.Completed ∧
      t.sampleDraws.toNat = min draws 0xFFFFFFFF ∧ s.SamePolysBut d t ∧ s.SameBuf t ∧
      (∀ v, out = some v → t.poly d = v ∧ s.SameErrors t) ∧
      (out = none → t.poly d = s.poly d ∧ t.err = true ∧ t.errCode = .sampleBudget ∧ t.errOpc = 0x08#8)

/-- R86: a SAMPLE that completes without an error of its own leaves exactly W bits set, all below N, whatever error is
still recorded from before (R116). The one error it can end with is SAMPLE_BUDGET, at SAMPLE_LIMIT draws (R81, R110). -/
def Obligations.CompletedSampleHasItsWeight : Prop :=
  ∀ (s t : State) (d : Reg), s.Inv → s.busy = true → decode s.params s.cur.word = .ok (.sample d) →
    exec (.sample d) s = .next t → t.busy = false →
    (s.SameErrors t ∧ onesCount s.params.n (t.poly d) = s.cur.arg1.toNat ∧ t.poly d < 2 ^ s.params.n) ∨
      (s.EndedWith .sampleBudget t ∧ s.limit ≠ 0 ∧ t.sampleDraws = s.limit)

/-- R85, U9: with SAMPLE_LIMIT = 0 a SAMPLE of weight 2 or more need not end: for every k there are k draws of exactly BY
bytes after which it still runs. -/
def Obligations.UnboundedSampleNeedNotEnd : Prop :=
  ∀ (s : State) (d : Reg) (k : Nat), s.params.wf = true → s.rst = false → s.busy = true →
    decode s.params s.cur.word = .ok (.sample d) → s.phase = .start → s.limit = 0 → 2 ≤ s.cur.arg1.toNat →
    s.cur.arg1.toNat ≤ s.params.n →
    ∃ (answers : List (List Byte)) (t : State), answers.length = k ∧
      (∀ B ∈ answers, B.length = s.params.bytesNeeded) ∧
      Host.Core.run core (2 * k + 1) { s with inputs := samplerSteps (s.portReq + 1) answers } = .next t ∧ t.busy = true

/-! ### Reed-Muller code (42_reed_muller.md) -/

/-- R89, R90: column j of a byte's block is b[7] XOR parity((b AND 0x7F) AND j), packed most significant bit first; every
byte with bit 7 set gives the complement of the block of b AND 0x7F. -/
def Obligations.BlockIsThePackedCodeword : Prop :=
  ∀ b : Byte, (rmBlock b).length = 16 ∧ (∀ j, j < 128 → packedBit (rmBlock b) j = columnBit b j) ∧
    rmBlock (b ||| 0x80#8) = (rmBlock (b &&& 0x7F#8)).map fun x => ~~~x

/-- R92: the Hadamard product of the doubling has the entries (-1)^parity(k AND j). -/
def Obligations.HadamardProductHasItsEntries : Prop :=
  ∀ (m : Nat) (v : List Int), v.length = 2 ^ m → (hadamard m v).length = 2 ^ m ∧
    ∀ k, k < 2 ^ m → (hadamard m v).getD k 0 = ∑ j ∈ Finset.range (2 ^ m), hadamardEntry m k j * v.getD j 0

/-- R93: the decoded byte's low 7 bits are the least index of largest magnitude in T, and its bit 7 is 1 exactly if the
peak is positive; |T[k]| <= 64 * MULT throughout. -/
def Obligations.BlockDecodesToItsCorrelationPeak : Prop :=
  ∀ (mult : Nat) (x : List Byte), x.length = mult * 16 →
    let k := (rmDecodeBlock mult x).toNat % 128
    (∀ i, i < 128 → (correlation mult x i).natAbs ≤ (correlation mult x k).natAbs ∧
        (correlation mult x i).natAbs ≤ 64 * mult) ∧
      (∀ i, i < k → (correlation mult x i).natAbs < (correlation mult x k).natAbs) ∧
      ((rmDecodeBlock mult x).toNat / 128 = 1 ↔ 0 < correlation mult x k)

/-- R94: the decoder returns a byte whose repeated codeword is at minimum distance from the received block. -/
def Obligations.BlockDecodesToANearestCodeword : Prop :=
  ∀ (mult : Nat) (x : List Byte) (c : Byte), x.length = mult * 16 →
    bitsDiffering (128 * mult) x (rmCopies mult (rmDecodeBlock mult x)) ≤ bitsDiffering (128 * mult) x (rmCopies mult c)

/-- R94: the decoder returns the transmitted byte whenever at most 32*MULT - 1 bits were flipped. -/
def Obligations.BlockErrorsBelowTheRadiusAreCorrected : Prop :=
  ∀ (mult : Nat) (x : List Byte) (b : Byte), x.length = mult * 16 →
    bitsDiffering (128 * mult) x (rmCopies mult b) + 1 ≤ 32 * mult → rmDecodeBlock mult x = b

/-- R96: decoding an encoding gives the bytes back, for every MULT of R8. -/
def Obligations.ReedMullerRoundTrip : Prop :=
  ∀ (mult : Nat) (bs : List Byte), 1 ≤ mult → mult ≤ 255 → rmDecode mult bs.length (rmEncode mult bs) = bs

/-- R91: RMENC: RANGE if either range leaves BUF or the two intersect; otherwise copy r of the block of input byte t
stands at DST + t*MULT*16 + r*16, and no other byte of BUF changes. -/
def Obligations.RmencEncodes : Prop :=
  ∀ s : State,
    let src := s.cur.arg0.toNat
    let cnt := s.cur.arg1.toNat
    let dst := s.cur.arg2.toNat
    let olen := cnt * s.params.mult * 16
    let legal := src + cnt ≤ s.params.bufBytes ∧ dst + olen ≤ s.params.bufBytes ∧
      (0 < cnt → src + cnt ≤ dst ∨ dst + olen ≤ src)
    WordIs .rmenc 0x18000000 ∧
    (¬legal → ∃ t, exec .rmenc s = .next t ∧ s.EndedWith .range t ∧ s.SameSampler t ∧ s.SameCode t ∧
      t.mulAcc = s.mulAcc ∧ s.SameUninit t) ∧
    (legal → ∃ B : Nat → Byte, ReadsAs s src cnt B ∧
      ∃ t, exec .rmenc s = .next t ∧ s.WroteBuf dst olen t ∧ s.SameSampler t ∧ s.SameCode t ∧ t.mulAcc = s.mulAcc ∧
        ∀ k r j, k < cnt → r < s.params.mult → j < 128 →
          ∃ y : Byte, Memory.read t.buf (dst + k * s.params.mult * 16 + r * 16 + j / 8) = some y ∧
            y.getLsbD (7 - j % 8) = columnBit (B k) j)

/-- R95: RMDEC: RANGE as for RMENC; otherwise byte t at DST is the decoding of block t, and no other byte of BUF
changes. -/
def Obligations.RmdecDecodes : Prop :=
  ∀ s : State,
    let src := s.cur.arg0.toNat
    let cnt := s.cur.arg1.toNat
    let dst := s.cur.arg2.toNat
    let ilen := cnt * s.params.mult * 16
    let legal := src + ilen ≤ s.params.bufBytes ∧ dst + cnt ≤ s.params.bufBytes ∧
      (0 < cnt → src + ilen ≤ dst ∨ dst + cnt ≤ src)
    WordIs .rmdec 0x19000000 ∧
    (¬legal → ∃ t, exec .rmdec s = .next t ∧ s.EndedWith .range t ∧ s.SameSampler t ∧ s.SameCode t ∧
      t.mulAcc = s.mulAcc ∧ s.SameUninit t) ∧
    (legal → ∃ B : Nat → Byte, ReadsAs s src ilen B ∧
      ∃ t, exec .rmdec s = .next t ∧ s.WroteBuf dst cnt t ∧ s.SameSampler t ∧ t.staging = s.staging ∧
        t.mulAcc = s.mulAcc ∧
        HoldsBytes t dst cnt fun k =>
          rmDecodeBlock s.params.mult ((List.range (s.params.mult * 16)).map fun q => B (k * (s.params.mult * 16) + q)))

/-! ### Concatenated code (43_concatenated.md) -/

/-- R101: the first turn of CCENC, in an instance that has it: RANGE if the message range leaves BUF, before any
request; otherwise IC_ENC of the CC_K message bytes is asked for, in CC_INNER_ENC. -/
def Obligations.CcencAsksTheInnerEncoder : Prop :=
  ∀ (d : Reg) (s : State), s.params.ccAvail = true → s.phase = .start →
    WordIs (.ccenc d) (0x20000000 ||| d.val <<< 20) ∧
    (s.params.bufBytes < s.cur.arg0.toNat + s.params.ccK →
      ∃ t, exec (.ccenc d) s = .next t ∧ s.EndedWith .range t ∧ s.SameSampler t ∧ s.SameCode t ∧
        t.mulAcc = s.mulAcc ∧ s.SameUninit t) ∧
    (s.cur.arg0.toNat + s.params.ccK ≤ s.params.bufBytes →
      ∃ B : Nat → Byte, ReadsAs s s.cur.arg0.toNat s.params.ccK B ∧
      ∃ t, exec (.ccenc d) s = .next t ∧ s.Waits t ∧ t.fsm = .ccInnerEnc ∧
        t.codecRequest = some (.enc ((List.range s.params.ccK).map B)) ∧ s.SameSampler t ∧ t.soft = s.soft ∧
        t.corr = s.corr ∧ t.mulAcc = s.mulAcc)

/-- R99, R101, R103: CCENC on the inner encoder's answer: OK with CC_N1 bytes leads to CC_RM_ENC with that codeword;
every other answer ends the command with INNER_PROTOCOL. The model's choice (log entry 21): the codeword then stands in
the first CC_N1 bytes of the staging. -/
def Obligations.CcencChecksTheInnerAnswer : Prop :=
  ∀ (d : Reg) (s : State) (ans : CodecAnswer), s.phase = .codecGot ans →
    ((∃ I, ans = .ok I ∧ I.length = s.params.ccN1) →
      ∃ t, exec (.ccenc d) s = .next t ∧ s.Waits t ∧ t.fsm = .ccRmEnc ∧ t.codecRequest = none ∧
        ans = .ok (t.staging.take s.params.ccN1) ∧ s.SameSampler t ∧ t.soft = s.soft ∧ t.corr = s.corr ∧ t.mulAcc = s.mulAcc ∧
        s.SameUninit t) ∧
    ((¬∃ I, ans = .ok I ∧ I.length = s.params.ccN1) →
      ∃ t, exec (.ccenc d) s = .next t ∧ s.EndedWith .innerProtocol t ∧ s.SameSampler t ∧ s.SameCode t ∧
        t.mulAcc = s.mulAcc ∧ s.SameUninit t)

/-- R101, R47: CCENC's second phase completes it: P[pd] is the concatenated codeword read big-endian, below 2^(8*CC_L):
column j of copy r of the block of inner byte t is coefficient 8*CC_L - 1 - ((t*MULT + r)*128 + j). The model's choice
(log entry 21): inner byte t is byte t of the staging. -/
def Obligations.CcencPlacesTheCodeword : Prop :=
  ∀ (d : Reg) (s : State), s.phase = .rmEncode → s.params.ccN1 ≤ s.staging.length →
    ∃ t, exec (.ccenc d) s = .next t ∧ s.WrotePoly d (t.poly d) t ∧
      t.poly d < 2 ^ (8 * (s.params.ccN1 * s.params.mult * 16)) ∧
      (∀ k r j, k < s.params.ccN1 → r < s.params.mult → j < 128 →
        (t.poly d).testBit (8 * (s.params.ccN1 * s.params.mult * 16) - 1 - ((k * s.params.mult + r) * 128 + j)) =
          columnBit (s.staging.getD k 0) j) ∧
      s.SameSampler t ∧ s.SameCode t ∧ t.mulAcc = s.mulAcc ∧ s.SameUninit t

/-- R102: the first turn of CCDEC, in an instance that has it: RANGE if the destination range leaves BUF, before any
request; otherwise IC_DEC of the CC_N1 decoded bytes is asked for, in CC_INNER_DEC: byte t is the decoding of block t of
the big-endian bytes of P[pa] mod 2^(8*CC_L). P[pa] is not changed. -/
def Obligations.CcdecAsksTheInnerDecoder : Prop :=
  ∀ (a : Reg) (s : State), s.params.ccAvail = true → s.phase = .start →
    WordIs (.ccdec a) (0x21000000 ||| a.val <<< 16) ∧
    (s.params.bufBytes < s.cur.arg2.toNat + s.params.ccK →
      ∃ t, exec (.ccdec a) s = .next t ∧ s.EndedWith .range t ∧ s.SameSampler t ∧ s.SameCode t ∧
        t.mulAcc = s.mulAcc ∧ s.SameUninit t) ∧
    (s.cur.arg2.toNat + s.params.ccK ≤ s.params.bufBytes →
      ∃ t, exec (.ccdec a) s = .next t ∧ s.Waits t ∧ t.fsm = .ccInnerDec ∧ s.SameSampler t ∧ t.mulAcc = s.mulAcc ∧
        t.codecRequest = some (.dec ((List.range s.params.ccN1).map fun k =>
          rmDecodeBlock s.params.mult ((List.range (s.params.mult * 16)).map fun q =>
            BitVec.ofNat 8 (s.poly a % 2 ^ (8 * (s.params.ccN1 * s.params.mult * 16)) /
              256 ^ (s.params.ccN1 * s.params.mult * 16 - 1 - (k * (s.params.mult * 16) + q)))))))

/-- R99, R102: CCDEC on the inner decoder's answer: UNCORRECTABLE and a wrong length end it with their errors and BUF
unchanged; OK with CC_K bytes completes it with those bytes at DST. -/
def Obligations.CcdecStoresTheMessageOrReports : Prop :=
  ∀ (a : Reg) (s : State) (ans : CodecAnswer), s.phase = .codecGot ans →
    (ans = .uncorrectable → ∃ t, exec (.ccdec a) s = .next t ∧ s.EndedWith .uncorrectable t ∧ s.SameSampler t ∧
      s.SameCode t ∧ t.mulAcc = s.mulAcc ∧ s.SameUninit t) ∧
    ∀ D, ans = .ok D →
      (D.length ≠ s.params.ccK → ∃ t, exec (.ccdec a) s = .next t ∧ s.EndedWith .innerProtocol t ∧ s.SameSampler t ∧
        s.SameCode t ∧ t.mulAcc = s.mulAcc ∧ s.SameUninit t) ∧
      (D.length = s.params.ccK → ∃ t, exec (.ccdec a) s = .next t ∧ s.WroteBuf s.cur.arg2.toNat s.params.ccK t ∧
        HoldsBytes t s.cur.arg2.toNat s.params.ccK (fun k => D.getD k 0) ∧ s.SameSampler t ∧ t.soft = s.soft ∧
        t.corr = s.corr ∧ t.mulAcc = s.mulAcc ∧ s.SameUninit t)

/-- R104: if a register holding the concatenated codeword of I is changed by an error polynomial E, every inner byte
whose block of E has at most 32*MULT - 1 set bits still decodes to itself. -/
def Obligations.ConcatenatedCodeCorrectsBlockErrors : Prop :=
  ∀ (p : Params) (I : List Byte) (E k : Nat), I.length = p.ccN1 → k < p.ccN1 →
    onesCount (128 * p.mult) (E / 2 ^ (128 * p.mult * (p.ccN1 - 1 - k))) + 1 ≤ 32 * p.mult →
    (rmDecode p.mult p.ccN1 (codewordOf p (beValue (rmEncode p.mult I) ^^^ E))).getD k 0 = I.getD k 0

/-- The steps of CCENC p<d> and then CCDEC p<d> with the message stored at `dst`, where the inner codec answers OK(I)
to the one, which has the request number `r`, and OK(M) to the other, which has the next. -/
def roundTripSteps (p : Params) (r : Nat) (d : Reg) (dst : Word) (M I : List Byte) : List Input :=
  [.host (cmdWrite p (BitVec.ofNat 32 (0x20000000 ||| d.val <<< 20))), .engine, .codec r (.ok I), .engine, .engine,
    .host ⟨p.base + 0x30#32, .b32, .write dst⟩, .host (cmdWrite p (BitVec.ofNat 32 (0x21000000 ||| d.val <<< 16))),
    .engine, .codec (r + 1) (.ok M), .engine]

/-- R104's round trip as a run: the host issues CCENC of the message M in BUF and then CCDEC of the same register. The
inner encoder is asked for M and answers I; the inner decoder is asked for I and answers M; and M stands at DST, without
an error. -/
def Obligations.ConcatenatedRoundTrip : Prop :=
  ∀ (s : State) (d : Reg) (dst : Word) (M I : List Byte) (rest : List Input), s.params.wf = true → s.rst = false →
    s.params.ccAvail = true → s.busy = false → M.length = s.params.ccK → I.length = s.params.ccN1 →
    s.arg0.toNat + s.params.ccK ≤ s.params.bufBytes → dst.toNat + s.params.ccK ≤ s.params.bufBytes →
    HoldsBytes s s.arg0.toNat s.params.ccK (fun k => M.getD k 0) →
    s.inputs = roundTripSteps s.params (s.portReq + 1) d dst M I ++ rest →
    (∃ u : State, Host.Core.run core 2 s = .next u ∧ u.codecRequest = some (.enc M)) ∧
      (∃ u : State, Host.Core.run core 8 s = .next u ∧ u.codecRequest = some (.dec I)) ∧
      ∃ t : State, Host.Core.run core 10 s = .next t ∧ t.inputs = rest ∧ t.Completed ∧ s.SameErrors t ∧
        HoldsBytes t dst.toNat s.params.ccK fun k => M.getD k 0

/-- R83, R99, R130: while a port request is outstanding the engine has no step. R109: its other steps are weakly fair. In
every run, a command that waits for no port answer takes its next step in the end, unless it is aborted or rst is
asserted first; and a command without port exchanges completes. (How R109's fairness is built into the steps is log
entry 17.) -/
def Obligations.EngineWaitsForOutstandingRequests : Prop :=
  (∀ (s : State) (rest : List Input), s.Inv → s.Ready .engine rest →
    s.drbgRequest.isSome = true ∨ s.codecRequest.isSome = true → step s = .next { s with inputs := rest }) ∧
  (∀ s : State, s.params.wf = true → s.busy = true → s.rst = false → s.drbgRequest = none → s.codecRequest = none →
    ∃ (j : Nat) (u : State), Host.Core.run core j s = .next u ∧
      (u.busy = false ∨ u.rst = true ∨
        (u.nextInput = .engine ∧ u.rst = false ∧ u.drbgRequest = none ∧ u.codecRequest = none ∧ u.cur = s.cur))) ∧
  ∀ (s : State) (i : Instr), s.Inv → s.busy = true → s.rst = false → decode s.params s.cur.word = .ok i →
    (∀ d, i ≠ .sample d) → (∀ d, i ≠ .ccenc d) → (∀ a, i ≠ .ccdec a) →
    ∃ (j : Nat) (u : State), Host.Core.run core j s = .next u ∧ (u.busy = false ∨ u.rst = true)

/-- R126, R128, V7: an answer that arrives on a port while no request of that port is outstanding changes nothing; nor
does the late answer to a request abandoned before, even while a later request is outstanding: it has another number,
and no later request ever has its number. An answer to the outstanding request ends the request and changes nothing
else. (That requests are numbered is how the model tells their answers apart: DEDUCED, log entry 12.) -/
def Obligations.AnswersReachOnlyOutstandingRequests : Prop :=
  (∀ (s : State) (rest : List Input) (r : Nat) (bs : List Byte) (ans : CodecAnswer),
    (s.Ready (.drbg r bs) rest → s.drbgRequest = none ∨ r ≠ s.portReq → step s = .next { s with inputs := rest }) ∧
      (s.Ready (.codec r ans) rest → s.codecRequest = none ∨ r ≠ s.portReq →
        step s = .next { s with inputs := rest }) ∧
      (s.Ready (.drbg r bs) rest → s.drbgRequest = some bs.length → r = s.portReq →
        step s = .next { s with inputs := rest, phase := .drbgGot bs }) ∧
      (∀ q, s.Ready (.codec r ans) rest → s.codecRequest = some q → r = s.portReq →
        step s = .next { s with inputs := rest, phase := .codecGot ans })) ∧
    ∀ s t : State, step s = .next t → s.portReq ≤ t.portReq ∧
      (s.drbgRequest = none → s.codecRequest = none → t.drbgRequest ≠ none ∨ t.codecRequest ≠ none →
        t.portReq = s.portReq + 1)

/-! ### The host bus, STATUS and the interrupt (10_state.md, 20_memory.md, R113) -/

/-- R21 to R26: the hardwired CSRs read as the spec gives them, in every state. -/
def Obligations.HardwiredCsrsReadTheirValues : Prop :=
  ∀ (s : State) (rest : List Input) (o : Nat), s.Ready (.host ⟨s.params.base + BitVec.ofNat 32 o, .b32, .read⟩) rest →
    o ∈ [0x00, 0x04, 0x08, 0x0C, 0x10, 0x14] →
    ∃ (t : State) (v : Word), step s = .next t ∧ t.resp = some ⟨false, v⟩ ∧
      v.toNat =
        if o = 0x00 then 0x48514341 else if o = 0x04 then 0x100 else if o = 0x08 then s.params.n
        else if o = 0x0C then s.params.mult + 8 * 2 ^ 8 + 7 * 2 ^ 16
        else if o = 0x10 then s.params.ccK + 2 ^ 16 * s.params.ccN1 else s.params.bufBytes

/-- R28, R30: the bits of STATUS as the host reads it; STATE is 0 while no command runs, and otherwise the number of one
of the states the running command passes through. -/
def Obligations.StatusReadsItsFields : Prop :=
  ∀ (s : State) (rest : List Input), s.Ready (.host ⟨s.params.base + 0x1C#32, .b32, .read⟩) rest → s.Inv →
    ∃ (t : State) (v : Word), step s = .next t ∧ t.resp = some ⟨false, v⟩ ∧
      v.getLsbD 0 = s.busy ∧ v.getLsbD 1 = s.done ∧ v.getLsbD 2 = s.err ∧
      v.getLsbD 3 = ((s.done && s.ieDone) || (s.err && s.ieErr)) ∧ v.extractLsb' 4 4 = 0 ∧ v.extractLsb' 12 20 = 0 ∧
      (s.busy = false → v.extractLsb' 8 4 = 0) ∧
      (∀ i, s.busy = true → decode s.params s.cur.word = .ok i →
        (v.extractLsb' 8 4).toNat ∈
          match i with
          | .nop => [0]
          | .pzero _ => [1]
          | .pmov _ _ => [1]
          | .pxor _ _ _ => [1]
          | .pmul _ _ _ => [1]
          | .sample _ => [3]
          | .loadp _ => [2]
          | .storep _ => [2]
          | .rmenc => [4]
          | .rmdec => [5]
          | .ccenc _ => [6, 7]
          | .ccdec _ => [8, 9])

/-- R27, R29, R32, R33, R34, R35: what the host reads from CTRL, ERRCODE, CMD (which reads 0), ARG0 to ARG2, SAMPLE_LIMIT
and SAMPLE_DRAWS; ERRCODE.CODE is R110's number of the recorded error. -/
def Obligations.OtherCsrsReadTheirFields : Prop :=
  ∀ (s : State) (rest : List Input) (o : Nat), s.Ready (.host ⟨s.params.base + BitVec.ofNat 32 o, .b32, .read⟩) rest →
    o ∈ [0x18, 0x20, 0x24, 0x28, 0x2C, 0x30, 0x34, 0x38] →
    ∃ (t : State) (v : Word), step s = .next t ∧ t.resp = some ⟨false, v⟩ ∧
      (o = 0x18 → v.toNat = 2 * s.ieDone.toNat + 4 * s.ieErr.toNat) ∧
      (o = 0x20 → v.toNat = 256 * s.errOpc.toNat +
        match s.errCode with
        | .none => 0x00
        | .busy => 0x01
        | .illegalEncoding => 0x02
        | .illegalOperand => 0x03
        | .range => 0x04
        | .serialization => 0x05
        | .sampleBudget => 0x06
        | .innerProtocol => 0x07
        | .uncorrectable => 0x08) ∧
      (o = 0x24 → v = 0) ∧
      (o = 0x28 → v = s.arg0) ∧ (o = 0x2C → v = s.arg1) ∧ (o = 0x30 → v = s.arg2) ∧ (o = 0x34 → v = s.sampleLimit) ∧
      (o = 0x38 → v = s.sampleDraws)

/-- R53: reads have no side effects at any offset: a read changes nothing but what the host observes (and the model's
own counter of free values and list of coming steps). -/
def Obligations.ReadsHaveNoSideEffects : Prop :=
  ∀ (s : State) (rest : List Input) (a : Access), s.Ready (.host a) rest → a.kind = .read →
    ∃ t, step s = .next t ∧ { t with inputs := s.inputs, resp := s.resp, freeCtr := s.freeCtr } = s

/-- R43, R50, R51, R52: an access that is unmapped, of a wrong width or misaligned in the CSR window, or misaligned,
outside or made while BUSY in the BUF window gets SLVERR, read data 0, and has no effect; every other access gets
OKAY. The model's choices: the data 0 of the response to a refused write (log entry 9), and the offset of an address
below BASE, counted modulo 2^32 (log entry 13). -/
def Obligations.AccessesThatAreRefusedHaveNoEffect : Prop :=
  ∀ (s : State) (rest : List Input) (a : Access), s.Ready (.host a) rest →
    let off := (a.addr - s.params.base).toNat
    let width := match a.size with | .b8 => 1 | .b16 => 2 | .b32 => 4
    let bad := (off < 0x10000 ∧ (width ≠ 4 ∨ off % 4 ≠ 0 ∨ 0x38 < off)) ∨
      (0x10000 ≤ off ∧ (s.busy = true ∨ off % width ≠ 0 ∨ 0x10000 + s.params.bufBytes < off + width))
    (bad → step s = .next { s with inputs := rest, resp := some ⟨true, 0⟩ }) ∧
      (¬bad → ∃ (t : State) (v : Word), step s = .next t ∧ t.resp = some ⟨false, v⟩)

/-- R48, R51: an admitted write of the BUF window stores its lanes, the byte at o + t from bus data bits 8t+7 to 8t, and
changes nothing else. -/
def Obligations.BufferWritesStoreTheirLanes : Prop :=
  ∀ (s : State) (rest : List Input) (a : Access) (v : Word) (x : Nat), s.Ready (.host a) rest → a.kind = .write v →
    s.busy = false →
    let width := match a.size with | .b8 => 1 | .b16 => 2 | .b32 => 4
    (a.addr - s.params.base).toNat = 0x10000 + x → x % width = 0 → x + width ≤ s.params.bufBytes →
    ∃ t, step s = .next t ∧ (∀ k, k < width → Memory.read t.buf (x + k) = some (v.extractLsb' (8 * k) 8)) ∧
      s.SameBufOutside x width t ∧ { t with buf := s.buf, inputs := s.inputs, resp := s.resp } = s

/-- R48: an admitted read of the BUF window returns its bytes in little-endian lanes, the unused lanes 0. -/
def Obligations.BufferReadsReturnTheirLanes : Prop :=
  ∀ (s : State) (rest : List Input) (a : Access) (x : Nat), s.Ready (.host a) rest → a.kind = .read →
    s.busy = false →
    let width := match a.size with | .b8 => 1 | .b16 => 2 | .b32 => 4
    (a.addr - s.params.base).toNat = 0x10000 + x → x % width = 0 → x + width ≤ s.params.bufBytes →
    ∃ B : Nat → Byte, ReadsAs s x width B ∧
    ∃ (t : State) (v : Word), step s = .next t ∧ t.resp = some ⟨false, v⟩ ∧
      v.toNat = ∑ k ∈ Finset.range width, (B k).toNat * 256 ^ k

/-- R27, R28, R29, R33, R34: writes of CTRL without SRST, STATUS, ARG0 to ARG2 and SAMPLE_LIMIT change exactly their own
fields: DONE and ERR are cleared by a 1, and clearing ERR clears ERRCODE; a write of a read-only CSR is ignored (R53).
The data 0 of the write's OKAY response is the model's choice (log entry 9). -/
def Obligations.CsrWritesChangeTheirFieldsOnly : Prop :=
  ∀ (s : State) (rest : List Input) (o : Nat) (v : Word),
    s.Ready (.host ⟨s.params.base + BitVec.ofNat 32 o, .b32, .write v⟩) rest →
    let s1 : State := { s with inputs := rest, resp := some ⟨false, 0⟩ }
    (o = 0x18 → v.getLsbD 0 = false → step s = .next { s1 with ieDone := v.getLsbD 1, ieErr := v.getLsbD 2 }) ∧
      (o = 0x1C → step s = .next { s1 with
        done := s.done && !v.getLsbD 1, err := s.err && !v.getLsbD 2
        errCode := if v.getLsbD 2 then .none else s.errCode, errOpc := if v.getLsbD 2 then 0 else s.errOpc }) ∧
      (o = 0x28 → step s = .next { s1 with arg0 := v }) ∧ (o = 0x2C → step s = .next { s1 with arg1 := v }) ∧
      (o = 0x30 → step s = .next { s1 with arg2 := v }) ∧ (o = 0x34 → step s = .next { s1 with sampleLimit := v }) ∧
      (o ∈ [0x00, 0x04, 0x08, 0x0C, 0x10, 0x14, 0x20, 0x38] → step s = .next s1)

/-- R17: the host cannot write a polynomial register: with no command running, no host access changes one. -/
def Obligations.HostAccessesLeaveThePolynomials : Prop :=
  ∀ (s t : State) (rest : List Input) (a : Access), s.Ready (.host a) rest → s.busy = false → step s = .next t →
    t.polys = s.polys ∧ t.polyWritten = s.polyWritten

/-! ### Reset (70_reset_and_hazards.md) -/

/-- R127, R128: a write to CTRL with SRST = 1 takes every CSR to its reset value and leaves irq 0, no port request
outstanding and no command running; P0 to P7 and BUF keep their contents, except that the destination of a command that
was running holds some value (below 2^N for a register). -/
def Obligations.SoftResetResetsTheCsrs : Prop :=
  ∀ (s : State) (rest : List Input) (v : Word),
    s.Ready (.host ⟨s.params.base + 0x18#32, .b32, .write v⟩) rest → v.getLsbD 0 = true →
    ∃ t, step s = .next t ∧ t.ieDone = false ∧ t.ieErr = false ∧ t.busy = false ∧ t.done = false ∧ t.err = false ∧
      t.irq = false ∧ t.fsm = .idle ∧ t.errCode = .none ∧ t.errOpc = 0 ∧ t.arg0 = 0 ∧ t.arg1 = 0 ∧ t.arg2 = 0 ∧
      t.sampleLimit = 0 ∧ t.sampleDraws = 0 ∧ t.params = s.params ∧ t.drbgRequest = none ∧ t.codecRequest = none ∧
      (s.busy = false → s.SamePolys t ∧ s.SameBuf t) ∧
      ∀ i, s.busy = true → decode s.params s.cur.word = .ok i →
        (∀ j : Reg, destReg i ≠ some j → t.poly j = s.poly j ∧ t.polyWritten.get j = s.polyWritten.get j) ∧
        (∀ d : Reg, destReg i = some d → t.poly d < 2 ^ s.params.n) ∧ s.SameBufOutside s.destAddr (s.destLen i) t

/-- R39: the values the spec gives after power-on reset, in every instance: the CSRs 0, irq 0, STATE IDLE, no port
request outstanding, and no register and no byte of BUF written. (That P0 to P7 then hold 0 is the model's choice, log
entry 2, and not part of this statement.) -/
def Obligations.PowerOnLeavesTheResetValues : Prop :=
  ∀ (s : State) (rest : List Input), s.params.wf = true → s.rst = true → s.inputs = .rst false :: rest →
    ∃ t, step s = .next t ∧ t.params = s.params ∧ t.rst = false ∧ t.ctrlWord = 0 ∧ t.statusWord = 0 ∧
      t.errcodeWord = 0 ∧ t.arg0 = 0 ∧ t.arg1 = 0 ∧ t.arg2 = 0 ∧ t.sampleLimit = 0 ∧ t.sampleDraws = 0 ∧
      t.irq = false ∧ t.drbgRequest = none ∧ t.codecRequest = none ∧ (∀ j : Reg, t.polyWritten.get j = false) ∧
      ∀ x, Memory.read t.buf x = none

/-- R129, U16: while rst is asserted HQCCA takes no step and answers no host access: a step that does not release rst
changes nothing but what is to come, and a host access stays pending. The model's choice (log entry 11): a port answer
that comes meanwhile is lost, and irq and an outstanding request stay as they were. -/
def Obligations.ResetHoldsTheMachine : Prop :=
  ∀ s t : State, s.rst = true → step s = .next t → t.rst = true →
    { t with inputs := s.inputs, freeCtr := s.freeCtr, patience := s.patience } = s ∧
      t.inputs.filter Input.isHost = s.inputs.filter Input.isHost

/-! ### The whole machine -/

/-- R16, R28, R29, R30, R38, R42, R64, R81: the invariant holds after reset, in every instance of R8. The model's choices:
P0 to P7 and the hidden state hold 0 at power-on, where R39 leaves them unspecified (log entries 2 and 4), and a
correlation entry is held to 16 bits, signed, where R38 asks for at least 16 (log entry 5). -/
def Obligations.InvariantHoldsAfterReset : Prop :=
  State.reset.Inv ∧ ∀ p : Params, p.wf = true → (State.resetOf p).Inv

/-- R16, R28, R29, R30, R38, R42, R64, R81: from every state with the invariant the machine takes a step (it neither
faults nor is refused), and the invariant holds again: every register stays below 2^N, BUF keeps its form and its bounds,
ERR and ERRCODE agree, the hidden state keeps its widths (a correlation entry 16 bits, signed: log entry 5), and while no
command runs STATE is IDLE with no request outstanding. -/
def Obligations.EveryStepKeepsTheInvariant : Prop :=
  ∀ s : State, s.Inv → ∃ t, step s = .next t ∧ t.Inv

/-- R6, R8: no step changes the instance; and an instance is refused by name (U15) exactly where it is outside R8's
bounds, or where N does not fit PARAM_N's 32 bits (R23): that last bound is the model's reading (DEDUCED, log entry 15). -/
def Obligations.TheInstanceNeverChanges : Prop :=
  (∀ s t : State, step s = .next t → t.params = s.params) ∧
    ∀ s : State, step s = .refused .illFormedInstance ↔
      ¬(2 ≤ s.params.n ∧ s.params.n < 2 ^ 32 ∧ 1 ≤ s.params.mult ∧ s.params.mult ≤ 255 ∧
        1 ≤ s.params.ccK ∧ s.params.ccK ≤ 65535 ∧ 1 ≤ s.params.ccN1 ∧ s.params.ccN1 ≤ 65535 ∧
        s.params.n / 8 + 1 ≤ s.params.bufBytes ∧ s.params.ccK ≤ s.params.bufBytes ∧
        s.params.bufBytes % 4 = 0 ∧ s.params.bufBytes ≤ 0xFFFF0000)

/-- The model's choice (log entries 2 and 3): a command that reads a polynomial register or a BUF byte unwritten since
power-on records the fault of U1 or U2, and nothing else does; the command completes, or goes on, all the same. -/
def Obligations.UnwrittenSourcesAreRecorded : Prop :=
  ∀ (s : State) (d a b : Reg),
    (∃ t, exec (.pxor d a b) s = .next t ∧ NotesPolys s a b t ∧ t.Completed) ∧
      (∃ t, exec (.pmul d a b) s = .next t ∧ NotesPolys s a b t ∧ t.Completed) ∧
      (s.cur.arg2.toNat + (s.params.n / 8 + 1) ≤ s.params.bufBytes →
        ∃ t, exec (.storep a) s = .next t ∧ NotesPolys s a a t ∧ t.Completed) ∧
      (s.cur.arg0.toNat + (s.params.n / 8 + 1) ≤ s.params.bufBytes →
        ∃ t, exec (.loadp d) s = .next t ∧ NotesBuf s s.cur.arg0.toNat (s.params.n / 8 + 1) t ∧ t.Completed) ∧
      (s.rmRangesOk s.count s.codeLen = true →
        ∃ t, exec .rmenc s = .next t ∧ NotesBuf s s.cur.arg0.toNat s.cur.arg1.toNat t ∧ t.Completed) ∧
      (s.rmRangesOk s.codeLen s.count = true → ∃ t, exec .rmdec s = .next t ∧
        NotesBuf s s.cur.arg0.toNat (s.cur.arg1.toNat * s.params.mult * 16) t ∧ t.Completed) ∧
      (s.phase = .start → s.params.ccAvail = true →
        (s.cur.arg0.toNat + s.params.ccK ≤ s.params.bufBytes → ∃ t, exec (.ccenc d) s = .next t ∧
          NotesBuf s s.cur.arg0.toNat s.params.ccK t ∧ t.codecRequest ≠ none) ∧
        (s.cur.arg2.toNat + s.params.ccK ≤ s.params.bufBytes → ∃ t, exec (.ccdec a) s = .next t ∧
          NotesPolys s a a t ∧ t.codecRequest ≠ none))
end

