-- ==== Sys2Proof/Laws/State.lean ====
section
/-! SUPPORT. Each field of the state after each named update, and each register after a write: true by definition, so
that no later proof unfolds a record update. -/

namespace Sys2Proof.Machine

variable (s : State)

/-! ### setPoly -/

@[simp] theorem setPoly_params (i : Reg) (v : Nat) : (s.setPoly i v).params = s.params := rfl
@[simp] theorem setPoly_polys (i : Reg) (v : Nat) : (s.setPoly i v).polys = s.polys.set i.val v i.isLt := rfl
@[simp] theorem setPoly_polyWritten (i : Reg) (v : Nat) : (s.setPoly i v).polyWritten = s.polyWritten.set i.val true i.isLt := rfl
@[simp] theorem setPoly_buf (i : Reg) (v : Nat) : (s.setPoly i v).buf = s.buf := rfl
@[simp] theorem setPoly_ieDone (i : Reg) (v : Nat) : (s.setPoly i v).ieDone = s.ieDone := rfl
@[simp] theorem setPoly_ieErr (i : Reg) (v : Nat) : (s.setPoly i v).ieErr = s.ieErr := rfl
@[simp] theorem setPoly_busy (i : Reg) (v : Nat) : (s.setPoly i v).busy = s.busy := rfl
@[simp] theorem setPoly_done (i : Reg) (v : Nat) : (s.setPoly i v).done = s.done := rfl
@[simp] theorem setPoly_err (i : Reg) (v : Nat) : (s.setPoly i v).err = s.err := rfl
@[simp] theorem setPoly_fsm (i : Reg) (v : Nat) : (s.setPoly i v).fsm = s.fsm := rfl
@[simp] theorem setPoly_errCode (i : Reg) (v : Nat) : (s.setPoly i v).errCode = s.errCode := rfl
@[simp] theorem setPoly_errOpc (i : Reg) (v : Nat) : (s.setPoly i v).errOpc = s.errOpc := rfl
@[simp] theorem setPoly_arg0 (i : Reg) (v : Nat) : (s.setPoly i v).arg0 = s.arg0 := rfl
@[simp] theorem setPoly_arg1 (i : Reg) (v : Nat) : (s.setPoly i v).arg1 = s.arg1 := rfl
@[simp] theorem setPoly_arg2 (i : Reg) (v : Nat) : (s.setPoly i v).arg2 = s.arg2 := rfl
@[simp] theorem setPoly_sampleLimit (i : Reg) (v : Nat) : (s.setPoly i v).sampleLimit = s.sampleLimit := rfl
@[simp] theorem setPoly_sampleDraws (i : Reg) (v : Nat) : (s.setPoly i v).sampleDraws = s.sampleDraws := rfl
@[simp] theorem setPoly_cur (i : Reg) (v : Nat) : (s.setPoly i v).cur = s.cur := rfl
@[simp] theorem setPoly_limit (i : Reg) (v : Nat) : (s.setPoly i v).limit = s.limit := rfl
@[simp] theorem setPoly_phase (i : Reg) (v : Nat) : (s.setPoly i v).phase = s.phase := rfl
@[simp] theorem setPoly_mulAcc (i : Reg) (v : Nat) : (s.setPoly i v).mulAcc = s.mulAcc := rfl
@[simp] theorem setPoly_candidate (i : Reg) (v : Nat) : (s.setPoly i v).candidate = s.candidate := rfl
@[simp] theorem setPoly_remaining (i : Reg) (v : Nat) : (s.setPoly i v).remaining = s.remaining := rfl
@[simp] theorem setPoly_draws (i : Reg) (v : Nat) : (s.setPoly i v).draws = s.draws := rfl
@[simp] theorem setPoly_soft (i : Reg) (v : Nat) : (s.setPoly i v).soft = s.soft := rfl
@[simp] theorem setPoly_corr (i : Reg) (v : Nat) : (s.setPoly i v).corr = s.corr := rfl
@[simp] theorem setPoly_staging (i : Reg) (v : Nat) : (s.setPoly i v).staging = s.staging := rfl
@[simp] theorem setPoly_rst (i : Reg) (v : Nat) : (s.setPoly i v).rst = s.rst := rfl
@[simp] theorem setPoly_resp (i : Reg) (v : Nat) : (s.setPoly i v).resp = s.resp := rfl
@[simp] theorem setPoly_uninitPoly (i : Reg) (v : Nat) : (s.setPoly i v).uninitPoly = s.uninitPoly := rfl
@[simp] theorem setPoly_uninitBuf (i : Reg) (v : Nat) : (s.setPoly i v).uninitBuf = s.uninitBuf := rfl
@[simp] theorem setPoly_portReq (i : Reg) (v : Nat) : (s.setPoly i v).portReq = s.portReq := rfl
@[simp] theorem setPoly_freeCtr (i : Reg) (v : Nat) : (s.setPoly i v).freeCtr = s.freeCtr := rfl
@[simp] theorem setPoly_patience (i : Reg) (v : Nat) : (s.setPoly i v).patience = s.patience := rfl
@[simp] theorem setPoly_inputs (i : Reg) (v : Nat) : (s.setPoly i v).inputs = s.inputs := rfl

/-! ### notePoly -/

@[simp] theorem notePoly_params (i : Reg) : (s.notePoly i).params = s.params := rfl
@[simp] theorem notePoly_polys (i : Reg) : (s.notePoly i).polys = s.polys := rfl
@[simp] theorem notePoly_polyWritten (i : Reg) : (s.notePoly i).polyWritten = s.polyWritten := rfl
@[simp] theorem notePoly_buf (i : Reg) : (s.notePoly i).buf = s.buf := rfl
@[simp] theorem notePoly_ieDone (i : Reg) : (s.notePoly i).ieDone = s.ieDone := rfl
@[simp] theorem notePoly_ieErr (i : Reg) : (s.notePoly i).ieErr = s.ieErr := rfl
@[simp] theorem notePoly_busy (i : Reg) : (s.notePoly i).busy = s.busy := rfl
@[simp] theorem notePoly_done (i : Reg) : (s.notePoly i).done = s.done := rfl
@[simp] theorem notePoly_err (i : Reg) : (s.notePoly i).err = s.err := rfl
@[simp] theorem notePoly_fsm (i : Reg) : (s.notePoly i).fsm = s.fsm := rfl
@[simp] theorem notePoly_errCode (i : Reg) : (s.notePoly i).errCode = s.errCode := rfl
@[simp] theorem notePoly_errOpc (i : Reg) : (s.notePoly i).errOpc = s.errOpc := rfl
@[simp] theorem notePoly_arg0 (i : Reg) : (s.notePoly i).arg0 = s.arg0 := rfl
@[simp] theorem notePoly_arg1 (i : Reg) : (s.notePoly i).arg1 = s.arg1 := rfl
@[simp] theorem notePoly_arg2 (i : Reg) : (s.notePoly i).arg2 = s.arg2 := rfl
@[simp] theorem notePoly_sampleLimit (i : Reg) : (s.notePoly i).sampleLimit = s.sampleLimit := rfl
@[simp] theorem notePoly_sampleDraws (i : Reg) : (s.notePoly i).sampleDraws = s.sampleDraws := rfl
@[simp] theorem notePoly_cur (i : Reg) : (s.notePoly i).cur = s.cur := rfl
@[simp] theorem notePoly_limit (i : Reg) : (s.notePoly i).limit = s.limit := rfl
@[simp] theorem notePoly_phase (i : Reg) : (s.notePoly i).phase = s.phase := rfl
@[simp] theorem notePoly_mulAcc (i : Reg) : (s.notePoly i).mulAcc = s.mulAcc := rfl
@[simp] theorem notePoly_candidate (i : Reg) : (s.notePoly i).candidate = s.candidate := rfl
@[simp] theorem notePoly_remaining (i : Reg) : (s.notePoly i).remaining = s.remaining := rfl
@[simp] theorem notePoly_draws (i : Reg) : (s.notePoly i).draws = s.draws := rfl
@[simp] theorem notePoly_soft (i : Reg) : (s.notePoly i).soft = s.soft := rfl
@[simp] theorem notePoly_corr (i : Reg) : (s.notePoly i).corr = s.corr := rfl
@[simp] theorem notePoly_staging (i : Reg) : (s.notePoly i).staging = s.staging := rfl
@[simp] theorem notePoly_rst (i : Reg) : (s.notePoly i).rst = s.rst := rfl
@[simp] theorem notePoly_resp (i : Reg) : (s.notePoly i).resp = s.resp := rfl
@[simp] theorem notePoly_uninitPoly (i : Reg) : (s.notePoly i).uninitPoly = (s.uninitPoly || !s.polyWritten.get i) := rfl
@[simp] theorem notePoly_uninitBuf (i : Reg) : (s.notePoly i).uninitBuf = s.uninitBuf := rfl
@[simp] theorem notePoly_portReq (i : Reg) : (s.notePoly i).portReq = s.portReq := rfl
@[simp] theorem notePoly_freeCtr (i : Reg) : (s.notePoly i).freeCtr = s.freeCtr := rfl
@[simp] theorem notePoly_patience (i : Reg) : (s.notePoly i).patience = s.patience := rfl
@[simp] theorem notePoly_inputs (i : Reg) : (s.notePoly i).inputs = s.inputs := rfl

/-! ### noteLoad -/

@[simp] theorem noteLoad_params (a len : Nat) : (s.noteLoad a len).params = s.params := rfl
@[simp] theorem noteLoad_polys (a len : Nat) : (s.noteLoad a len).polys = s.polys := rfl
@[simp] theorem noteLoad_polyWritten (a len : Nat) : (s.noteLoad a len).polyWritten = s.polyWritten := rfl
@[simp] theorem noteLoad_buf (a len : Nat) : (s.noteLoad a len).buf = s.buf := rfl
@[simp] theorem noteLoad_ieDone (a len : Nat) : (s.noteLoad a len).ieDone = s.ieDone := rfl
@[simp] theorem noteLoad_ieErr (a len : Nat) : (s.noteLoad a len).ieErr = s.ieErr := rfl
@[simp] theorem noteLoad_busy (a len : Nat) : (s.noteLoad a len).busy = s.busy := rfl
@[simp] theorem noteLoad_done (a len : Nat) : (s.noteLoad a len).done = s.done := rfl
@[simp] theorem noteLoad_err (a len : Nat) : (s.noteLoad a len).err = s.err := rfl
@[simp] theorem noteLoad_fsm (a len : Nat) : (s.noteLoad a len).fsm = s.fsm := rfl
@[simp] theorem noteLoad_errCode (a len : Nat) : (s.noteLoad a len).errCode = s.errCode := rfl
@[simp] theorem noteLoad_errOpc (a len : Nat) : (s.noteLoad a len).errOpc = s.errOpc := rfl
@[simp] theorem noteLoad_arg0 (a len : Nat) : (s.noteLoad a len).arg0 = s.arg0 := rfl
@[simp] theorem noteLoad_arg1 (a len : Nat) : (s.noteLoad a len).arg1 = s.arg1 := rfl
@[simp] theorem noteLoad_arg2 (a len : Nat) : (s.noteLoad a len).arg2 = s.arg2 := rfl
@[simp] theorem noteLoad_sampleLimit (a len : Nat) : (s.noteLoad a len).sampleLimit = s.sampleLimit := rfl
@[simp] theorem noteLoad_sampleDraws (a len : Nat) : (s.noteLoad a len).sampleDraws = s.sampleDraws := rfl
@[simp] theorem noteLoad_cur (a len : Nat) : (s.noteLoad a len).cur = s.cur := rfl
@[simp] theorem noteLoad_limit (a len : Nat) : (s.noteLoad a len).limit = s.limit := rfl
@[simp] theorem noteLoad_phase (a len : Nat) : (s.noteLoad a len).phase = s.phase := rfl
@[simp] theorem noteLoad_mulAcc (a len : Nat) : (s.noteLoad a len).mulAcc = s.mulAcc := rfl
@[simp] theorem noteLoad_candidate (a len : Nat) : (s.noteLoad a len).candidate = s.candidate := rfl
@[simp] theorem noteLoad_remaining (a len : Nat) : (s.noteLoad a len).remaining = s.remaining := rfl
@[simp] theorem noteLoad_draws (a len : Nat) : (s.noteLoad a len).draws = s.draws := rfl
@[simp] theorem noteLoad_soft (a len : Nat) : (s.noteLoad a len).soft = s.soft := rfl
@[simp] theorem noteLoad_corr (a len : Nat) : (s.noteLoad a len).corr = s.corr := rfl
@[simp] theorem noteLoad_staging (a len : Nat) : (s.noteLoad a len).staging = s.staging := rfl
@[simp] theorem noteLoad_rst (a len : Nat) : (s.noteLoad a len).rst = s.rst := rfl
@[simp] theorem noteLoad_resp (a len : Nat) : (s.noteLoad a len).resp = s.resp := rfl
@[simp] theorem noteLoad_uninitPoly (a len : Nat) : (s.noteLoad a len).uninitPoly = s.uninitPoly := rfl
@[simp] theorem noteLoad_uninitBuf (a len : Nat) : (s.noteLoad a len).uninitBuf = (s.uninitBuf || !s.bufWritten a len) := rfl
@[simp] theorem noteLoad_portReq (a len : Nat) : (s.noteLoad a len).portReq = s.portReq := rfl
@[simp] theorem noteLoad_freeCtr (a len : Nat) : (s.noteLoad a len).freeCtr = s.freeCtr + len := rfl
@[simp] theorem noteLoad_patience (a len : Nat) : (s.noteLoad a len).patience = s.patience := rfl
@[simp] theorem noteLoad_inputs (a len : Nat) : (s.noteLoad a len).inputs = s.inputs := rfl

/-! ### storeBytes -/

@[simp] theorem storeBytes_params (a : Nat) (bs : List Byte) : (s.storeBytes a bs).params = s.params := rfl
@[simp] theorem storeBytes_polys (a : Nat) (bs : List Byte) : (s.storeBytes a bs).polys = s.polys := rfl
@[simp] theorem storeBytes_polyWritten (a : Nat) (bs : List Byte) : (s.storeBytes a bs).polyWritten = s.polyWritten := rfl
@[simp] theorem storeBytes_buf (a : Nat) (bs : List Byte) : (s.storeBytes a bs).buf = Memory.writeBytes s.buf a bs := rfl
@[simp] theorem storeBytes_ieDone (a : Nat) (bs : List Byte) : (s.storeBytes a bs).ieDone = s.ieDone := rfl
@[simp] theorem storeBytes_ieErr (a : Nat) (bs : List Byte) : (s.storeBytes a bs).ieErr = s.ieErr := rfl
@[simp] theorem storeBytes_busy (a : Nat) (bs : List Byte) : (s.storeBytes a bs).busy = s.busy := rfl
@[simp] theorem storeBytes_done (a : Nat) (bs : List Byte) : (s.storeBytes a bs).done = s.done := rfl
@[simp] theorem storeBytes_err (a : Nat) (bs : List Byte) : (s.storeBytes a bs).err = s.err := rfl
@[simp] theorem storeBytes_fsm (a : Nat) (bs : List Byte) : (s.storeBytes a bs).fsm = s.fsm := rfl
@[simp] theorem storeBytes_errCode (a : Nat) (bs : List Byte) : (s.storeBytes a bs).errCode = s.errCode := rfl
@[simp] theorem storeBytes_errOpc (a : Nat) (bs : List Byte) : (s.storeBytes a bs).errOpc = s.errOpc := rfl
@[simp] theorem storeBytes_arg0 (a : Nat) (bs : List Byte) : (s.storeBytes a bs).arg0 = s.arg0 := rfl
@[simp] theorem storeBytes_arg1 (a : Nat) (bs : List Byte) : (s.storeBytes a bs).arg1 = s.arg1 := rfl
@[simp] theorem storeBytes_arg2 (a : Nat) (bs : List Byte) : (s.storeBytes a bs).arg2 = s.arg2 := rfl
@[simp] theorem storeBytes_sampleLimit (a : Nat) (bs : List Byte) : (s.storeBytes a bs).sampleLimit = s.sampleLimit := rfl
@[simp] theorem storeBytes_sampleDraws (a : Nat) (bs : List Byte) : (s.storeBytes a bs).sampleDraws = s.sampleDraws := rfl
@[simp] theorem storeBytes_cur (a : Nat) (bs : List Byte) : (s.storeBytes a bs).cur = s.cur := rfl
@[simp] theorem storeBytes_limit (a : Nat) (bs : List Byte) : (s.storeBytes a bs).limit = s.limit := rfl
@[simp] theorem storeBytes_phase (a : Nat) (bs : List Byte) : (s.storeBytes a bs).phase = s.phase := rfl
@[simp] theorem storeBytes_mulAcc (a : Nat) (bs : List Byte) : (s.storeBytes a bs).mulAcc = s.mulAcc := rfl
@[simp] theorem storeBytes_candidate (a : Nat) (bs : List Byte) : (s.storeBytes a bs).candidate = s.candidate := rfl
@[simp] theorem storeBytes_remaining (a : Nat) (bs : List Byte) : (s.storeBytes a bs).remaining = s.remaining := rfl
@[simp] theorem storeBytes_draws (a : Nat) (bs : List Byte) : (s.storeBytes a bs).draws = s.draws := rfl
@[simp] theorem storeBytes_soft (a : Nat) (bs : List Byte) : (s.storeBytes a bs).soft = s.soft := rfl
@[simp] theorem storeBytes_corr (a : Nat) (bs : List Byte) : (s.storeBytes a bs).corr = s.corr := rfl
@[simp] theorem storeBytes_staging (a : Nat) (bs : List Byte) : (s.storeBytes a bs).staging = s.staging := rfl
@[simp] theorem storeBytes_rst (a : Nat) (bs : List Byte) : (s.storeBytes a bs).rst = s.rst := rfl
@[simp] theorem storeBytes_resp (a : Nat) (bs : List Byte) : (s.storeBytes a bs).resp = s.resp := rfl
@[simp] theorem storeBytes_uninitPoly (a : Nat) (bs : List Byte) : (s.storeBytes a bs).uninitPoly = s.uninitPoly := rfl
@[simp] theorem storeBytes_uninitBuf (a : Nat) (bs : List Byte) : (s.storeBytes a bs).uninitBuf = s.uninitBuf := rfl
@[simp] theorem storeBytes_portReq (a : Nat) (bs : List Byte) : (s.storeBytes a bs).portReq = s.portReq := rfl
@[simp] theorem storeBytes_freeCtr (a : Nat) (bs : List Byte) : (s.storeBytes a bs).freeCtr = s.freeCtr := rfl
@[simp] theorem storeBytes_patience (a : Nat) (bs : List Byte) : (s.storeBytes a bs).patience = s.patience := rfl
@[simp] theorem storeBytes_inputs (a : Nat) (bs : List Byte) : (s.storeBytes a bs).inputs = s.inputs := rfl

/-! ### recordError -/

@[simp] theorem recordError_params (e : ErrCode) (opc : Byte) : (s.recordError e opc).params = s.params := rfl
@[simp] theorem recordError_polys (e : ErrCode) (opc : Byte) : (s.recordError e opc).polys = s.polys := rfl
@[simp] theorem recordError_polyWritten (e : ErrCode) (opc : Byte) : (s.recordError e opc).polyWritten = s.polyWritten := rfl
@[simp] theorem recordError_buf (e : ErrCode) (opc : Byte) : (s.recordError e opc).buf = s.buf := rfl
@[simp] theorem recordError_ieDone (e : ErrCode) (opc : Byte) : (s.recordError e opc).ieDone = s.ieDone := rfl
@[simp] theorem recordError_ieErr (e : ErrCode) (opc : Byte) : (s.recordError e opc).ieErr = s.ieErr := rfl
@[simp] theorem recordError_busy (e : ErrCode) (opc : Byte) : (s.recordError e opc).busy = s.busy := rfl
@[simp] theorem recordError_done (e : ErrCode) (opc : Byte) : (s.recordError e opc).done = s.done := rfl
@[simp] theorem recordError_err (e : ErrCode) (opc : Byte) : (s.recordError e opc).err = true := rfl
@[simp] theorem recordError_fsm (e : ErrCode) (opc : Byte) : (s.recordError e opc).fsm = s.fsm := rfl
@[simp] theorem recordError_errCode (e : ErrCode) (opc : Byte) : (s.recordError e opc).errCode = e := rfl
@[simp] theorem recordError_errOpc (e : ErrCode) (opc : Byte) : (s.recordError e opc).errOpc = opc := rfl
@[simp] theorem recordError_arg0 (e : ErrCode) (opc : Byte) : (s.recordError e opc).arg0 = s.arg0 := rfl
@[simp] theorem recordError_arg1 (e : ErrCode) (opc : Byte) : (s.recordError e opc).arg1 = s.arg1 := rfl
@[simp] theorem recordError_arg2 (e : ErrCode) (opc : Byte) : (s.recordError e opc).arg2 = s.arg2 := rfl
@[simp] theorem recordError_sampleLimit (e : ErrCode) (opc : Byte) : (s.recordError e opc).sampleLimit = s.sampleLimit := rfl
@[simp] theorem recordError_sampleDraws (e : ErrCode) (opc : Byte) : (s.recordError e opc).sampleDraws = s.sampleDraws := rfl
@[simp] theorem recordError_cur (e : ErrCode) (opc : Byte) : (s.recordError e opc).cur = s.cur := rfl
@[simp] theorem recordError_limit (e : ErrCode) (opc : Byte) : (s.recordError e opc).limit = s.limit := rfl
@[simp] theorem recordError_phase (e : ErrCode) (opc : Byte) : (s.recordError e opc).phase = s.phase := rfl
@[simp] theorem recordError_mulAcc (e : ErrCode) (opc : Byte) : (s.recordError e opc).mulAcc = s.mulAcc := rfl
@[simp] theorem recordError_candidate (e : ErrCode) (opc : Byte) : (s.recordError e opc).candidate = s.candidate := rfl
@[simp] theorem recordError_remaining (e : ErrCode) (opc : Byte) : (s.recordError e opc).remaining = s.remaining := rfl
@[simp] theorem recordError_draws (e : ErrCode) (opc : Byte) : (s.recordError e opc).draws = s.draws := rfl
@[simp] theorem recordError_soft (e : ErrCode) (opc : Byte) : (s.recordError e opc).soft = s.soft := rfl
@[simp] theorem recordError_corr (e : ErrCode) (opc : Byte) : (s.recordError e opc).corr = s.corr := rfl
@[simp] theorem recordError_staging (e : ErrCode) (opc : Byte) : (s.recordError e opc).staging = s.staging := rfl
@[simp] theorem recordError_rst (e : ErrCode) (opc : Byte) : (s.recordError e opc).rst = s.rst := rfl
@[simp] theorem recordError_resp (e : ErrCode) (opc : Byte) : (s.recordError e opc).resp = s.resp := rfl
@[simp] theorem recordError_uninitPoly (e : ErrCode) (opc : Byte) : (s.recordError e opc).uninitPoly = s.uninitPoly := rfl
@[simp] theorem recordError_uninitBuf (e : ErrCode) (opc : Byte) : (s.recordError e opc).uninitBuf = s.uninitBuf := rfl
@[simp] theorem recordError_portReq (e : ErrCode) (opc : Byte) : (s.recordError e opc).portReq = s.portReq := rfl
@[simp] theorem recordError_freeCtr (e : ErrCode) (opc : Byte) : (s.recordError e opc).freeCtr = s.freeCtr := rfl
@[simp] theorem recordError_patience (e : ErrCode) (opc : Byte) : (s.recordError e opc).patience = s.patience := rfl
@[simp] theorem recordError_inputs (e : ErrCode) (opc : Byte) : (s.recordError e opc).inputs = s.inputs := rfl

/-! ### signalDone -/

@[simp] theorem signalDone_params : s.signalDone.params = s.params := rfl
@[simp] theorem signalDone_polys : s.signalDone.polys = s.polys := rfl
@[simp] theorem signalDone_polyWritten : s.signalDone.polyWritten = s.polyWritten := rfl
@[simp] theorem signalDone_buf : s.signalDone.buf = s.buf := rfl
@[simp] theorem signalDone_ieDone : s.signalDone.ieDone = s.ieDone := rfl
@[simp] theorem signalDone_ieErr : s.signalDone.ieErr = s.ieErr := rfl
@[simp] theorem signalDone_busy : s.signalDone.busy = s.busy := rfl
@[simp] theorem signalDone_done : s.signalDone.done = true := rfl
@[simp] theorem signalDone_err : s.signalDone.err = s.err := rfl
@[simp] theorem signalDone_fsm : s.signalDone.fsm = s.fsm := rfl
@[simp] theorem signalDone_errCode : s.signalDone.errCode = s.errCode := rfl
@[simp] theorem signalDone_errOpc : s.signalDone.errOpc = s.errOpc := rfl
@[simp] theorem signalDone_arg0 : s.signalDone.arg0 = s.arg0 := rfl
@[simp] theorem signalDone_arg1 : s.signalDone.arg1 = s.arg1 := rfl
@[simp] theorem signalDone_arg2 : s.signalDone.arg2 = s.arg2 := rfl
@[simp] theorem signalDone_sampleLimit : s.signalDone.sampleLimit = s.sampleLimit := rfl
@[simp] theorem signalDone_sampleDraws : s.signalDone.sampleDraws = s.sampleDraws := rfl
@[simp] theorem signalDone_cur : s.signalDone.cur = s.cur := rfl
@[simp] theorem signalDone_limit : s.signalDone.limit = s.limit := rfl
@[simp] theorem signalDone_phase : s.signalDone.phase = s.phase := rfl
@[simp] theorem signalDone_mulAcc : s.signalDone.mulAcc = s.mulAcc := rfl
@[simp] theorem signalDone_candidate : s.signalDone.candidate = s.candidate := rfl
@[simp] theorem signalDone_remaining : s.signalDone.remaining = s.remaining := rfl
@[simp] theorem signalDone_draws : s.signalDone.draws = s.draws := rfl
@[simp] theorem signalDone_soft : s.signalDone.soft = s.soft := rfl
@[simp] theorem signalDone_corr : s.signalDone.corr = s.corr := rfl
@[simp] theorem signalDone_staging : s.signalDone.staging = s.staging := rfl
@[simp] theorem signalDone_rst : s.signalDone.rst = s.rst := rfl
@[simp] theorem signalDone_resp : s.signalDone.resp = s.resp := rfl
@[simp] theorem signalDone_uninitPoly : s.signalDone.uninitPoly = s.uninitPoly := rfl
@[simp] theorem signalDone_uninitBuf : s.signalDone.uninitBuf = s.uninitBuf := rfl
@[simp] theorem signalDone_portReq : s.signalDone.portReq = s.portReq := rfl
@[simp] theorem signalDone_freeCtr : s.signalDone.freeCtr = s.freeCtr := rfl
@[simp] theorem signalDone_patience : s.signalDone.patience = s.patience := rfl
@[simp] theorem signalDone_inputs : s.signalDone.inputs = s.inputs := rfl

/-! ### complete -/

@[simp] theorem complete_params : s.complete.params = s.params := rfl
@[simp] theorem complete_polys : s.complete.polys = s.polys := rfl
@[simp] theorem complete_polyWritten : s.complete.polyWritten = s.polyWritten := rfl
@[simp] theorem complete_buf : s.complete.buf = s.buf := rfl
@[simp] theorem complete_ieDone : s.complete.ieDone = s.ieDone := rfl
@[simp] theorem complete_ieErr : s.complete.ieErr = s.ieErr := rfl
@[simp] theorem complete_busy : s.complete.busy = false := rfl
@[simp] theorem complete_done : s.complete.done = true := rfl
@[simp] theorem complete_err : s.complete.err = s.err := rfl
@[simp] theorem complete_fsm : s.complete.fsm = .idle := rfl
@[simp] theorem complete_errCode : s.complete.errCode = s.errCode := rfl
@[simp] theorem complete_errOpc : s.complete.errOpc = s.errOpc := rfl
@[simp] theorem complete_arg0 : s.complete.arg0 = s.arg0 := rfl
@[simp] theorem complete_arg1 : s.complete.arg1 = s.arg1 := rfl
@[simp] theorem complete_arg2 : s.complete.arg2 = s.arg2 := rfl
@[simp] theorem complete_sampleLimit : s.complete.sampleLimit = s.sampleLimit := rfl
@[simp] theorem complete_sampleDraws : s.complete.sampleDraws = s.sampleDraws := rfl
@[simp] theorem complete_cur : s.complete.cur = s.cur := rfl
@[simp] theorem complete_limit : s.complete.limit = s.limit := rfl
@[simp] theorem complete_phase : s.complete.phase = .start := rfl
@[simp] theorem complete_mulAcc : s.complete.mulAcc = s.mulAcc := rfl
@[simp] theorem complete_candidate : s.complete.candidate = s.candidate := rfl
@[simp] theorem complete_remaining : s.complete.remaining = s.remaining := rfl
@[simp] theorem complete_draws : s.complete.draws = s.draws := rfl
@[simp] theorem complete_soft : s.complete.soft = s.soft := rfl
@[simp] theorem complete_corr : s.complete.corr = s.corr := rfl
@[simp] theorem complete_staging : s.complete.staging = s.staging := rfl
@[simp] theorem complete_rst : s.complete.rst = s.rst := rfl
@[simp] theorem complete_resp : s.complete.resp = s.resp := rfl
@[simp] theorem complete_uninitPoly : s.complete.uninitPoly = s.uninitPoly := rfl
@[simp] theorem complete_uninitBuf : s.complete.uninitBuf = s.uninitBuf := rfl
@[simp] theorem complete_portReq : s.complete.portReq = s.portReq := rfl
@[simp] theorem complete_freeCtr : s.complete.freeCtr = s.freeCtr := rfl
@[simp] theorem complete_patience : s.complete.patience = s.patience := rfl
@[simp] theorem complete_inputs : s.complete.inputs = s.inputs := rfl

/-! ### fail -/

@[simp] theorem fail_params (e : ErrCode) : (s.fail e).params = s.params := rfl
@[simp] theorem fail_polys (e : ErrCode) : (s.fail e).polys = s.polys := rfl
@[simp] theorem fail_polyWritten (e : ErrCode) : (s.fail e).polyWritten = s.polyWritten := rfl
@[simp] theorem fail_buf (e : ErrCode) : (s.fail e).buf = s.buf := rfl
@[simp] theorem fail_ieDone (e : ErrCode) : (s.fail e).ieDone = s.ieDone := rfl
@[simp] theorem fail_ieErr (e : ErrCode) : (s.fail e).ieErr = s.ieErr := rfl
@[simp] theorem fail_busy (e : ErrCode) : (s.fail e).busy = false := rfl
@[simp] theorem fail_done (e : ErrCode) : (s.fail e).done = true := rfl
@[simp] theorem fail_err (e : ErrCode) : (s.fail e).err = true := rfl
@[simp] theorem fail_fsm (e : ErrCode) : (s.fail e).fsm = .idle := rfl
@[simp] theorem fail_errCode (e : ErrCode) : (s.fail e).errCode = e := rfl
@[simp] theorem fail_errOpc (e : ErrCode) : (s.fail e).errOpc = s.cur.opc := rfl
@[simp] theorem fail_arg0 (e : ErrCode) : (s.fail e).arg0 = s.arg0 := rfl
@[simp] theorem fail_arg1 (e : ErrCode) : (s.fail e).arg1 = s.arg1 := rfl
@[simp] theorem fail_arg2 (e : ErrCode) : (s.fail e).arg2 = s.arg2 := rfl
@[simp] theorem fail_sampleLimit (e : ErrCode) : (s.fail e).sampleLimit = s.sampleLimit := rfl
@[simp] theorem fail_sampleDraws (e : ErrCode) : (s.fail e).sampleDraws = s.sampleDraws := rfl
@[simp] theorem fail_cur (e : ErrCode) : (s.fail e).cur = s.cur := rfl
@[simp] theorem fail_limit (e : ErrCode) : (s.fail e).limit = s.limit := rfl
@[simp] theorem fail_phase (e : ErrCode) : (s.fail e).phase = .start := rfl
@[simp] theorem fail_mulAcc (e : ErrCode) : (s.fail e).mulAcc = s.mulAcc := rfl
@[simp] theorem fail_candidate (e : ErrCode) : (s.fail e).candidate = s.candidate := rfl
@[simp] theorem fail_remaining (e : ErrCode) : (s.fail e).remaining = s.remaining := rfl
@[simp] theorem fail_draws (e : ErrCode) : (s.fail e).draws = s.draws := rfl
@[simp] theorem fail_soft (e : ErrCode) : (s.fail e).soft = s.soft := rfl
@[simp] theorem fail_corr (e : ErrCode) : (s.fail e).corr = s.corr := rfl
@[simp] theorem fail_staging (e : ErrCode) : (s.fail e).staging = s.staging := rfl
@[simp] theorem fail_rst (e : ErrCode) : (s.fail e).rst = s.rst := rfl
@[simp] theorem fail_resp (e : ErrCode) : (s.fail e).resp = s.resp := rfl
@[simp] theorem fail_uninitPoly (e : ErrCode) : (s.fail e).uninitPoly = s.uninitPoly := rfl
@[simp] theorem fail_uninitBuf (e : ErrCode) : (s.fail e).uninitBuf = s.uninitBuf := rfl
@[simp] theorem fail_portReq (e : ErrCode) : (s.fail e).portReq = s.portReq := rfl
@[simp] theorem fail_freeCtr (e : ErrCode) : (s.fail e).freeCtr = s.freeCtr := rfl
@[simp] theorem fail_patience (e : ErrCode) : (s.fail e).patience = s.patience := rfl
@[simp] theorem fail_inputs (e : ErrCode) : (s.fail e).inputs = s.inputs := rfl

/-! ### clearError -/

@[simp] theorem clearError_params : s.clearError.params = s.params := rfl
@[simp] theorem clearError_polys : s.clearError.polys = s.polys := rfl
@[simp] theorem clearError_polyWritten : s.clearError.polyWritten = s.polyWritten := rfl
@[simp] theorem clearError_buf : s.clearError.buf = s.buf := rfl
@[simp] theorem clearError_ieDone : s.clearError.ieDone = s.ieDone := rfl
@[simp] theorem clearError_ieErr : s.clearError.ieErr = s.ieErr := rfl
@[simp] theorem clearError_busy : s.clearError.busy = s.busy := rfl
@[simp] theorem clearError_done : s.clearError.done = s.done := rfl
@[simp] theorem clearError_err : s.clearError.err = false := rfl
@[simp] theorem clearError_fsm : s.clearError.fsm = s.fsm := rfl
@[simp] theorem clearError_errCode : s.clearError.errCode = .none := rfl
@[simp] theorem clearError_errOpc : s.clearError.errOpc = 0 := rfl
@[simp] theorem clearError_arg0 : s.clearError.arg0 = s.arg0 := rfl
@[simp] theorem clearError_arg1 : s.clearError.arg1 = s.arg1 := rfl
@[simp] theorem clearError_arg2 : s.clearError.arg2 = s.arg2 := rfl
@[simp] theorem clearError_sampleLimit : s.clearError.sampleLimit = s.sampleLimit := rfl
@[simp] theorem clearError_sampleDraws : s.clearError.sampleDraws = s.sampleDraws := rfl
@[simp] theorem clearError_cur : s.clearError.cur = s.cur := rfl
@[simp] theorem clearError_limit : s.clearError.limit = s.limit := rfl
@[simp] theorem clearError_phase : s.clearError.phase = s.phase := rfl
@[simp] theorem clearError_mulAcc : s.clearError.mulAcc = s.mulAcc := rfl
@[simp] theorem clearError_candidate : s.clearError.candidate = s.candidate := rfl
@[simp] theorem clearError_remaining : s.clearError.remaining = s.remaining := rfl
@[simp] theorem clearError_draws : s.clearError.draws = s.draws := rfl
@[simp] theorem clearError_soft : s.clearError.soft = s.soft := rfl
@[simp] theorem clearError_corr : s.clearError.corr = s.corr := rfl
@[simp] theorem clearError_staging : s.clearError.staging = s.staging := rfl
@[simp] theorem clearError_rst : s.clearError.rst = s.rst := rfl
@[simp] theorem clearError_resp : s.clearError.resp = s.resp := rfl
@[simp] theorem clearError_uninitPoly : s.clearError.uninitPoly = s.uninitPoly := rfl
@[simp] theorem clearError_uninitBuf : s.clearError.uninitBuf = s.uninitBuf := rfl
@[simp] theorem clearError_portReq : s.clearError.portReq = s.portReq := rfl
@[simp] theorem clearError_freeCtr : s.clearError.freeCtr = s.freeCtr := rfl
@[simp] theorem clearError_patience : s.clearError.patience = s.patience := rfl
@[simp] theorem clearError_inputs : s.clearError.inputs = s.inputs := rfl

/-! ### useFree -/

@[simp] theorem useFree_params (k : Nat) : (s.useFree k).params = s.params := rfl
@[simp] theorem useFree_polys (k : Nat) : (s.useFree k).polys = s.polys := rfl
@[simp] theorem useFree_polyWritten (k : Nat) : (s.useFree k).polyWritten = s.polyWritten := rfl
@[simp] theorem useFree_buf (k : Nat) : (s.useFree k).buf = s.buf := rfl
@[simp] theorem useFree_ieDone (k : Nat) : (s.useFree k).ieDone = s.ieDone := rfl
@[simp] theorem useFree_ieErr (k : Nat) : (s.useFree k).ieErr = s.ieErr := rfl
@[simp] theorem useFree_busy (k : Nat) : (s.useFree k).busy = s.busy := rfl
@[simp] theorem useFree_done (k : Nat) : (s.useFree k).done = s.done := rfl
@[simp] theorem useFree_err (k : Nat) : (s.useFree k).err = s.err := rfl
@[simp] theorem useFree_fsm (k : Nat) : (s.useFree k).fsm = s.fsm := rfl
@[simp] theorem useFree_errCode (k : Nat) : (s.useFree k).errCode = s.errCode := rfl
@[simp] theorem useFree_errOpc (k : Nat) : (s.useFree k).errOpc = s.errOpc := rfl
@[simp] theorem useFree_arg0 (k : Nat) : (s.useFree k).arg0 = s.arg0 := rfl
@[simp] theorem useFree_arg1 (k : Nat) : (s.useFree k).arg1 = s.arg1 := rfl
@[simp] theorem useFree_arg2 (k : Nat) : (s.useFree k).arg2 = s.arg2 := rfl
@[simp] theorem useFree_sampleLimit (k : Nat) : (s.useFree k).sampleLimit = s.sampleLimit := rfl
@[simp] theorem useFree_sampleDraws (k : Nat) : (s.useFree k).sampleDraws = s.sampleDraws := rfl
@[simp] theorem useFree_cur (k : Nat) : (s.useFree k).cur = s.cur := rfl
@[simp] theorem useFree_limit (k : Nat) : (s.useFree k).limit = s.limit := rfl
@[simp] theorem useFree_phase (k : Nat) : (s.useFree k).phase = s.phase := rfl
@[simp] theorem useFree_mulAcc (k : Nat) : (s.useFree k).mulAcc = s.mulAcc := rfl
@[simp] theorem useFree_candidate (k : Nat) : (s.useFree k).candidate = s.candidate := rfl
@[simp] theorem useFree_remaining (k : Nat) : (s.useFree k).remaining = s.remaining := rfl
@[simp] theorem useFree_draws (k : Nat) : (s.useFree k).draws = s.draws := rfl
@[simp] theorem useFree_soft (k : Nat) : (s.useFree k).soft = s.soft := rfl
@[simp] theorem useFree_corr (k : Nat) : (s.useFree k).corr = s.corr := rfl
@[simp] theorem useFree_staging (k : Nat) : (s.useFree k).staging = s.staging := rfl
@[simp] theorem useFree_rst (k : Nat) : (s.useFree k).rst = s.rst := rfl
@[simp] theorem useFree_resp (k : Nat) : (s.useFree k).resp = s.resp := rfl
@[simp] theorem useFree_uninitPoly (k : Nat) : (s.useFree k).uninitPoly = s.uninitPoly := rfl
@[simp] theorem useFree_uninitBuf (k : Nat) : (s.useFree k).uninitBuf = s.uninitBuf := rfl
@[simp] theorem useFree_portReq (k : Nat) : (s.useFree k).portReq = s.portReq := rfl
@[simp] theorem useFree_freeCtr (k : Nat) : (s.useFree k).freeCtr = s.freeCtr + k := rfl
@[simp] theorem useFree_patience (k : Nat) : (s.useFree k).patience = s.patience := rfl
@[simp] theorem useFree_inputs (k : Nat) : (s.useFree k).inputs = s.inputs := rfl

/-! ### setMulAcc -/

@[simp] theorem setMulAcc_params (v : Nat) : (s.setMulAcc v).params = s.params := rfl
@[simp] theorem setMulAcc_polys (v : Nat) : (s.setMulAcc v).polys = s.polys := rfl
@[simp] theorem setMulAcc_polyWritten (v : Nat) : (s.setMulAcc v).polyWritten = s.polyWritten := rfl
@[simp] theorem setMulAcc_buf (v : Nat) : (s.setMulAcc v).buf = s.buf := rfl
@[simp] theorem setMulAcc_ieDone (v : Nat) : (s.setMulAcc v).ieDone = s.ieDone := rfl
@[simp] theorem setMulAcc_ieErr (v : Nat) : (s.setMulAcc v).ieErr = s.ieErr := rfl
@[simp] theorem setMulAcc_busy (v : Nat) : (s.setMulAcc v).busy = s.busy := rfl
@[simp] theorem setMulAcc_done (v : Nat) : (s.setMulAcc v).done = s.done := rfl
@[simp] theorem setMulAcc_err (v : Nat) : (s.setMulAcc v).err = s.err := rfl
@[simp] theorem setMulAcc_fsm (v : Nat) : (s.setMulAcc v).fsm = s.fsm := rfl
@[simp] theorem setMulAcc_errCode (v : Nat) : (s.setMulAcc v).errCode = s.errCode := rfl
@[simp] theorem setMulAcc_errOpc (v : Nat) : (s.setMulAcc v).errOpc = s.errOpc := rfl
@[simp] theorem setMulAcc_arg0 (v : Nat) : (s.setMulAcc v).arg0 = s.arg0 := rfl
@[simp] theorem setMulAcc_arg1 (v : Nat) : (s.setMulAcc v).arg1 = s.arg1 := rfl
@[simp] theorem setMulAcc_arg2 (v : Nat) : (s.setMulAcc v).arg2 = s.arg2 := rfl
@[simp] theorem setMulAcc_sampleLimit (v : Nat) : (s.setMulAcc v).sampleLimit = s.sampleLimit := rfl
@[simp] theorem setMulAcc_sampleDraws (v : Nat) : (s.setMulAcc v).sampleDraws = s.sampleDraws := rfl
@[simp] theorem setMulAcc_cur (v : Nat) : (s.setMulAcc v).cur = s.cur := rfl
@[simp] theorem setMulAcc_limit (v : Nat) : (s.setMulAcc v).limit = s.limit := rfl
@[simp] theorem setMulAcc_phase (v : Nat) : (s.setMulAcc v).phase = s.phase := rfl
@[simp] theorem setMulAcc_mulAcc (v : Nat) : (s.setMulAcc v).mulAcc = v := rfl
@[simp] theorem setMulAcc_candidate (v : Nat) : (s.setMulAcc v).candidate = s.candidate := rfl
@[simp] theorem setMulAcc_remaining (v : Nat) : (s.setMulAcc v).remaining = s.remaining := rfl
@[simp] theorem setMulAcc_draws (v : Nat) : (s.setMulAcc v).draws = s.draws := rfl
@[simp] theorem setMulAcc_soft (v : Nat) : (s.setMulAcc v).soft = s.soft := rfl
@[simp] theorem setMulAcc_corr (v : Nat) : (s.setMulAcc v).corr = s.corr := rfl
@[simp] theorem setMulAcc_staging (v : Nat) : (s.setMulAcc v).staging = s.staging := rfl
@[simp] theorem setMulAcc_rst (v : Nat) : (s.setMulAcc v).rst = s.rst := rfl
@[simp] theorem setMulAcc_resp (v : Nat) : (s.setMulAcc v).resp = s.resp := rfl
@[simp] theorem setMulAcc_uninitPoly (v : Nat) : (s.setMulAcc v).uninitPoly = s.uninitPoly := rfl
@[simp] theorem setMulAcc_uninitBuf (v : Nat) : (s.setMulAcc v).uninitBuf = s.uninitBuf := rfl
@[simp] theorem setMulAcc_portReq (v : Nat) : (s.setMulAcc v).portReq = s.portReq := rfl
@[simp] theorem setMulAcc_freeCtr (v : Nat) : (s.setMulAcc v).freeCtr = s.freeCtr := rfl
@[simp] theorem setMulAcc_patience (v : Nat) : (s.setMulAcc v).patience = s.patience := rfl
@[simp] theorem setMulAcc_inputs (v : Nat) : (s.setMulAcc v).inputs = s.inputs := rfl

/-! ### recordDraws -/

@[simp] theorem recordDraws_params : s.recordDraws.params = s.params := rfl
@[simp] theorem recordDraws_polys : s.recordDraws.polys = s.polys := rfl
@[simp] theorem recordDraws_polyWritten : s.recordDraws.polyWritten = s.polyWritten := rfl
@[simp] theorem recordDraws_buf : s.recordDraws.buf = s.buf := rfl
@[simp] theorem recordDraws_ieDone : s.recordDraws.ieDone = s.ieDone := rfl
@[simp] theorem recordDraws_ieErr : s.recordDraws.ieErr = s.ieErr := rfl
@[simp] theorem recordDraws_busy : s.recordDraws.busy = s.busy := rfl
@[simp] theorem recordDraws_done : s.recordDraws.done = s.done := rfl
@[simp] theorem recordDraws_err : s.recordDraws.err = s.err := rfl
@[simp] theorem recordDraws_fsm : s.recordDraws.fsm = s.fsm := rfl
@[simp] theorem recordDraws_errCode : s.recordDraws.errCode = s.errCode := rfl
@[simp] theorem recordDraws_errOpc : s.recordDraws.errOpc = s.errOpc := rfl
@[simp] theorem recordDraws_arg0 : s.recordDraws.arg0 = s.arg0 := rfl
@[simp] theorem recordDraws_arg1 : s.recordDraws.arg1 = s.arg1 := rfl
@[simp] theorem recordDraws_arg2 : s.recordDraws.arg2 = s.arg2 := rfl
@[simp] theorem recordDraws_sampleLimit : s.recordDraws.sampleLimit = s.sampleLimit := rfl
@[simp] theorem recordDraws_sampleDraws : s.recordDraws.sampleDraws = s.draws := rfl
@[simp] theorem recordDraws_cur : s.recordDraws.cur = s.cur := rfl
@[simp] theorem recordDraws_limit : s.recordDraws.limit = s.limit := rfl
@[simp] theorem recordDraws_phase : s.recordDraws.phase = s.phase := rfl
@[simp] theorem recordDraws_mulAcc : s.recordDraws.mulAcc = s.mulAcc := rfl
@[simp] theorem recordDraws_candidate : s.recordDraws.candidate = s.candidate := rfl
@[simp] theorem recordDraws_remaining : s.recordDraws.remaining = s.remaining := rfl
@[simp] theorem recordDraws_draws : s.recordDraws.draws = s.draws := rfl
@[simp] theorem recordDraws_soft : s.recordDraws.soft = s.soft := rfl
@[simp] theorem recordDraws_corr : s.recordDraws.corr = s.corr := rfl
@[simp] theorem recordDraws_staging : s.recordDraws.staging = s.staging := rfl
@[simp] theorem recordDraws_rst : s.recordDraws.rst = s.rst := rfl
@[simp] theorem recordDraws_resp : s.recordDraws.resp = s.resp := rfl
@[simp] theorem recordDraws_uninitPoly : s.recordDraws.uninitPoly = s.uninitPoly := rfl
@[simp] theorem recordDraws_uninitBuf : s.recordDraws.uninitBuf = s.uninitBuf := rfl
@[simp] theorem recordDraws_portReq : s.recordDraws.portReq = s.portReq := rfl
@[simp] theorem recordDraws_freeCtr : s.recordDraws.freeCtr = s.freeCtr := rfl
@[simp] theorem recordDraws_patience : s.recordDraws.patience = s.patience := rfl
@[simp] theorem recordDraws_inputs : s.recordDraws.inputs = s.inputs := rfl

/-! ### startSample -/

@[simp] theorem startSample_params : s.startSample.params = s.params := rfl
@[simp] theorem startSample_polys : s.startSample.polys = s.polys := rfl
@[simp] theorem startSample_polyWritten : s.startSample.polyWritten = s.polyWritten := rfl
@[simp] theorem startSample_buf : s.startSample.buf = s.buf := rfl
@[simp] theorem startSample_ieDone : s.startSample.ieDone = s.ieDone := rfl
@[simp] theorem startSample_ieErr : s.startSample.ieErr = s.ieErr := rfl
@[simp] theorem startSample_busy : s.startSample.busy = s.busy := rfl
@[simp] theorem startSample_done : s.startSample.done = s.done := rfl
@[simp] theorem startSample_err : s.startSample.err = s.err := rfl
@[simp] theorem startSample_fsm : s.startSample.fsm = s.fsm := rfl
@[simp] theorem startSample_errCode : s.startSample.errCode = s.errCode := rfl
@[simp] theorem startSample_errOpc : s.startSample.errOpc = s.errOpc := rfl
@[simp] theorem startSample_arg0 : s.startSample.arg0 = s.arg0 := rfl
@[simp] theorem startSample_arg1 : s.startSample.arg1 = s.arg1 := rfl
@[simp] theorem startSample_arg2 : s.startSample.arg2 = s.arg2 := rfl
@[simp] theorem startSample_sampleLimit : s.startSample.sampleLimit = s.sampleLimit := rfl
@[simp] theorem startSample_sampleDraws : s.startSample.sampleDraws = s.sampleDraws := rfl
@[simp] theorem startSample_cur : s.startSample.cur = s.cur := rfl
@[simp] theorem startSample_limit : s.startSample.limit = s.limit := rfl
@[simp] theorem startSample_phase : s.startSample.phase = s.phase := rfl
@[simp] theorem startSample_mulAcc : s.startSample.mulAcc = s.mulAcc := rfl
@[simp] theorem startSample_candidate : s.startSample.candidate = 0 := rfl
@[simp] theorem startSample_remaining : s.startSample.remaining = s.cur.arg1 := rfl
@[simp] theorem startSample_draws : s.startSample.draws = 0 := rfl
@[simp] theorem startSample_soft : s.startSample.soft = s.soft := rfl
@[simp] theorem startSample_corr : s.startSample.corr = s.corr := rfl
@[simp] theorem startSample_staging : s.startSample.staging = s.staging := rfl
@[simp] theorem startSample_rst : s.startSample.rst = s.rst := rfl
@[simp] theorem startSample_resp : s.startSample.resp = s.resp := rfl
@[simp] theorem startSample_uninitPoly : s.startSample.uninitPoly = s.uninitPoly := rfl
@[simp] theorem startSample_uninitBuf : s.startSample.uninitBuf = s.uninitBuf := rfl
@[simp] theorem startSample_portReq : s.startSample.portReq = s.portReq := rfl
@[simp] theorem startSample_freeCtr : s.startSample.freeCtr = s.freeCtr := rfl
@[simp] theorem startSample_patience : s.startSample.patience = s.patience := rfl
@[simp] theorem startSample_inputs : s.startSample.inputs = s.inputs := rfl

/-! ### askCodec -/

@[simp] theorem askCodec_params (f : Fsm) (bs : List Byte) (r : CodecRequest) : (s.askCodec f bs r).params = s.params := rfl
@[simp] theorem askCodec_polys (f : Fsm) (bs : List Byte) (r : CodecRequest) : (s.askCodec f bs r).polys = s.polys := rfl
@[simp] theorem askCodec_polyWritten (f : Fsm) (bs : List Byte) (r : CodecRequest) : (s.askCodec f bs r).polyWritten = s.polyWritten := rfl
@[simp] theorem askCodec_buf (f : Fsm) (bs : List Byte) (r : CodecRequest) : (s.askCodec f bs r).buf = s.buf := rfl
@[simp] theorem askCodec_ieDone (f : Fsm) (bs : List Byte) (r : CodecRequest) : (s.askCodec f bs r).ieDone = s.ieDone := rfl
@[simp] theorem askCodec_ieErr (f : Fsm) (bs : List Byte) (r : CodecRequest) : (s.askCodec f bs r).ieErr = s.ieErr := rfl
@[simp] theorem askCodec_busy (f : Fsm) (bs : List Byte) (r : CodecRequest) : (s.askCodec f bs r).busy = s.busy := rfl
@[simp] theorem askCodec_done (f : Fsm) (bs : List Byte) (r : CodecRequest) : (s.askCodec f bs r).done = s.done := rfl
@[simp] theorem askCodec_err (f : Fsm) (bs : List Byte) (r : CodecRequest) : (s.askCodec f bs r).err = s.err := rfl
@[simp] theorem askCodec_fsm (f : Fsm) (bs : List Byte) (r : CodecRequest) : (s.askCodec f bs r).fsm = f := rfl
@[simp] theorem askCodec_errCode (f : Fsm) (bs : List Byte) (r : CodecRequest) : (s.askCodec f bs r).errCode = s.errCode := rfl
@[simp] theorem askCodec_errOpc (f : Fsm) (bs : List Byte) (r : CodecRequest) : (s.askCodec f bs r).errOpc = s.errOpc := rfl
@[simp] theorem askCodec_arg0 (f : Fsm) (bs : List Byte) (r : CodecRequest) : (s.askCodec f bs r).arg0 = s.arg0 := rfl
@[simp] theorem askCodec_arg1 (f : Fsm) (bs : List Byte) (r : CodecRequest) : (s.askCodec f bs r).arg1 = s.arg1 := rfl
@[simp] theorem askCodec_arg2 (f : Fsm) (bs : List Byte) (r : CodecRequest) : (s.askCodec f bs r).arg2 = s.arg2 := rfl
@[simp] theorem askCodec_sampleLimit (f : Fsm) (bs : List Byte) (r : CodecRequest) : (s.askCodec f bs r).sampleLimit = s.sampleLimit := rfl
@[simp] theorem askCodec_sampleDraws (f : Fsm) (bs : List Byte) (r : CodecRequest) : (s.askCodec f bs r).sampleDraws = s.sampleDraws := rfl
@[simp] theorem askCodec_cur (f : Fsm) (bs : List Byte) (r : CodecRequest) : (s.askCodec f bs r).cur = s.cur := rfl
@[simp] theorem askCodec_limit (f : Fsm) (bs : List Byte) (r : CodecRequest) : (s.askCodec f bs r).limit = s.limit := rfl
@[simp] theorem askCodec_phase (f : Fsm) (bs : List Byte) (r : CodecRequest) : (s.askCodec f bs r).phase = .codecWait r := rfl
@[simp] theorem askCodec_mulAcc (f : Fsm) (bs : List Byte) (r : CodecRequest) : (s.askCodec f bs r).mulAcc = s.mulAcc := rfl
@[simp] theorem askCodec_candidate (f : Fsm) (bs : List Byte) (r : CodecRequest) : (s.askCodec f bs r).candidate = s.candidate := rfl
@[simp] theorem askCodec_remaining (f : Fsm) (bs : List Byte) (r : CodecRequest) : (s.askCodec f bs r).remaining = s.remaining := rfl
@[simp] theorem askCodec_draws (f : Fsm) (bs : List Byte) (r : CodecRequest) : (s.askCodec f bs r).draws = s.draws := rfl
@[simp] theorem askCodec_soft (f : Fsm) (bs : List Byte) (r : CodecRequest) : (s.askCodec f bs r).soft = s.soft := rfl
@[simp] theorem askCodec_corr (f : Fsm) (bs : List Byte) (r : CodecRequest) : (s.askCodec f bs r).corr = s.corr := rfl
@[simp] theorem askCodec_staging (f : Fsm) (bs : List Byte) (r : CodecRequest) : (s.askCodec f bs r).staging = bs ++ s.staging.drop bs.length := rfl
@[simp] theorem askCodec_rst (f : Fsm) (bs : List Byte) (r : CodecRequest) : (s.askCodec f bs r).rst = s.rst := rfl
@[simp] theorem askCodec_resp (f : Fsm) (bs : List Byte) (r : CodecRequest) : (s.askCodec f bs r).resp = s.resp := rfl
@[simp] theorem askCodec_uninitPoly (f : Fsm) (bs : List Byte) (r : CodecRequest) : (s.askCodec f bs r).uninitPoly = s.uninitPoly := rfl
@[simp] theorem askCodec_uninitBuf (f : Fsm) (bs : List Byte) (r : CodecRequest) : (s.askCodec f bs r).uninitBuf = s.uninitBuf := rfl
@[simp] theorem askCodec_portReq (f : Fsm) (bs : List Byte) (r : CodecRequest) : (s.askCodec f bs r).portReq = s.portReq + 1 := rfl
@[simp] theorem askCodec_freeCtr (f : Fsm) (bs : List Byte) (r : CodecRequest) : (s.askCodec f bs r).freeCtr = s.freeCtr := rfl
@[simp] theorem askCodec_patience (f : Fsm) (bs : List Byte) (r : CodecRequest) : (s.askCodec f bs r).patience = s.patience := rfl
@[simp] theorem askCodec_inputs (f : Fsm) (bs : List Byte) (r : CodecRequest) : (s.askCodec f bs r).inputs = s.inputs := rfl

/-! ### enterRmEncode -/

@[simp] theorem enterRmEncode_params (bs : List Byte) : (s.enterRmEncode bs).params = s.params := rfl
@[simp] theorem enterRmEncode_polys (bs : List Byte) : (s.enterRmEncode bs).polys = s.polys := rfl
@[simp] theorem enterRmEncode_polyWritten (bs : List Byte) : (s.enterRmEncode bs).polyWritten = s.polyWritten := rfl
@[simp] theorem enterRmEncode_buf (bs : List Byte) : (s.enterRmEncode bs).buf = s.buf := rfl
@[simp] theorem enterRmEncode_ieDone (bs : List Byte) : (s.enterRmEncode bs).ieDone = s.ieDone := rfl
@[simp] theorem enterRmEncode_ieErr (bs : List Byte) : (s.enterRmEncode bs).ieErr = s.ieErr := rfl
@[simp] theorem enterRmEncode_busy (bs : List Byte) : (s.enterRmEncode bs).busy = s.busy := rfl
@[simp] theorem enterRmEncode_done (bs : List Byte) : (s.enterRmEncode bs).done = s.done := rfl
@[simp] theorem enterRmEncode_err (bs : List Byte) : (s.enterRmEncode bs).err = s.err := rfl
@[simp] theorem enterRmEncode_fsm (bs : List Byte) : (s.enterRmEncode bs).fsm = .ccRmEnc := rfl
@[simp] theorem enterRmEncode_errCode (bs : List Byte) : (s.enterRmEncode bs).errCode = s.errCode := rfl
@[simp] theorem enterRmEncode_errOpc (bs : List Byte) : (s.enterRmEncode bs).errOpc = s.errOpc := rfl
@[simp] theorem enterRmEncode_arg0 (bs : List Byte) : (s.enterRmEncode bs).arg0 = s.arg0 := rfl
@[simp] theorem enterRmEncode_arg1 (bs : List Byte) : (s.enterRmEncode bs).arg1 = s.arg1 := rfl
@[simp] theorem enterRmEncode_arg2 (bs : List Byte) : (s.enterRmEncode bs).arg2 = s.arg2 := rfl
@[simp] theorem enterRmEncode_sampleLimit (bs : List Byte) : (s.enterRmEncode bs).sampleLimit = s.sampleLimit := rfl
@[simp] theorem enterRmEncode_sampleDraws (bs : List Byte) : (s.enterRmEncode bs).sampleDraws = s.sampleDraws := rfl
@[simp] theorem enterRmEncode_cur (bs : List Byte) : (s.enterRmEncode bs).cur = s.cur := rfl
@[simp] theorem enterRmEncode_limit (bs : List Byte) : (s.enterRmEncode bs).limit = s.limit := rfl
@[simp] theorem enterRmEncode_phase (bs : List Byte) : (s.enterRmEncode bs).phase = .rmEncode := rfl
@[simp] theorem enterRmEncode_mulAcc (bs : List Byte) : (s.enterRmEncode bs).mulAcc = s.mulAcc := rfl
@[simp] theorem enterRmEncode_candidate (bs : List Byte) : (s.enterRmEncode bs).candidate = s.candidate := rfl
@[simp] theorem enterRmEncode_remaining (bs : List Byte) : (s.enterRmEncode bs).remaining = s.remaining := rfl
@[simp] theorem enterRmEncode_draws (bs : List Byte) : (s.enterRmEncode bs).draws = s.draws := rfl
@[simp] theorem enterRmEncode_soft (bs : List Byte) : (s.enterRmEncode bs).soft = s.soft := rfl
@[simp] theorem enterRmEncode_corr (bs : List Byte) : (s.enterRmEncode bs).corr = s.corr := rfl
@[simp] theorem enterRmEncode_staging (bs : List Byte) : (s.enterRmEncode bs).staging = bs ++ s.staging.drop bs.length := rfl
@[simp] theorem enterRmEncode_rst (bs : List Byte) : (s.enterRmEncode bs).rst = s.rst := rfl
@[simp] theorem enterRmEncode_resp (bs : List Byte) : (s.enterRmEncode bs).resp = s.resp := rfl
@[simp] theorem enterRmEncode_uninitPoly (bs : List Byte) : (s.enterRmEncode bs).uninitPoly = s.uninitPoly := rfl
@[simp] theorem enterRmEncode_uninitBuf (bs : List Byte) : (s.enterRmEncode bs).uninitBuf = s.uninitBuf := rfl
@[simp] theorem enterRmEncode_portReq (bs : List Byte) : (s.enterRmEncode bs).portReq = s.portReq := rfl
@[simp] theorem enterRmEncode_freeCtr (bs : List Byte) : (s.enterRmEncode bs).freeCtr = s.freeCtr := rfl
@[simp] theorem enterRmEncode_patience (bs : List Byte) : (s.enterRmEncode bs).patience = s.patience := rfl
@[simp] theorem enterRmEncode_inputs (bs : List Byte) : (s.enterRmEncode bs).inputs = s.inputs := rfl

/-! ### stage -/

@[simp] theorem stage_params (bs : List Byte) : (s.stage bs).params = s.params := rfl
@[simp] theorem stage_polys (bs : List Byte) : (s.stage bs).polys = s.polys := rfl
@[simp] theorem stage_polyWritten (bs : List Byte) : (s.stage bs).polyWritten = s.polyWritten := rfl
@[simp] theorem stage_buf (bs : List Byte) : (s.stage bs).buf = s.buf := rfl
@[simp] theorem stage_ieDone (bs : List Byte) : (s.stage bs).ieDone = s.ieDone := rfl
@[simp] theorem stage_ieErr (bs : List Byte) : (s.stage bs).ieErr = s.ieErr := rfl
@[simp] theorem stage_busy (bs : List Byte) : (s.stage bs).busy = s.busy := rfl
@[simp] theorem stage_done (bs : List Byte) : (s.stage bs).done = s.done := rfl
@[simp] theorem stage_err (bs : List Byte) : (s.stage bs).err = s.err := rfl
@[simp] theorem stage_fsm (bs : List Byte) : (s.stage bs).fsm = s.fsm := rfl
@[simp] theorem stage_errCode (bs : List Byte) : (s.stage bs).errCode = s.errCode := rfl
@[simp] theorem stage_errOpc (bs : List Byte) : (s.stage bs).errOpc = s.errOpc := rfl
@[simp] theorem stage_arg0 (bs : List Byte) : (s.stage bs).arg0 = s.arg0 := rfl
@[simp] theorem stage_arg1 (bs : List Byte) : (s.stage bs).arg1 = s.arg1 := rfl
@[simp] theorem stage_arg2 (bs : List Byte) : (s.stage bs).arg2 = s.arg2 := rfl
@[simp] theorem stage_sampleLimit (bs : List Byte) : (s.stage bs).sampleLimit = s.sampleLimit := rfl
@[simp] theorem stage_sampleDraws (bs : List Byte) : (s.stage bs).sampleDraws = s.sampleDraws := rfl
@[simp] theorem stage_cur (bs : List Byte) : (s.stage bs).cur = s.cur := rfl
@[simp] theorem stage_limit (bs : List Byte) : (s.stage bs).limit = s.limit := rfl
@[simp] theorem stage_phase (bs : List Byte) : (s.stage bs).phase = s.phase := rfl
@[simp] theorem stage_mulAcc (bs : List Byte) : (s.stage bs).mulAcc = s.mulAcc := rfl
@[simp] theorem stage_candidate (bs : List Byte) : (s.stage bs).candidate = s.candidate := rfl
@[simp] theorem stage_remaining (bs : List Byte) : (s.stage bs).remaining = s.remaining := rfl
@[simp] theorem stage_draws (bs : List Byte) : (s.stage bs).draws = s.draws := rfl
@[simp] theorem stage_soft (bs : List Byte) : (s.stage bs).soft = s.soft := rfl
@[simp] theorem stage_corr (bs : List Byte) : (s.stage bs).corr = s.corr := rfl
@[simp] theorem stage_staging (bs : List Byte) : (s.stage bs).staging = bs ++ s.staging.drop bs.length := rfl
@[simp] theorem stage_rst (bs : List Byte) : (s.stage bs).rst = s.rst := rfl
@[simp] theorem stage_resp (bs : List Byte) : (s.stage bs).resp = s.resp := rfl
@[simp] theorem stage_uninitPoly (bs : List Byte) : (s.stage bs).uninitPoly = s.uninitPoly := rfl
@[simp] theorem stage_uninitBuf (bs : List Byte) : (s.stage bs).uninitBuf = s.uninitBuf := rfl
@[simp] theorem stage_portReq (bs : List Byte) : (s.stage bs).portReq = s.portReq := rfl
@[simp] theorem stage_freeCtr (bs : List Byte) : (s.stage bs).freeCtr = s.freeCtr := rfl
@[simp] theorem stage_patience (bs : List Byte) : (s.stage bs).patience = s.patience := rfl
@[simp] theorem stage_inputs (bs : List Byte) : (s.stage bs).inputs = s.inputs := rfl

/-! ### latch -/

@[simp] theorem latch_params (w : Word) : (s.latch w).params = s.params := rfl
@[simp] theorem latch_polys (w : Word) : (s.latch w).polys = s.polys := rfl
@[simp] theorem latch_polyWritten (w : Word) : (s.latch w).polyWritten = s.polyWritten := rfl
@[simp] theorem latch_buf (w : Word) : (s.latch w).buf = s.buf := rfl
@[simp] theorem latch_ieDone (w : Word) : (s.latch w).ieDone = s.ieDone := rfl
@[simp] theorem latch_ieErr (w : Word) : (s.latch w).ieErr = s.ieErr := rfl
@[simp] theorem latch_busy (w : Word) : (s.latch w).busy = s.busy := rfl
@[simp] theorem latch_done (w : Word) : (s.latch w).done = s.done := rfl
@[simp] theorem latch_err (w : Word) : (s.latch w).err = s.err := rfl
@[simp] theorem latch_fsm (w : Word) : (s.latch w).fsm = s.fsm := rfl
@[simp] theorem latch_errCode (w : Word) : (s.latch w).errCode = s.errCode := rfl
@[simp] theorem latch_errOpc (w : Word) : (s.latch w).errOpc = s.errOpc := rfl
@[simp] theorem latch_arg0 (w : Word) : (s.latch w).arg0 = s.arg0 := rfl
@[simp] theorem latch_arg1 (w : Word) : (s.latch w).arg1 = s.arg1 := rfl
@[simp] theorem latch_arg2 (w : Word) : (s.latch w).arg2 = s.arg2 := rfl
@[simp] theorem latch_sampleLimit (w : Word) : (s.latch w).sampleLimit = s.sampleLimit := rfl
@[simp] theorem latch_sampleDraws (w : Word) : (s.latch w).sampleDraws = s.sampleDraws := rfl
@[simp] theorem latch_cur (w : Word) : (s.latch w).cur = ⟨w, s.arg0, s.arg1, s.arg2⟩ := rfl
@[simp] theorem latch_limit (w : Word) : (s.latch w).limit = s.limit := rfl
@[simp] theorem latch_phase (w : Word) : (s.latch w).phase = s.phase := rfl
@[simp] theorem latch_mulAcc (w : Word) : (s.latch w).mulAcc = s.mulAcc := rfl
@[simp] theorem latch_candidate (w : Word) : (s.latch w).candidate = s.candidate := rfl
@[simp] theorem latch_remaining (w : Word) : (s.latch w).remaining = s.remaining := rfl
@[simp] theorem latch_draws (w : Word) : (s.latch w).draws = s.draws := rfl
@[simp] theorem latch_soft (w : Word) : (s.latch w).soft = s.soft := rfl
@[simp] theorem latch_corr (w : Word) : (s.latch w).corr = s.corr := rfl
@[simp] theorem latch_staging (w : Word) : (s.latch w).staging = s.staging := rfl
@[simp] theorem latch_rst (w : Word) : (s.latch w).rst = s.rst := rfl
@[simp] theorem latch_resp (w : Word) : (s.latch w).resp = s.resp := rfl
@[simp] theorem latch_uninitPoly (w : Word) : (s.latch w).uninitPoly = s.uninitPoly := rfl
@[simp] theorem latch_uninitBuf (w : Word) : (s.latch w).uninitBuf = s.uninitBuf := rfl
@[simp] theorem latch_portReq (w : Word) : (s.latch w).portReq = s.portReq := rfl
@[simp] theorem latch_freeCtr (w : Word) : (s.latch w).freeCtr = s.freeCtr := rfl
@[simp] theorem latch_patience (w : Word) : (s.latch w).patience = s.patience := rfl
@[simp] theorem latch_inputs (w : Word) : (s.latch w).inputs = s.inputs := rfl

/-! ### accept -/

@[simp] theorem accept_params (i : Instr) : (s.accept i).params = s.params := rfl
@[simp] theorem accept_polys (i : Instr) : (s.accept i).polys = s.polys := rfl
@[simp] theorem accept_polyWritten (i : Instr) : (s.accept i).polyWritten = s.polyWritten := rfl
@[simp] theorem accept_buf (i : Instr) : (s.accept i).buf = s.buf := rfl
@[simp] theorem accept_ieDone (i : Instr) : (s.accept i).ieDone = s.ieDone := rfl
@[simp] theorem accept_ieErr (i : Instr) : (s.accept i).ieErr = s.ieErr := rfl
@[simp] theorem accept_busy (i : Instr) : (s.accept i).busy = true := rfl
@[simp] theorem accept_done (i : Instr) : (s.accept i).done = s.done := rfl
@[simp] theorem accept_err (i : Instr) : (s.accept i).err = s.err := rfl
@[simp] theorem accept_fsm (i : Instr) : (s.accept i).fsm = firstState i := rfl
@[simp] theorem accept_errCode (i : Instr) : (s.accept i).errCode = s.errCode := rfl
@[simp] theorem accept_errOpc (i : Instr) : (s.accept i).errOpc = s.errOpc := rfl
@[simp] theorem accept_arg0 (i : Instr) : (s.accept i).arg0 = s.arg0 := rfl
@[simp] theorem accept_arg1 (i : Instr) : (s.accept i).arg1 = s.arg1 := rfl
@[simp] theorem accept_arg2 (i : Instr) : (s.accept i).arg2 = s.arg2 := rfl
@[simp] theorem accept_sampleLimit (i : Instr) : (s.accept i).sampleLimit = s.sampleLimit := rfl
@[simp] theorem accept_sampleDraws (i : Instr) : (s.accept i).sampleDraws = s.sampleDraws := rfl
@[simp] theorem accept_cur (i : Instr) : (s.accept i).cur = s.cur := rfl
@[simp] theorem accept_limit (i : Instr) : (s.accept i).limit = s.sampleLimit := rfl
@[simp] theorem accept_phase (i : Instr) : (s.accept i).phase = .start := rfl
@[simp] theorem accept_mulAcc (i : Instr) : (s.accept i).mulAcc = s.mulAcc := rfl
@[simp] theorem accept_candidate (i : Instr) : (s.accept i).candidate = s.candidate := rfl
@[simp] theorem accept_remaining (i : Instr) : (s.accept i).remaining = s.remaining := rfl
@[simp] theorem accept_draws (i : Instr) : (s.accept i).draws = s.draws := rfl
@[simp] theorem accept_soft (i : Instr) : (s.accept i).soft = s.soft := rfl
@[simp] theorem accept_corr (i : Instr) : (s.accept i).corr = s.corr := rfl
@[simp] theorem accept_staging (i : Instr) : (s.accept i).staging = s.staging := rfl
@[simp] theorem accept_rst (i : Instr) : (s.accept i).rst = s.rst := rfl
@[simp] theorem accept_resp (i : Instr) : (s.accept i).resp = s.resp := rfl
@[simp] theorem accept_uninitPoly (i : Instr) : (s.accept i).uninitPoly = s.uninitPoly := rfl
@[simp] theorem accept_uninitBuf (i : Instr) : (s.accept i).uninitBuf = s.uninitBuf := rfl
@[simp] theorem accept_portReq (i : Instr) : (s.accept i).portReq = s.portReq := rfl
@[simp] theorem accept_freeCtr (i : Instr) : (s.accept i).freeCtr = s.freeCtr := rfl
@[simp] theorem accept_patience (i : Instr) : (s.accept i).patience = s.patience := rfl
@[simp] theorem accept_inputs (i : Instr) : (s.accept i).inputs = s.inputs := rfl

/-! ### reject -/

@[simp] theorem reject_params (e : ErrCode) (w : Word) : (s.reject e w).params = s.params := rfl
@[simp] theorem reject_polys (e : ErrCode) (w : Word) : (s.reject e w).polys = s.polys := rfl
@[simp] theorem reject_polyWritten (e : ErrCode) (w : Word) : (s.reject e w).polyWritten = s.polyWritten := rfl
@[simp] theorem reject_buf (e : ErrCode) (w : Word) : (s.reject e w).buf = s.buf := rfl
@[simp] theorem reject_ieDone (e : ErrCode) (w : Word) : (s.reject e w).ieDone = s.ieDone := rfl
@[simp] theorem reject_ieErr (e : ErrCode) (w : Word) : (s.reject e w).ieErr = s.ieErr := rfl
@[simp] theorem reject_busy (e : ErrCode) (w : Word) : (s.reject e w).busy = s.busy := rfl
@[simp] theorem reject_done (e : ErrCode) (w : Word) : (s.reject e w).done = true := rfl
@[simp] theorem reject_err (e : ErrCode) (w : Word) : (s.reject e w).err = true := rfl
@[simp] theorem reject_fsm (e : ErrCode) (w : Word) : (s.reject e w).fsm = s.fsm := rfl
@[simp] theorem reject_errCode (e : ErrCode) (w : Word) : (s.reject e w).errCode = e := rfl
@[simp] theorem reject_errOpc (e : ErrCode) (w : Word) : (s.reject e w).errOpc = opcField w := rfl
@[simp] theorem reject_arg0 (e : ErrCode) (w : Word) : (s.reject e w).arg0 = s.arg0 := rfl
@[simp] theorem reject_arg1 (e : ErrCode) (w : Word) : (s.reject e w).arg1 = s.arg1 := rfl
@[simp] theorem reject_arg2 (e : ErrCode) (w : Word) : (s.reject e w).arg2 = s.arg2 := rfl
@[simp] theorem reject_sampleLimit (e : ErrCode) (w : Word) : (s.reject e w).sampleLimit = s.sampleLimit := rfl
@[simp] theorem reject_sampleDraws (e : ErrCode) (w : Word) : (s.reject e w).sampleDraws = s.sampleDraws := rfl
@[simp] theorem reject_cur (e : ErrCode) (w : Word) : (s.reject e w).cur = s.cur := rfl
@[simp] theorem reject_limit (e : ErrCode) (w : Word) : (s.reject e w).limit = s.limit := rfl
@[simp] theorem reject_phase (e : ErrCode) (w : Word) : (s.reject e w).phase = s.phase := rfl
@[simp] theorem reject_mulAcc (e : ErrCode) (w : Word) : (s.reject e w).mulAcc = s.mulAcc := rfl
@[simp] theorem reject_candidate (e : ErrCode) (w : Word) : (s.reject e w).candidate = s.candidate := rfl
@[simp] theorem reject_remaining (e : ErrCode) (w : Word) : (s.reject e w).remaining = s.remaining := rfl
@[simp] theorem reject_draws (e : ErrCode) (w : Word) : (s.reject e w).draws = s.draws := rfl
@[simp] theorem reject_soft (e : ErrCode) (w : Word) : (s.reject e w).soft = s.soft := rfl
@[simp] theorem reject_corr (e : ErrCode) (w : Word) : (s.reject e w).corr = s.corr := rfl
@[simp] theorem reject_staging (e : ErrCode) (w : Word) : (s.reject e w).staging = s.staging := rfl
@[simp] theorem reject_rst (e : ErrCode) (w : Word) : (s.reject e w).rst = s.rst := rfl
@[simp] theorem reject_resp (e : ErrCode) (w : Word) : (s.reject e w).resp = s.resp := rfl
@[simp] theorem reject_uninitPoly (e : ErrCode) (w : Word) : (s.reject e w).uninitPoly = s.uninitPoly := rfl
@[simp] theorem reject_uninitBuf (e : ErrCode) (w : Word) : (s.reject e w).uninitBuf = s.uninitBuf := rfl
@[simp] theorem reject_portReq (e : ErrCode) (w : Word) : (s.reject e w).portReq = s.portReq := rfl
@[simp] theorem reject_freeCtr (e : ErrCode) (w : Word) : (s.reject e w).freeCtr = s.freeCtr := rfl
@[simp] theorem reject_patience (e : ErrCode) (w : Word) : (s.reject e w).patience = s.patience := rfl
@[simp] theorem reject_inputs (e : ErrCode) (w : Word) : (s.reject e w).inputs = s.inputs := rfl

/-! ### okay -/

@[simp] theorem okay_params (v : Word) : (s.okay v).params = s.params := rfl
@[simp] theorem okay_polys (v : Word) : (s.okay v).polys = s.polys := rfl
@[simp] theorem okay_polyWritten (v : Word) : (s.okay v).polyWritten = s.polyWritten := rfl
@[simp] theorem okay_buf (v : Word) : (s.okay v).buf = s.buf := rfl
@[simp] theorem okay_ieDone (v : Word) : (s.okay v).ieDone = s.ieDone := rfl
@[simp] theorem okay_ieErr (v : Word) : (s.okay v).ieErr = s.ieErr := rfl
@[simp] theorem okay_busy (v : Word) : (s.okay v).busy = s.busy := rfl
@[simp] theorem okay_done (v : Word) : (s.okay v).done = s.done := rfl
@[simp] theorem okay_err (v : Word) : (s.okay v).err = s.err := rfl
@[simp] theorem okay_fsm (v : Word) : (s.okay v).fsm = s.fsm := rfl
@[simp] theorem okay_errCode (v : Word) : (s.okay v).errCode = s.errCode := rfl
@[simp] theorem okay_errOpc (v : Word) : (s.okay v).errOpc = s.errOpc := rfl
@[simp] theorem okay_arg0 (v : Word) : (s.okay v).arg0 = s.arg0 := rfl
@[simp] theorem okay_arg1 (v : Word) : (s.okay v).arg1 = s.arg1 := rfl
@[simp] theorem okay_arg2 (v : Word) : (s.okay v).arg2 = s.arg2 := rfl
@[simp] theorem okay_sampleLimit (v : Word) : (s.okay v).sampleLimit = s.sampleLimit := rfl
@[simp] theorem okay_sampleDraws (v : Word) : (s.okay v).sampleDraws = s.sampleDraws := rfl
@[simp] theorem okay_cur (v : Word) : (s.okay v).cur = s.cur := rfl
@[simp] theorem okay_limit (v : Word) : (s.okay v).limit = s.limit := rfl
@[simp] theorem okay_phase (v : Word) : (s.okay v).phase = s.phase := rfl
@[simp] theorem okay_mulAcc (v : Word) : (s.okay v).mulAcc = s.mulAcc := rfl
@[simp] theorem okay_candidate (v : Word) : (s.okay v).candidate = s.candidate := rfl
@[simp] theorem okay_remaining (v : Word) : (s.okay v).remaining = s.remaining := rfl
@[simp] theorem okay_draws (v : Word) : (s.okay v).draws = s.draws := rfl
@[simp] theorem okay_soft (v : Word) : (s.okay v).soft = s.soft := rfl
@[simp] theorem okay_corr (v : Word) : (s.okay v).corr = s.corr := rfl
@[simp] theorem okay_staging (v : Word) : (s.okay v).staging = s.staging := rfl
@[simp] theorem okay_rst (v : Word) : (s.okay v).rst = s.rst := rfl
@[simp] theorem okay_resp (v : Word) : (s.okay v).resp = some ⟨false, v⟩ := rfl
@[simp] theorem okay_uninitPoly (v : Word) : (s.okay v).uninitPoly = s.uninitPoly := rfl
@[simp] theorem okay_uninitBuf (v : Word) : (s.okay v).uninitBuf = s.uninitBuf := rfl
@[simp] theorem okay_portReq (v : Word) : (s.okay v).portReq = s.portReq := rfl
@[simp] theorem okay_freeCtr (v : Word) : (s.okay v).freeCtr = s.freeCtr := rfl
@[simp] theorem okay_patience (v : Word) : (s.okay v).patience = s.patience := rfl
@[simp] theorem okay_inputs (v : Word) : (s.okay v).inputs = s.inputs := rfl

/-! ### slverr -/

@[simp] theorem slverr_params : s.slverr.params = s.params := rfl
@[simp] theorem slverr_polys : s.slverr.polys = s.polys := rfl
@[simp] theorem slverr_polyWritten : s.slverr.polyWritten = s.polyWritten := rfl
@[simp] theorem slverr_buf : s.slverr.buf = s.buf := rfl
@[simp] theorem slverr_ieDone : s.slverr.ieDone = s.ieDone := rfl
@[simp] theorem slverr_ieErr : s.slverr.ieErr = s.ieErr := rfl
@[simp] theorem slverr_busy : s.slverr.busy = s.busy := rfl
@[simp] theorem slverr_done : s.slverr.done = s.done := rfl
@[simp] theorem slverr_err : s.slverr.err = s.err := rfl
@[simp] theorem slverr_fsm : s.slverr.fsm = s.fsm := rfl
@[simp] theorem slverr_errCode : s.slverr.errCode = s.errCode := rfl
@[simp] theorem slverr_errOpc : s.slverr.errOpc = s.errOpc := rfl
@[simp] theorem slverr_arg0 : s.slverr.arg0 = s.arg0 := rfl
@[simp] theorem slverr_arg1 : s.slverr.arg1 = s.arg1 := rfl
@[simp] theorem slverr_arg2 : s.slverr.arg2 = s.arg2 := rfl
@[simp] theorem slverr_sampleLimit : s.slverr.sampleLimit = s.sampleLimit := rfl
@[simp] theorem slverr_sampleDraws : s.slverr.sampleDraws = s.sampleDraws := rfl
@[simp] theorem slverr_cur : s.slverr.cur = s.cur := rfl
@[simp] theorem slverr_limit : s.slverr.limit = s.limit := rfl
@[simp] theorem slverr_phase : s.slverr.phase = s.phase := rfl
@[simp] theorem slverr_mulAcc : s.slverr.mulAcc = s.mulAcc := rfl
@[simp] theorem slverr_candidate : s.slverr.candidate = s.candidate := rfl
@[simp] theorem slverr_remaining : s.slverr.remaining = s.remaining := rfl
@[simp] theorem slverr_draws : s.slverr.draws = s.draws := rfl
@[simp] theorem slverr_soft : s.slverr.soft = s.soft := rfl
@[simp] theorem slverr_corr : s.slverr.corr = s.corr := rfl
@[simp] theorem slverr_staging : s.slverr.staging = s.staging := rfl
@[simp] theorem slverr_rst : s.slverr.rst = s.rst := rfl
@[simp] theorem slverr_resp : s.slverr.resp = some ⟨true, 0⟩ := rfl
@[simp] theorem slverr_uninitPoly : s.slverr.uninitPoly = s.uninitPoly := rfl
@[simp] theorem slverr_uninitBuf : s.slverr.uninitBuf = s.uninitBuf := rfl
@[simp] theorem slverr_portReq : s.slverr.portReq = s.portReq := rfl
@[simp] theorem slverr_freeCtr : s.slverr.freeCtr = s.freeCtr := rfl
@[simp] theorem slverr_patience : s.slverr.patience = s.patience := rfl
@[simp] theorem slverr_inputs : s.slverr.inputs = s.inputs := rfl

/-! ### setEnables -/

@[simp] theorem setEnables_params (x y : Bool) : (s.setEnables x y).params = s.params := rfl
@[simp] theorem setEnables_polys (x y : Bool) : (s.setEnables x y).polys = s.polys := rfl
@[simp] theorem setEnables_polyWritten (x y : Bool) : (s.setEnables x y).polyWritten = s.polyWritten := rfl
@[simp] theorem setEnables_buf (x y : Bool) : (s.setEnables x y).buf = s.buf := rfl
@[simp] theorem setEnables_ieDone (x y : Bool) : (s.setEnables x y).ieDone = x := rfl
@[simp] theorem setEnables_ieErr (x y : Bool) : (s.setEnables x y).ieErr = y := rfl
@[simp] theorem setEnables_busy (x y : Bool) : (s.setEnables x y).busy = s.busy := rfl
@[simp] theorem setEnables_done (x y : Bool) : (s.setEnables x y).done = s.done := rfl
@[simp] theorem setEnables_err (x y : Bool) : (s.setEnables x y).err = s.err := rfl
@[simp] theorem setEnables_fsm (x y : Bool) : (s.setEnables x y).fsm = s.fsm := rfl
@[simp] theorem setEnables_errCode (x y : Bool) : (s.setEnables x y).errCode = s.errCode := rfl
@[simp] theorem setEnables_errOpc (x y : Bool) : (s.setEnables x y).errOpc = s.errOpc := rfl
@[simp] theorem setEnables_arg0 (x y : Bool) : (s.setEnables x y).arg0 = s.arg0 := rfl
@[simp] theorem setEnables_arg1 (x y : Bool) : (s.setEnables x y).arg1 = s.arg1 := rfl
@[simp] theorem setEnables_arg2 (x y : Bool) : (s.setEnables x y).arg2 = s.arg2 := rfl
@[simp] theorem setEnables_sampleLimit (x y : Bool) : (s.setEnables x y).sampleLimit = s.sampleLimit := rfl
@[simp] theorem setEnables_sampleDraws (x y : Bool) : (s.setEnables x y).sampleDraws = s.sampleDraws := rfl
@[simp] theorem setEnables_cur (x y : Bool) : (s.setEnables x y).cur = s.cur := rfl
@[simp] theorem setEnables_limit (x y : Bool) : (s.setEnables x y).limit = s.limit := rfl
@[simp] theorem setEnables_phase (x y : Bool) : (s.setEnables x y).phase = s.phase := rfl
@[simp] theorem setEnables_mulAcc (x y : Bool) : (s.setEnables x y).mulAcc = s.mulAcc := rfl
@[simp] theorem setEnables_candidate (x y : Bool) : (s.setEnables x y).candidate = s.candidate := rfl
@[simp] theorem setEnables_remaining (x y : Bool) : (s.setEnables x y).remaining = s.remaining := rfl
@[simp] theorem setEnables_draws (x y : Bool) : (s.setEnables x y).draws = s.draws := rfl
@[simp] theorem setEnables_soft (x y : Bool) : (s.setEnables x y).soft = s.soft := rfl
@[simp] theorem setEnables_corr (x y : Bool) : (s.setEnables x y).corr = s.corr := rfl
@[simp] theorem setEnables_staging (x y : Bool) : (s.setEnables x y).staging = s.staging := rfl
@[simp] theorem setEnables_rst (x y : Bool) : (s.setEnables x y).rst = s.rst := rfl
@[simp] theorem setEnables_resp (x y : Bool) : (s.setEnables x y).resp = s.resp := rfl
@[simp] theorem setEnables_uninitPoly (x y : Bool) : (s.setEnables x y).uninitPoly = s.uninitPoly := rfl
@[simp] theorem setEnables_uninitBuf (x y : Bool) : (s.setEnables x y).uninitBuf = s.uninitBuf := rfl
@[simp] theorem setEnables_portReq (x y : Bool) : (s.setEnables x y).portReq = s.portReq := rfl
@[simp] theorem setEnables_freeCtr (x y : Bool) : (s.setEnables x y).freeCtr = s.freeCtr := rfl
@[simp] theorem setEnables_patience (x y : Bool) : (s.setEnables x y).patience = s.patience := rfl
@[simp] theorem setEnables_inputs (x y : Bool) : (s.setEnables x y).inputs = s.inputs := rfl

/-! ### clearDone -/

@[simp] theorem clearDone_params : s.clearDone.params = s.params := rfl
@[simp] theorem clearDone_polys : s.clearDone.polys = s.polys := rfl
@[simp] theorem clearDone_polyWritten : s.clearDone.polyWritten = s.polyWritten := rfl
@[simp] theorem clearDone_buf : s.clearDone.buf = s.buf := rfl
@[simp] theorem clearDone_ieDone : s.clearDone.ieDone = s.ieDone := rfl
@[simp] theorem clearDone_ieErr : s.clearDone.ieErr = s.ieErr := rfl
@[simp] theorem clearDone_busy : s.clearDone.busy = s.busy := rfl
@[simp] theorem clearDone_done : s.clearDone.done = false := rfl
@[simp] theorem clearDone_err : s.clearDone.err = s.err := rfl
@[simp] theorem clearDone_fsm : s.clearDone.fsm = s.fsm := rfl
@[simp] theorem clearDone_errCode : s.clearDone.errCode = s.errCode := rfl
@[simp] theorem clearDone_errOpc : s.clearDone.errOpc = s.errOpc := rfl
@[simp] theorem clearDone_arg0 : s.clearDone.arg0 = s.arg0 := rfl
@[simp] theorem clearDone_arg1 : s.clearDone.arg1 = s.arg1 := rfl
@[simp] theorem clearDone_arg2 : s.clearDone.arg2 = s.arg2 := rfl
@[simp] theorem clearDone_sampleLimit : s.clearDone.sampleLimit = s.sampleLimit := rfl
@[simp] theorem clearDone_sampleDraws : s.clearDone.sampleDraws = s.sampleDraws := rfl
@[simp] theorem clearDone_cur : s.clearDone.cur = s.cur := rfl
@[simp] theorem clearDone_limit : s.clearDone.limit = s.limit := rfl
@[simp] theorem clearDone_phase : s.clearDone.phase = s.phase := rfl
@[simp] theorem clearDone_mulAcc : s.clearDone.mulAcc = s.mulAcc := rfl
@[simp] theorem clearDone_candidate : s.clearDone.candidate = s.candidate := rfl
@[simp] theorem clearDone_remaining : s.clearDone.remaining = s.remaining := rfl
@[simp] theorem clearDone_draws : s.clearDone.draws = s.draws := rfl
@[simp] theorem clearDone_soft : s.clearDone.soft = s.soft := rfl
@[simp] theorem clearDone_corr : s.clearDone.corr = s.corr := rfl
@[simp] theorem clearDone_staging : s.clearDone.staging = s.staging := rfl
@[simp] theorem clearDone_rst : s.clearDone.rst = s.rst := rfl
@[simp] theorem clearDone_resp : s.clearDone.resp = s.resp := rfl
@[simp] theorem clearDone_uninitPoly : s.clearDone.uninitPoly = s.uninitPoly := rfl
@[simp] theorem clearDone_uninitBuf : s.clearDone.uninitBuf = s.uninitBuf := rfl
@[simp] theorem clearDone_portReq : s.clearDone.portReq = s.portReq := rfl
@[simp] theorem clearDone_freeCtr : s.clearDone.freeCtr = s.freeCtr := rfl
@[simp] theorem clearDone_patience : s.clearDone.patience = s.patience := rfl
@[simp] theorem clearDone_inputs : s.clearDone.inputs = s.inputs := rfl

/-! ### request -/

@[simp] theorem request_params (p : Phase) : (s.request p).params = s.params := rfl
@[simp] theorem request_polys (p : Phase) : (s.request p).polys = s.polys := rfl
@[simp] theorem request_polyWritten (p : Phase) : (s.request p).polyWritten = s.polyWritten := rfl
@[simp] theorem request_buf (p : Phase) : (s.request p).buf = s.buf := rfl
@[simp] theorem request_ieDone (p : Phase) : (s.request p).ieDone = s.ieDone := rfl
@[simp] theorem request_ieErr (p : Phase) : (s.request p).ieErr = s.ieErr := rfl
@[simp] theorem request_busy (p : Phase) : (s.request p).busy = s.busy := rfl
@[simp] theorem request_done (p : Phase) : (s.request p).done = s.done := rfl
@[simp] theorem request_err (p : Phase) : (s.request p).err = s.err := rfl
@[simp] theorem request_fsm (p : Phase) : (s.request p).fsm = s.fsm := rfl
@[simp] theorem request_errCode (p : Phase) : (s.request p).errCode = s.errCode := rfl
@[simp] theorem request_errOpc (p : Phase) : (s.request p).errOpc = s.errOpc := rfl
@[simp] theorem request_arg0 (p : Phase) : (s.request p).arg0 = s.arg0 := rfl
@[simp] theorem request_arg1 (p : Phase) : (s.request p).arg1 = s.arg1 := rfl
@[simp] theorem request_arg2 (p : Phase) : (s.request p).arg2 = s.arg2 := rfl
@[simp] theorem request_sampleLimit (p : Phase) : (s.request p).sampleLimit = s.sampleLimit := rfl
@[simp] theorem request_sampleDraws (p : Phase) : (s.request p).sampleDraws = s.sampleDraws := rfl
@[simp] theorem request_cur (p : Phase) : (s.request p).cur = s.cur := rfl
@[simp] theorem request_limit (p : Phase) : (s.request p).limit = s.limit := rfl
@[simp] theorem request_phase (p : Phase) : (s.request p).phase = p := rfl
@[simp] theorem request_mulAcc (p : Phase) : (s.request p).mulAcc = s.mulAcc := rfl
@[simp] theorem request_candidate (p : Phase) : (s.request p).candidate = s.candidate := rfl
@[simp] theorem request_remaining (p : Phase) : (s.request p).remaining = s.remaining := rfl
@[simp] theorem request_draws (p : Phase) : (s.request p).draws = s.draws := rfl
@[simp] theorem request_soft (p : Phase) : (s.request p).soft = s.soft := rfl
@[simp] theorem request_corr (p : Phase) : (s.request p).corr = s.corr := rfl
@[simp] theorem request_staging (p : Phase) : (s.request p).staging = s.staging := rfl
@[simp] theorem request_rst (p : Phase) : (s.request p).rst = s.rst := rfl
@[simp] theorem request_resp (p : Phase) : (s.request p).resp = s.resp := rfl
@[simp] theorem request_uninitPoly (p : Phase) : (s.request p).uninitPoly = s.uninitPoly := rfl
@[simp] theorem request_uninitBuf (p : Phase) : (s.request p).uninitBuf = s.uninitBuf := rfl
@[simp] theorem request_portReq (p : Phase) : (s.request p).portReq = s.portReq + 1 := rfl
@[simp] theorem request_freeCtr (p : Phase) : (s.request p).freeCtr = s.freeCtr := rfl
@[simp] theorem request_patience (p : Phase) : (s.request p).patience = s.patience := rfl
@[simp] theorem request_inputs (p : Phase) : (s.request p).inputs = s.inputs := rfl

/-! ### setPhase -/

@[simp] theorem setPhase_params (p : Phase) : (s.setPhase p).params = s.params := rfl
@[simp] theorem setPhase_polys (p : Phase) : (s.setPhase p).polys = s.polys := rfl
@[simp] theorem setPhase_polyWritten (p : Phase) : (s.setPhase p).polyWritten = s.polyWritten := rfl
@[simp] theorem setPhase_buf (p : Phase) : (s.setPhase p).buf = s.buf := rfl
@[simp] theorem setPhase_ieDone (p : Phase) : (s.setPhase p).ieDone = s.ieDone := rfl
@[simp] theorem setPhase_ieErr (p : Phase) : (s.setPhase p).ieErr = s.ieErr := rfl
@[simp] theorem setPhase_busy (p : Phase) : (s.setPhase p).busy = s.busy := rfl
@[simp] theorem setPhase_done (p : Phase) : (s.setPhase p).done = s.done := rfl
@[simp] theorem setPhase_err (p : Phase) : (s.setPhase p).err = s.err := rfl
@[simp] theorem setPhase_fsm (p : Phase) : (s.setPhase p).fsm = s.fsm := rfl
@[simp] theorem setPhase_errCode (p : Phase) : (s.setPhase p).errCode = s.errCode := rfl
@[simp] theorem setPhase_errOpc (p : Phase) : (s.setPhase p).errOpc = s.errOpc := rfl
@[simp] theorem setPhase_arg0 (p : Phase) : (s.setPhase p).arg0 = s.arg0 := rfl
@[simp] theorem setPhase_arg1 (p : Phase) : (s.setPhase p).arg1 = s.arg1 := rfl
@[simp] theorem setPhase_arg2 (p : Phase) : (s.setPhase p).arg2 = s.arg2 := rfl
@[simp] theorem setPhase_sampleLimit (p : Phase) : (s.setPhase p).sampleLimit = s.sampleLimit := rfl
@[simp] theorem setPhase_sampleDraws (p : Phase) : (s.setPhase p).sampleDraws = s.sampleDraws := rfl
@[simp] theorem setPhase_cur (p : Phase) : (s.setPhase p).cur = s.cur := rfl
@[simp] theorem setPhase_limit (p : Phase) : (s.setPhase p).limit = s.limit := rfl
@[simp] theorem setPhase_phase (p : Phase) : (s.setPhase p).phase = p := rfl
@[simp] theorem setPhase_mulAcc (p : Phase) : (s.setPhase p).mulAcc = s.mulAcc := rfl
@[simp] theorem setPhase_candidate (p : Phase) : (s.setPhase p).candidate = s.candidate := rfl
@[simp] theorem setPhase_remaining (p : Phase) : (s.setPhase p).remaining = s.remaining := rfl
@[simp] theorem setPhase_draws (p : Phase) : (s.setPhase p).draws = s.draws := rfl
@[simp] theorem setPhase_soft (p : Phase) : (s.setPhase p).soft = s.soft := rfl
@[simp] theorem setPhase_corr (p : Phase) : (s.setPhase p).corr = s.corr := rfl
@[simp] theorem setPhase_staging (p : Phase) : (s.setPhase p).staging = s.staging := rfl
@[simp] theorem setPhase_rst (p : Phase) : (s.setPhase p).rst = s.rst := rfl
@[simp] theorem setPhase_resp (p : Phase) : (s.setPhase p).resp = s.resp := rfl
@[simp] theorem setPhase_uninitPoly (p : Phase) : (s.setPhase p).uninitPoly = s.uninitPoly := rfl
@[simp] theorem setPhase_uninitBuf (p : Phase) : (s.setPhase p).uninitBuf = s.uninitBuf := rfl
@[simp] theorem setPhase_portReq (p : Phase) : (s.setPhase p).portReq = s.portReq := rfl
@[simp] theorem setPhase_freeCtr (p : Phase) : (s.setPhase p).freeCtr = s.freeCtr := rfl
@[simp] theorem setPhase_patience (p : Phase) : (s.setPhase p).patience = s.patience := rfl
@[simp] theorem setPhase_inputs (p : Phase) : (s.setPhase p).inputs = s.inputs := rfl

/-! ### resetCsrs -/

@[simp] theorem resetCsrs_params : s.resetCsrs.params = s.params := rfl
@[simp] theorem resetCsrs_polys : s.resetCsrs.polys = s.polys := rfl
@[simp] theorem resetCsrs_polyWritten : s.resetCsrs.polyWritten = s.polyWritten := rfl
@[simp] theorem resetCsrs_buf : s.resetCsrs.buf = s.buf := rfl
@[simp] theorem resetCsrs_ieDone : s.resetCsrs.ieDone = false := rfl
@[simp] theorem resetCsrs_ieErr : s.resetCsrs.ieErr = false := rfl
@[simp] theorem resetCsrs_busy : s.resetCsrs.busy = false := rfl
@[simp] theorem resetCsrs_done : s.resetCsrs.done = false := rfl
@[simp] theorem resetCsrs_err : s.resetCsrs.err = false := rfl
@[simp] theorem resetCsrs_fsm : s.resetCsrs.fsm = .idle := rfl
@[simp] theorem resetCsrs_errCode : s.resetCsrs.errCode = .none := rfl
@[simp] theorem resetCsrs_errOpc : s.resetCsrs.errOpc = 0 := rfl
@[simp] theorem resetCsrs_arg0 : s.resetCsrs.arg0 = 0 := rfl
@[simp] theorem resetCsrs_arg1 : s.resetCsrs.arg1 = 0 := rfl
@[simp] theorem resetCsrs_arg2 : s.resetCsrs.arg2 = 0 := rfl
@[simp] theorem resetCsrs_sampleLimit : s.resetCsrs.sampleLimit = 0 := rfl
@[simp] theorem resetCsrs_sampleDraws : s.resetCsrs.sampleDraws = 0 := rfl
@[simp] theorem resetCsrs_cur : s.resetCsrs.cur = s.cur := rfl
@[simp] theorem resetCsrs_limit : s.resetCsrs.limit = s.limit := rfl
@[simp] theorem resetCsrs_phase : s.resetCsrs.phase = .start := rfl
@[simp] theorem resetCsrs_mulAcc : s.resetCsrs.mulAcc = s.mulAcc := rfl
@[simp] theorem resetCsrs_candidate : s.resetCsrs.candidate = s.candidate := rfl
@[simp] theorem resetCsrs_remaining : s.resetCsrs.remaining = s.remaining := rfl
@[simp] theorem resetCsrs_draws : s.resetCsrs.draws = s.draws := rfl
@[simp] theorem resetCsrs_soft : s.resetCsrs.soft = s.soft := rfl
@[simp] theorem resetCsrs_corr : s.resetCsrs.corr = s.corr := rfl
@[simp] theorem resetCsrs_staging : s.resetCsrs.staging = s.staging := rfl
@[simp] theorem resetCsrs_rst : s.resetCsrs.rst = s.rst := rfl
@[simp] theorem resetCsrs_resp : s.resetCsrs.resp = s.resp := rfl
@[simp] theorem resetCsrs_uninitPoly : s.resetCsrs.uninitPoly = s.uninitPoly := rfl
@[simp] theorem resetCsrs_uninitBuf : s.resetCsrs.uninitBuf = s.uninitBuf := rfl
@[simp] theorem resetCsrs_portReq : s.resetCsrs.portReq = s.portReq := rfl
@[simp] theorem resetCsrs_freeCtr : s.resetCsrs.freeCtr = s.freeCtr := rfl
@[simp] theorem resetCsrs_patience : s.resetCsrs.patience = s.patience := rfl
@[simp] theorem resetCsrs_inputs : s.resetCsrs.inputs = s.inputs := rfl

/-! ### Registers, operands and bytes read through the updates -/

@[simp] theorem poly_setPoly_self (i : Reg) (v : Nat) : (s.setPoly i v).poly i = v := by
  simp [State.poly, State.setPoly, Vector.get_eq_getElem]

theorem poly_setPoly_of_ne {i j : Reg} (v : Nat) (h : j ≠ i) : (s.setPoly i v).poly j = s.poly j := by
  have h' : i.val ≠ j.val := fun e => h (Fin.ext e.symm)
  simp [State.poly, State.setPoly, Vector.get_eq_getElem, h']

theorem poly_setPoly (i j : Reg) (v : Nat) : (s.setPoly i v).poly j = if j = i then v else s.poly j := by
  split
  · subst j; simp
  · exact poly_setPoly_of_ne s v ‹_›

/-- A register read depends on the register file alone. -/
theorem poly_congr {s t : State} (h : t.polys = s.polys) (i : Reg) : t.poly i = s.poly i := by
  simp [State.poly, h]

theorem written_setPoly (i j : Reg) (v : Nat) :
    (s.setPoly i v).polyWritten.get j = if j = i then true else s.polyWritten.get j := by
  split
  · subst j; simp [Vector.get_eq_getElem]
  · have h' : i.val ≠ j.val := fun e => ‹¬j = i› (Fin.ext e.symm)
    simp [Vector.get_eq_getElem, h']

/-- The operands depend on CUR alone. -/
theorem src_congr {s t : State} (h : t.cur = s.cur) : t.src = s.src := by simp [State.src, h]

theorem count_congr {s t : State} (h : t.cur = s.cur) : t.count = s.count := by simp [State.count, h]

theorem dst_congr {s t : State} (h : t.cur = s.cur) : t.dst = s.dst := by simp [State.dst, h]

/-- The bytes a command reads depend on BUF and the free-value counter alone. -/
theorem loadBytes_congr {s t : State} (hb : t.buf = s.buf) (hc : t.freeCtr = s.freeCtr) (a len : Nat) :
    t.loadBytes a len = s.loadBytes a len := by
  simp [State.loadBytes, State.bufByte, hb, hc]

@[simp] theorem length_loadBytes (a len : Nat) : (s.loadBytes a len).length = len := by simp [State.loadBytes]

end Sys2Proof.Machine
end

