-- ==== Sys2Proof/Laws/Bytes.lean ====
section
/-! SUPPORT. The laws of big-endian conversion (R11). -/

namespace Sys2Proof.Machine

theorem beValue_foldl (v : Nat) (bs : List Byte) :
    bs.foldl (fun v b => 256 * v + b.toNat) v = v * 256 ^ bs.length + beValue bs := by
  induction bs generalizing v with
  | nil => simp [beValue]
  | cons b bs ih =>
    have h0 := ih b.toNat
    simp only [beValue, List.foldl_cons, List.length_cons, Nat.mul_zero, Nat.zero_add] at *
    rw [ih, h0]
    ring

@[simp] theorem beValue_nil : beValue [] = 0 := rfl

theorem beValue_cons (b : Byte) (bs : List Byte) : beValue (b :: bs) = b.toNat * 256 ^ bs.length + beValue bs := by
  simpa [beValue] using beValue_foldl b.toNat bs

theorem beValue_append (xs ys : List Byte) : beValue (xs ++ ys) = beValue xs * 256 ^ ys.length + beValue ys := by
  induction xs with
  | nil => simp
  | cons b xs ih => simp only [List.cons_append, beValue_cons, ih, List.length_append, pow_add]; ring

/-- `BE` of k bytes is below 256^k. -/
theorem beValue_lt (bs : List Byte) : beValue bs < 256 ^ bs.length := by
  induction bs with
  | nil => simp
  | cons b bs ih =>
    rw [beValue_cons, List.length_cons, pow_succ]
    have hb : b.toNat < 256 := b.isLt
    nlinarith [Nat.mul_le_mul_right (256 ^ bs.length) (Nat.le_of_lt_succ hb)]

@[simp] theorem length_beBytes (k v : Nat) : (beBytes k v).length = k := by simp [beBytes]

theorem beBytes_zero (v : Nat) : beBytes 0 v = [] := rfl

theorem beBytes_succ (k v : Nat) : beBytes (k + 1) v = BitVec.ofNat 8 (v / 256 ^ k) :: beBytes k v := by
  simp only [beBytes, List.range_succ_eq_map, List.map_cons, List.map_map, Nat.add_sub_cancel, Nat.sub_zero]
  congr 1
  apply List.map_congr_left
  intro t ht
  simp only [Function.comp_apply]
  congr 3
  omega

/-- `BE(BEbytes_k(v)) = v mod 256^k`. -/
theorem beValue_beBytes (k v : Nat) : beValue (beBytes k v) = v % 256 ^ k := by
  induction k with
  | zero => simp [beBytes_zero, Nat.mod_one]
  | succ k ih =>
    have e : (256 : Nat) ^ (k + 1) = 256 ^ k * 256 := pow_succ 256 k
    rw [beBytes_succ, beValue_cons, ih, length_beBytes, BitVec.toNat_ofNat, e, Nat.mod_mul, Nat.add_comm, Nat.mul_comm]

/-- `BE(BEbytes_k(v)) = v` where v fits k bytes (R11). -/
theorem beValue_beBytes_of_lt {k v : Nat} (h : v < 256 ^ k) : beValue (beBytes k v) = v := by
  rw [beValue_beBytes, Nat.mod_eq_of_lt h]

/-- `BEbytes_k(BE(B)) = B` for k bytes B (R11). -/
theorem beBytes_beValue (bs : List Byte) : beBytes bs.length (beValue bs) = bs := by
  induction bs with
  | nil => rfl
  | cons b bs ih =>
    have hlt := beValue_lt bs
    have hpos : 0 < 256 ^ bs.length := by positivity
    rw [List.length_cons, beBytes_succ, beValue_cons]
    have hd : (b.toNat * 256 ^ bs.length + beValue bs) / 256 ^ bs.length = b.toNat := by
      rw [Nat.add_comm, Nat.add_mul_div_right _ _ hpos, Nat.div_eq_of_lt hlt, Nat.zero_add]
    rw [hd]
    congr 1
    · simp
    · have hm : beBytes bs.length (b.toNat * 256 ^ bs.length + beValue bs) = beBytes bs.length (beValue bs) := by
        simp only [beBytes]
        apply List.map_congr_left
        intro t ht
        have ht' : t < bs.length := List.mem_range.mp ht
        apply BitVec.eq_of_toNat_eq
        simp only [BitVec.toNat_ofNat]
        have e : bs.length = (bs.length - 1 - t) + (t + 1) := by omega
        have hp : 0 < 256 ^ (bs.length - 1 - t) := by positivity
        have e2 : b.toNat * 256 ^ bs.length + beValue bs
            = beValue bs + 256 ^ (bs.length - 1 - t) * (b.toNat * 256 ^ (t + 1)) := by
          have e3 : 256 ^ bs.length = 256 ^ (bs.length - 1 - t) * 256 ^ (t + 1) := by rw [← pow_add, ← e]
          rw [e3]
          ring
        rw [e2, Nat.add_mul_div_left _ _ hp, pow_succ, ← Nat.mul_assoc]
        exact Nat.add_mul_mod_self_right _ _ _
      rw [hm, ih]

end Sys2Proof.Machine
end

