-- ==== Sys2Proof/Laws/Memory.lean ====
section
/-! SUPPORT. The laws of BUF: reads after writes, and that every memory operation keeps the canonical form. -/

namespace Sys2Proof.Machine

theorem read_nil (a : Nat) : Memory.read [] a = none := rfl

/-- A read after a write to the same address gives the byte written. -/
@[simp] theorem read_write_self (m : Memory) (a : Nat) (b : Byte) : Memory.read (Memory.write m a b) a = some b := by
  induction m with
  | nil => simp [Memory.write, Memory.read]
  | cons c m ih =>
    obtain ⟨k, x⟩ := c
    by_cases h1 : a < k
    · simp [Memory.write, Memory.read, h1]
    · by_cases h2 : a = k
      · simp [Memory.write, Memory.read, h2]
      · have h3 : ¬ k = a := fun e => h2 e.symm
        simp [Memory.write, Memory.read, h1, h2, h3, ih]

/-- A write leaves every other address alone. -/
theorem read_write_of_ne (m : Memory) {a x : Nat} (b : Byte) (h : x ≠ a) :
    Memory.read (Memory.write m a b) x = Memory.read m x := by
  have h' : ¬ a = x := fun e => h e.symm
  induction m with
  | nil => simp [Memory.write, Memory.read, h']
  | cons c m ih =>
    obtain ⟨k, y⟩ := c
    by_cases h1 : a < k
    · simp [Memory.write, Memory.read, h1, h']
    · by_cases h2 : a = k
      · subst h2; simp [Memory.write, Memory.read, h']
      · by_cases h3 : k = x
        · subst h3; simp [Memory.write, Memory.read, h1, h2]
        · simp [Memory.write, Memory.read, h1, h2, h3, ih]

/-- The addresses listed after a write. -/
theorem mem_keys_write (m : Memory) (a x : Nat) (b : Byte) :
    x ∈ (Memory.write m a b).map Prod.fst ↔ x = a ∨ x ∈ m.map Prod.fst := by
  induction m with
  | nil => simp [Memory.write]
  | cons c m ih =>
    obtain ⟨k, y⟩ := c
    by_cases h1 : a < k
    · simp [Memory.write, h1]
    · by_cases h2 : a = k
      · subst h2; simp [Memory.write]
      · simp only [Memory.write, h1, h2, if_false, List.map_cons, List.mem_cons, ih]
        tauto

/-- A write keeps the canonical form. -/
theorem write_wf {m : Memory} (h : Memory.wf m) (a : Nat) (b : Byte) : Memory.wf (Memory.write m a b) := by
  induction m with
  | nil => simp [Memory.write, Memory.wf]
  | cons c m ih =>
    obtain ⟨k, y⟩ := c
    simp only [Memory.wf, List.map_cons, List.pairwise_cons] at h
    obtain ⟨hk, hm⟩ := h
    by_cases h1 : a < k
    · simp only [Memory.write, h1, if_true, Memory.wf, List.map_cons, List.pairwise_cons]
      refine ⟨fun x hx => ?_, hk, hm⟩
      rcases List.mem_cons.mp hx with rfl | hx
      · exact h1
      · exact lt_trans h1 (hk x hx)
    · by_cases h2 : a = k
      · subst h2
        simpa [Memory.write, Memory.wf] using And.intro (by simpa using hk) hm
      · simp only [Memory.write, h1, h2, if_false, Memory.wf, List.map_cons, List.pairwise_cons]
        refine ⟨fun x hx => ?_, ih hm⟩
        rcases (mem_keys_write m a x b).mp hx with rfl | hx
        · omega
        · exact hk x hx

/-- A write of a byte string keeps the canonical form. -/
theorem writeBytes_wf {m : Memory} (h : Memory.wf m) (a : Nat) (bs : List Byte) :
    Memory.wf (Memory.writeBytes m a bs) := by
  induction bs generalizing m a with
  | nil => simpa [Memory.writeBytes] using h
  | cons b bs ih => exact ih (write_wf h a b) (a + 1)

/-- The addresses listed after a write of a byte string. -/
theorem mem_keys_writeBytes (m : Memory) (a x : Nat) (bs : List Byte) :
    x ∈ (Memory.writeBytes m a bs).map Prod.fst ↔ (a ≤ x ∧ x < a + bs.length) ∨ x ∈ m.map Prod.fst := by
  induction bs generalizing m a with
  | nil => simp only [Memory.writeBytes, List.length_nil]; constructor
           · exact Or.inr
           · rintro (⟨h1, h2⟩ | h)
             · omega
             · exact h
  | cons b bs ih =>
    simp only [Memory.writeBytes, ih, mem_keys_write, List.length_cons]
    constructor
    · rintro (h | rfl | h)
      · left; omega
      · left; omega
      · exact Or.inr h
    · rintro (h | h)
      · by_cases hx : x = a
        · exact Or.inr (Or.inl hx)
        · left; omega
      · exact Or.inr (Or.inr h)

/-- What every address reads as after a write of a byte string: the byte written there, or what it read as before. -/
theorem read_writeBytes (m : Memory) (a x : Nat) (bs : List Byte) :
    Memory.read (Memory.writeBytes m a bs) x =
      if a ≤ x ∧ x < a + bs.length then some (bs.getD (x - a) 0) else Memory.read m x := by
  induction bs generalizing m a with
  | nil => simp only [Memory.writeBytes, List.length_nil]; rw [if_neg (by omega)]
  | cons b bs ih =>
    rw [Memory.writeBytes, ih]
    by_cases hx : x = a
    · subst hx; rw [if_neg (by omega), if_pos (by simp)]; simp
    · by_cases h1 : a + 1 ≤ x ∧ x < a + 1 + bs.length
      · rw [if_pos h1, if_pos (by simp; omega)]
        obtain ⟨k, rfl⟩ : ∃ k, x = a + 1 + k := ⟨x - (a + 1), by omega⟩
        have e1 : a + 1 + k - (a + 1) = k := by omega
        have e2 : a + 1 + k - a = k + 1 := by omega
        rw [e1, e2, List.getD_cons_succ]
      · rw [if_neg h1, if_neg (by simp; omega), read_write_of_ne m b hx]

/-- A write of a byte string leaves every address outside it alone. -/
theorem read_writeBytes_outside (m : Memory) {a x : Nat} (bs : List Byte) (h : ¬(a ≤ x ∧ x < a + bs.length)) :
    Memory.read (Memory.writeBytes m a bs) x = Memory.read m x := by
  rw [read_writeBytes, if_neg h]

/-- The memory after reset has the canonical form. -/
theorem reset_buf_wf : Memory.wf State.reset.buf := by simp [State.reset, State.resetOf, Memory.wf]

/-- A list of bytes read from a written range is the bytes written, and nothing is noted as unwritten. -/
theorem loadBytes_storeBytes (s : State) (a : Nat) (bs : List Byte) :
    (s.storeBytes a bs).loadBytes a bs.length = bs := by
  apply List.ext_getElem
  · simp
  · intro k h1 h2
    simp [State.loadBytes, State.bufByte, read_writeBytes, List.getD, h2]

theorem bufWritten_storeBytes (s : State) (a : Nat) (bs : List Byte) :
    (s.storeBytes a bs).bufWritten a bs.length = true := by
  simp only [State.bufWritten, List.all_eq_true, List.mem_range, storeBytes_buf, read_writeBytes]
  intro x hx
  simp [hx]

end Sys2Proof.Machine
end

