-- ==== Sys2Proof/Laws/Exec.lean ====
section
/-! SUPPORT. What the shared operations of the meanings can do, in the words Safety.lean gives frames. -/

namespace Sys2Proof.Machine

variable (s : State)

theorem sameBuf_of_eq {s t : State} (h : t.buf = s.buf) : s.SameBuf t := fun x => by rw [h]

theorem samePolys_of_eq {s t : State} (hp : t.polys = s.polys) (hw : t.polyWritten = s.polyWritten) : s.SamePolys t :=
  fun j => ⟨poly_congr hp j, by rw [hw]⟩

theorem completed_complete : s.complete.Completed := ⟨rfl, rfl, rfl, rfl, rfl⟩

/-- Raising an error ends the command with it and writes no destination (R107, R108). -/
theorem endedWith_fail (e : ErrCode) : s.EndedWith e (s.fail e) :=
  ⟨rfl, rfl, rfl, samePolys_of_eq rfl rfl, sameBuf_of_eq rfl,
    ⟨rfl, rfl, rfl, rfl, rfl, rfl, rfl, rfl, rfl, rfl, rfl, rfl, rfl⟩, completed_complete _⟩

/-- Writing a register and completing, from a state `m` that differs from `s` in working state only. -/
theorem wrotePoly_setPoly {s m : State} (d : Reg) (v : Nat) (hp : m.polys = s.polys)
    (hw : m.polyWritten = s.polyWritten) (hb : m.buf = s.buf) (hc : s.SameControl m) (he : s.SameErrors m) :
    s.WrotePoly d v ((m.setPoly d v).complete) := by
  refine ⟨?_, ?_, ?_, sameBuf_of_eq hb, hc, he, completed_complete _⟩
  · exact (poly_congr rfl d).trans (poly_setPoly_self m d v)
  · simpa using written_setPoly m d d v
  · intro j hj
    refine ⟨?_, ?_⟩
    · exact ((poly_congr rfl j).trans (poly_setPoly_of_ne m v hj)).trans (poly_congr hp j)
    · have h := written_setPoly m d j v
      rw [if_neg hj, hw] at h
      exact h

/-- Writing a BUF range and completing, from a state `m` that differs from `s` in working state only. -/
theorem wroteBuf_storeBytes {s m : State} (a : Nat) (bs : List Byte) (hp : m.polys = s.polys)
    (hw : m.polyWritten = s.polyWritten) (hb : m.buf = s.buf) (hc : s.SameControl m) (he : s.SameErrors m) :
    s.WroteBuf a bs.length ((m.storeBytes a bs).complete) := by
  refine ⟨fun x hx => ?_, samePolys_of_eq hp hw, hc, he, completed_complete _⟩
  show Memory.read (Memory.writeBytes m.buf a bs) x = Memory.read s.buf x
  rw [read_writeBytes_outside _ _ hx, hb]

/-- What each address reads as once a range has been written. -/
theorem read_storeBytes_complete (m : State) (a : Nat) (bs : List Byte) (k : Nat) (hk : k < bs.length) :
    Memory.read ((m.storeBytes a bs).complete).buf (a + k) = some (bs.getD k 0) := by
  show Memory.read (Memory.writeBytes m.buf a bs) (a + k) = _
  rw [read_writeBytes, if_pos (by omega)]
  congr 2; omega

/-- A range whose bytes have all been written reads as those bytes, and reading it records nothing. -/
theorem loadBytes_of_written {a len : Nat} {B : Nat → Byte}
    (h : ∀ t, t < len → Memory.read s.buf (a + t) = some (B t)) : s.loadBytes a len = (List.range len).map B := by
  apply List.map_congr_left
  intro t ht
  simp [State.bufByte, h t (List.mem_range.mp ht)]

theorem bufWritten_of_written {a len : Nat} {B : Nat → Byte}
    (h : ∀ t, t < len → Memory.read s.buf (a + t) = some (B t)) : s.bufWritten a len = true := by
  simp only [State.bufWritten, List.all_eq_true, List.mem_range]
  intro t ht
  simp [h t ht]

theorem bufWritten_false {a len k : Nat} (hk : k < len) (h : Memory.read s.buf (a + k) = none) :
    s.bufWritten a len = false := by
  simp only [State.bufWritten, List.all_eq_false, List.mem_range]
  exact ⟨k, hk, by simp [h]⟩

/-! ### The sampler -/

/-- The 32-bit draw count is R81's unbounded one, held at 0xFFFF_FFFF (log entry 16). -/
theorem toNat_satSucc (w : Word) : (satSucc w).toNat = min (w.toNat + 1) 0xFFFFFFFF := by
  unfold satSucc
  split <;> bv_omega

theorem accepts_iff (v : Nat) : s.accepts v = true ↔ v < s.params.n ∧ s.candidate.testBit v = false := by
  simp [State.accepts]

theorem takeDraw_of_accepted {bs : List Byte} (h : s.accepts (drawValue s.params bs) = true) :
    s.takeDraw bs = { s with
      draws := satSucc s.draws, candidate := s.candidate ||| 2 ^ drawValue s.params bs, remaining := s.remaining - 1 } := by
  simp [State.takeDraw, h]

theorem takeDraw_of_rejected {bs : List Byte} (h : ¬s.accepts (drawValue s.params bs) = true) :
    s.takeDraw bs = { s with draws := satSucc s.draws } := by
  simp [State.takeDraw, h]

/-- The loop's head does one of three things. -/
theorem sampleTurn_cases (d : Reg) :
    (s.remaining = 0 ∧ s.sampleTurn d = (s.recordDraws.setPoly d s.candidate).complete) ∨
      (s.remaining ≠ 0 ∧ (s.limit ≠ 0 ∧ s.draws = s.limit) ∧
        s.sampleTurn d = s.recordDraws.fail .sampleBudget) ∨
      (s.remaining ≠ 0 ∧ ¬(s.limit ≠ 0 ∧ s.draws = s.limit) ∧
        s.sampleTurn d = s.request (.drbgWait s.params.bytesNeeded)) := by
  unfold State.sampleTurn
  split
  · exact .inl ⟨‹_›, rfl⟩
  · split
    · exact .inr (.inl ⟨‹_›, ‹_›, rfl⟩)
    · exact .inr (.inr ⟨‹_›, ‹_›, rfl⟩)

/-! ### Lengths of the strings commands write -/

@[simp] theorem length_rmBlock (b : Byte) : (rmBlock b).length = 16 := by simp [rmBlock]

@[simp] theorem length_rmCopies (m : Nat) (b : Byte) : (rmCopies m b).length = m * 16 := by simp [rmCopies]

@[simp] theorem length_rmEncode (m : Nat) (bs : List Byte) : (rmEncode m bs).length = bs.length * (m * 16) := by
  induction bs with
  | nil => simp [rmEncode]
  | cons b bs ih =>
    simp only [rmEncode, List.flatMap_cons, List.length_append, List.length_cons, length_rmCopies] at *
    rw [ih]; ring

@[simp] theorem length_rmDecode (m cnt : Nat) (x : List Byte) : (rmDecode m cnt x).length = cnt := by simp [rmDecode]

/-- The inner codeword staged in CCENC's first phase is the one its second phase encodes. -/
theorem stagedCodeword_enterRmEncode {I : List Byte} (h : I.length = s.params.ccN1) :
    (s.enterRmEncode I).stagedCodeword = I := by
  show (I ++ s.staging.drop I.length).take s.params.ccN1 = I
  rw [← h, List.take_left]

/-! ### Every command's step is a next state -/

/-- The state a command's step leads to. -/
def stepOf (i : Instr) (s : State) : State :=
  match i with
  | .nop => s.runNop
  | .pzero d => s.runPzero d
  | .pmov d a => s.runPmov d a
  | .pxor d a b => s.runPxor d a b
  | .pmul d a b => s.runPmul d a b
  | .sample d => s.runSample d
  | .loadp d => s.runLoadp d
  | .storep a => s.runStorep a
  | .rmenc => s.runRmenc
  | .rmdec => s.runRmdec
  | .ccenc d => s.runCcenc d
  | .ccdec a => s.runCcdec a

theorem exec_eq_next (i : Instr) : exec i s = .next (stepOf i s) := by cases i <;> rfl

theorem exec_next_iff (i : Instr) (t : State) : exec i s = .next t ↔ t = stepOf i s := by
  rw [exec_eq_next]
  constructor
  · intro h; injection h with h; exact h.symm
  · rintro rfl; rfl

/-! ### What a command's step can do -/

theorem sameControl_refl : s.SameControl s := by simp [State.SameControl]

theorem sameErrors_refl : s.SameErrors s := ⟨rfl, rfl, rfl⟩

/-- A step from which no destination has been written yet. -/
def NoWrite (s t : State) : Prop := s.SamePolys t ∧ s.SameBuf t ∧ s.SameControl t

theorem noWrite_refl : NoWrite s s := ⟨fun _ => ⟨rfl, rfl⟩, fun _ => rfl, sameControl_refl s⟩

theorem noWrite_fail {s m : State} (h : NoWrite s m) (e : ErrCode) : NoWrite s (m.fail e) := h

/-- The sampler's loop head, from a state that differs from `s` in working state only. -/
theorem sampleTurn_effect {s m : State} (d : Reg) (hp : m.polys = s.polys) (hw : m.polyWritten = s.polyWritten)
    (hb : m.buf = s.buf) (hc : s.SameControl m) (he : s.SameErrors m) :
    NoWrite s (m.sampleTurn d) ∨ s.WrotePoly d m.candidate (m.sampleTurn d) := by
  rcases sampleTurn_cases m d with ⟨_, h⟩ | ⟨_, _, h⟩ | ⟨_, _, h⟩ <;> rw [h]
  · exact .inr (wrotePoly_setPoly (m := m.recordDraws) d _ hp hw hb hc he)
  · exact .inl ⟨samePolys_of_eq hp hw, sameBuf_of_eq hb, hc⟩
  · exact .inl ⟨samePolys_of_eq hp hw, sameBuf_of_eq hb, hc⟩

/-- Taking a draw changes working state only. -/
theorem takeDraw_frame (bs : List Byte) :
    (s.takeDraw bs).polys = s.polys ∧ (s.takeDraw bs).polyWritten = s.polyWritten ∧ (s.takeDraw bs).buf = s.buf ∧
      s.SameControl (s.takeDraw bs) ∧ s.SameErrors (s.takeDraw bs) := by
  by_cases h : s.accepts (drawValue s.params bs) = true
  · rw [takeDraw_of_accepted s h]; exact ⟨rfl, rfl, rfl, sameControl_refl s, sameErrors_refl s⟩
  · rw [takeDraw_of_rejected s h]; exact ⟨rfl, rfl, rfl, sameControl_refl s, sameErrors_refl s⟩

/-- A command's step writes no destination, or completes by writing its register, or completes by writing its BUF
range. -/
theorem stepOf_cases (i : Instr) :
    NoWrite s (stepOf i s) ∨ (∃ d v, destReg i = some d ∧ s.WrotePoly d v (stepOf i s)) ∨
      (destReg i = none ∧ s.WroteBuf s.destAddr (s.destLen i) (stepOf i s)) := by
  have hc := sameControl_refl s
  have he := sameErrors_refl s
  have hn := noWrite_refl s
  have hfail : ∀ e, NoWrite s (s.fail e) := fun e => noWrite_fail hn e
  cases i with
  | nop => exact .inl hn
  | pzero d => exact .inr (.inl ⟨d, _, rfl, wrotePoly_setPoly (m := s) d 0 rfl rfl rfl hc he⟩)
  | pmov d a => exact .inr (.inl ⟨d, _, rfl, wrotePoly_setPoly (m := s.notePoly a) d _ rfl rfl rfl hc he⟩)
  | pxor d a b =>
    exact .inr (.inl ⟨d, _, rfl, wrotePoly_setPoly (m := (s.notePoly a).notePoly b) d _ rfl rfl rfl hc he⟩)
  | pmul d a b =>
    exact .inr (.inl ⟨d, _, rfl,
      wrotePoly_setPoly (m := ((s.notePoly a).notePoly b).setMulAcc _) d _ rfl rfl rfl hc he⟩)
  | loadp d =>
    simp only [stepOf, State.runLoadp]
    split
    · exact .inl (hfail _)
    · split
      · exact .inl ⟨samePolys_of_eq rfl rfl, sameBuf_of_eq rfl, hc⟩
      · exact .inr (.inl ⟨d, _, rfl,
          wrotePoly_setPoly (m := s.noteLoad s.src s.params.nBytes) d _ rfl rfl rfl hc he⟩)
  | storep a =>
    simp only [stepOf, State.runStorep]
    split
    · exact .inl (hfail _)
    · refine .inr (.inr ⟨rfl, ?_⟩)
      have h := wroteBuf_storeBytes (s := s) (m := s.notePoly a) s.dst (beBytes s.params.nBytes (s.poly a)) rfl rfl rfl
        hc he
      rw [length_beBytes] at h
      exact h
  | sample d =>
    simp only [stepOf, State.runSample]
    split
    · split
      · exact .inl (hfail _)
      · exact (sampleTurn_effect (m := s.startSample) d rfl rfl rfl hc he).imp id
          fun h => .inl ⟨d, _, rfl, h⟩
    · obtain ⟨h1, h2, h3, h4, h5⟩ := takeDraw_frame s ‹_›
      exact (sampleTurn_effect d h1 h2 h3 h4 h5).imp id fun h => .inl ⟨d, _, rfl, h⟩
    all_goals exact .inl hn
  | rmenc =>
    simp only [stepOf, State.runRmenc]
    split
    · exact .inl (hfail _)
    · refine .inr (.inr ⟨rfl, ?_⟩)
      have h := wroteBuf_storeBytes (s := s) (m := s.noteLoad s.src s.count) s.dst
        (rmEncode s.params.mult (s.loadBytes s.src s.count)) rfl rfl rfl hc he
      rw [length_rmEncode, length_loadBytes, ← Nat.mul_assoc] at h
      exact h
  | rmdec =>
    simp only [stepOf, State.runRmdec]
    split
    · exact .inl (hfail _)
    · refine .inr (.inr ⟨rfl, ?_⟩)
      have hl : (rmDecode s.params.mult s.count (s.loadBytes s.src s.codeLen)).length = s.destLen .rmdec :=
        length_rmDecode _ _ _
      rw [← hl]
      unfold State.noteCorrelation
      split <;> exact wroteBuf_storeBytes (s := s) s.dst _ rfl rfl rfl hc he
  | ccenc d =>
    simp only [stepOf, State.runCcenc]
    split
    · split
      · exact .inl (hfail _)
      · split
        · exact .inl (hfail _)
        · exact .inl ⟨samePolys_of_eq rfl rfl, sameBuf_of_eq rfl, hc⟩
    · split
      · exact .inl ⟨samePolys_of_eq rfl rfl, sameBuf_of_eq rfl, hc⟩
      · exact .inl (hfail _)
    · exact .inl (hfail _)
    · exact .inr (.inl ⟨d, _, rfl, wrotePoly_setPoly (m := s) d _ rfl rfl rfl hc he⟩)
    all_goals exact .inl hn
  | ccdec a =>
    simp only [stepOf, State.runCcdec]
    split
    · split
      · exact .inl (hfail _)
      · split
        · exact .inl (hfail _)
        · unfold State.noteCorrelation
          split <;> exact .inl ⟨samePolys_of_eq rfl rfl, sameBuf_of_eq rfl, hc⟩
    · exact .inl (hfail _)
    · split
      · rename_i m _ hm
        have h := wroteBuf_storeBytes (s := s) (m := s.stage m) s.dst m rfl rfl rfl hc he
        rw [hm] at h
        exact .inr (.inr ⟨rfl, h⟩)
      · exact .inl (hfail _)
    all_goals exact .inl hn

end Sys2Proof.Machine
end

