-- ==== Sys2Proof/Laws/Step.lean ====
section
/-! SUPPORT. What step does with each kind of input, and where a host access lands. -/

namespace Sys2Proof.Machine

theorem firstEnabled_of_rst_false (i : Input) (rest : List Input) : firstEnabled false (i :: rest) = some (i, rest) := by
  simp [firstEnabled]

/-- With the next input given, step is that input's step on the state with the input taken. -/
theorem step_of_ready {s : State} {i : Input} {rest : List Input} (h : s.Ready i rest) :
    step s = advance i { s with inputs := rest } := by
  obtain ⟨hw, hr, hi⟩ := h
  simp [step, hw, State.nextInput, State.dropInput, hr, hi, firstEnabled]

/-! ### Free steps and the engine's weak fairness (R109) -/

theorem engineEnabled_iff (s : State) :
    s.engineEnabled = true ↔ s.busy = true ∧ s.rst = false ∧ s.drbgRequest = none ∧ s.codecRequest = none := by
  simp [State.engineEnabled, and_assoc]

theorem nextInput_of_nil {s : State} (h : s.inputs = []) : s.nextInput = s.freeStep := by
  simp [State.nextInput, h, firstEnabled]

theorem dropInput_of_nil {s : State} (h : s.inputs = []) :
    s.dropInput = { s with freeCtr := s.freeCtr + 1, patience := s.nextPatience } := by
  simp [State.dropInput, h, firstEnabled]

/-- Where the wait's bound is used up, the free step is the engine's. -/
theorem freeStep_of_patience_zero {s : State} (h : s.engineEnabled = true) (hp : s.patience = some 0) :
    s.freeStep = .engine := by
  simp [State.freeStep, h, hp]

/-- Each free step that passes an enabled engine over begins its wait or uses up one of the wait's steps. -/
theorem nextPatience_of_passed_over {s : State} (h : s.engineEnabled = true) (hf : s.freeStep ≠ .engine) :
    (s.patience = none ∧ s.nextPatience = some (Config.freeValue s.freeCtr)) ∨
      ∃ k, s.patience = some (k + 1) ∧ s.nextPatience = some k := by
  match hp : s.patience with
  | none => simp [State.nextPatience, h, hf, hp]
  | some 0 => exact absurd (freeStep_of_patience_zero h hp) hf
  | some (k + 1) => simp [State.nextPatience, h, hf, hp]

/-! ### Every step, and the host's accesses -/

/-- Every answer of step is an answer of advance, in an instance of R8. -/
theorem step_inv {s t : State} (h : step s = .next t) :
    s.params.wf = true ∧ advance s.nextInput s.dropInput = .next t := by
  unfold step at h
  split at h
  · exact ⟨‹_›, h⟩
  · cases h

theorem offsetOf_base_add (p : Params) (o : Word) : p.offsetOf (p.base + o) = o.toNat := by
  have h : p.base + o - p.base = o := by
    rw [BitVec.add_comm, BitVec.add_sub_cancel]
  simp [Params.offsetOf, h]

/-- A host access at a CSR's offset, 32 bits wide. -/
theorem hostAccess_csr (s : State) (c : Csr) (kind : AccessKind) :
    hostAccess ⟨s.params.base + BitVec.ofNat 32 c.offset, .b32, kind⟩ s =
      match kind with
      | .read => .next ((s.okay (s.csrWord c)).useFree c.freeUsed)
      | .write v => writeCsr c v (s.okay 0) := by
  have hlt : c.offset < bufWindow := by cases c <;> decide
  have ho : (BitVec.ofNat 32 c.offset).toNat = c.offset := by cases c <;> rfl
  have hc : csrAt .b32 c.offset = some c := by cases c <;> decide
  cases kind <;> simp only [hostAccess, offsetOf_base_add, ho, hlt, if_true, csrAccess, hc]

/-- The host's write of CMD is the issue of the word. -/
theorem hostAccess_cmdWrite (s : State) (w : Word) : hostAccess (cmdWrite s.params w) s = issue w (s.okay 0) := by
  have h := hostAccess_csr s .cmd (.write w)
  exact h

end Sys2Proof.Machine
end

