-- ==== Sys2Proof/Laws/Invariant.lean ====
section
/-! SUPPORT. How the shared operations keep the parts of the invariant. -/

namespace Sys2Proof.Machine

/-! ### Registers and BUF -/

theorem polysBounded_setPoly {s : State} (h : s.PolysBounded) (d : Reg) {v : Nat} (hv : v < 2 ^ s.params.n) :
    (s.setPoly d v).PolysBounded := by
  intro i
  by_cases hi : i = d
  · subst hi; rw [poly_setPoly_self]; exact hv
  · rw [poly_setPoly_of_ne _ _ hi]; exact h i

theorem bufOk_storeBytes {s : State} (h : s.BufOk) (a : Nat) (bs : List Byte)
    (hb : a + bs.length ≤ s.params.bufBytes) : (s.storeBytes a bs).BufOk := by
  refine ⟨writeBytes_wf h.1 a bs, fun c hc => ?_⟩
  have hk : c.1 ∈ (Memory.writeBytes s.buf a bs).map Prod.fst := List.mem_map_of_mem hc
  rw [mem_keys_writeBytes] at hk
  rcases hk with h1 | h1
  · show c.1 < s.params.bufBytes; omega
  · obtain ⟨x, hx, he⟩ := List.mem_map.mp h1
    rw [← he]; exact h.2 x hx

theorem polysBounded_drawPoly {s : State} (h : s.PolysBounded) (d : Reg) : (s.drawPoly d).PolysBounded :=
  polysBounded_setPoly h d (Nat.mod_lt _ (by positivity))

theorem bufOk_drawRange {s : State} (h : s.BufOk) (a len : Nat) (hb : a + len ≤ s.params.bufBytes) :
    (s.drawRange a len).BufOk :=
  bufOk_storeBytes h a (freeBytes s.freeCtr len) (by simpa [freeBytes] using hb)

/-- Spoiling an aborted command's destination keeps the registers' and BUF's part of the invariant. -/
theorem spoilDestination_ok {s : State} (hp : s.PolysBounded) (hb : s.BufOk) (i : Instr) :
    (s.spoilDestination i).PolysBounded ∧ (s.spoilDestination i).BufOk ∧ (s.spoilDestination i).params = s.params := by
  cases i <;> unfold State.spoilDestination <;> dsimp only
  all_goals first
    | exact ⟨hp, hb, rfl⟩
    | exact ⟨polysBounded_drawPoly hp _, hb, rfl⟩
    | skip
  all_goals split
  all_goals first
    | exact ⟨hp, hb, rfl⟩
    | skip
  all_goals rename_i h
  all_goals simp [Params.inBuf, State.rmRangesOk] at h
  · exact ⟨hp, bufOk_drawRange hb _ _ h, rfl⟩
  · exact ⟨hp, bufOk_drawRange hb _ _ h.1.2, rfl⟩
  · exact ⟨hp, bufOk_drawRange hb _ _ h.1.2, rfl⟩
  · exact ⟨hp, bufOk_drawRange hb _ _ h, rfl⟩

/-! ### Results -/

theorem rotlN_lt (n b i : Nat) : rotlN n b i < 2 ^ n := Nat.mod_lt _ (by positivity)

theorem cyclicMul_lt (n b a : Nat) : cyclicMul n b a < 2 ^ n := by
  suffices ∀ (l : List Nat) (acc : Nat), acc < 2 ^ n →
      l.foldl (fun acc i => if a.testBit i then acc ^^^ rotlN n b i else acc) acc < 2 ^ n from
    this _ _ (by positivity)
  intro l
  induction l with
  | nil => intro acc h; exact h
  | cons x l ih =>
    intro acc h
    rw [List.foldl_cons]
    apply ih
    split
    · exact Nat.xor_lt_two_pow h (rotlN_lt n b x)
    · exact h

/-- A concatenated codeword fits a register where CC_AVAIL = 1. -/
theorem codeword_lt {p : Params} (h : p.ccAvail = true) {i : List Byte} (hi : i.length = p.ccN1) :
    beValue (rmEncode p.mult i) < 2 ^ p.n := by
  have h1 := beValue_lt (rmEncode p.mult i)
  rw [length_rmEncode, hi] at h1
  refine lt_of_lt_of_le h1 ?_
  have h2 : 8 * p.ccL ≤ p.n := by simpa [Params.ccAvail] using h
  have e : (256 : Nat) = 2 ^ 8 := rfl
  rw [e, ← pow_mul]
  exact Nat.pow_le_pow_right (by omega) h2

theorem length_stagedCodeword {s : State} (h : s.HiddenOk) : s.stagedCodeword.length = s.params.ccN1 := by
  have hs := h.2.2.2.2
  simp only [State.stagedCodeword, List.length_take, hs, Params.stagingBytes]
  omega

/-! ### The soft vector and the correlation array (R38, R93) -/

@[simp] theorem length_softVector (m : Nat) (x : List Byte) : (softVector m x).length = 128 := by simp [softVector]

theorem softCount_le (m : Nat) (x : List Byte) (j : Nat) : softCount m x j ≤ m := by
  induction m with
  | zero => simp [softCount]
  | succ m ih =>
    simp only [softCount, List.range_succ, List.foldl_append, List.foldl_cons, List.foldl_nil] at *
    have h := Bool.toNat_le (blockBit x m j)
    omega

theorem softVector_le {m : Nat} {x : List Byte} {c : Nat} (h : c ∈ softVector m x) : c ≤ m := by
  obtain ⟨j, _, rfl⟩ := List.mem_map.mp h
  exact softCount_le m x j

theorem mem_zipWith {f : Int → Int → Int} {t : Int} :
    ∀ {xs ys : List Int}, t ∈ List.zipWith f xs ys → ∃ a ∈ xs, ∃ b ∈ ys, t = f a b
  | [], _, h => by simp at h
  | _ :: _, [], h => by simp at h
  | x :: xs, y :: ys, h => by
    rcases List.mem_cons.mp (by simpa using h) with rfl | h
    · exact ⟨x, by simp, y, by simp, rfl⟩
    · obtain ⟨a, ha, b, hb, e⟩ := mem_zipWith h
      exact ⟨a, by simp [ha], b, by simp [hb], e⟩

theorem length_halves {k : Nat} {v : List Int} (h : v.length = 2 ^ (k + 1)) (f : Int → Int → Int) :
    (List.zipWith f (v.take (2 ^ k)) (v.drop (2 ^ k))).length = 2 ^ k := by
  simp [h, pow_succ]; omega

theorem length_hadamard {k : Nat} : ∀ {v : List Int}, v.length = 2 ^ k → (hadamard k v).length = 2 ^ k := by
  induction k with
  | zero => intro v h; exact h
  | succ k ih =>
    intro v h
    simp only [hadamard, List.length_append, ih (length_halves h _), pow_succ]
    omega

/-- Each doubling at most doubles the magnitudes. -/
theorem natAbs_hadamard_le {k B : Nat} :
    ∀ {v : List Int}, (∀ x ∈ v, x.natAbs ≤ B) → ∀ t ∈ hadamard k v, t.natAbs ≤ 2 ^ k * B := by
  induction k generalizing B with
  | zero => intro v h t ht; simpa using h t ht
  | succ k ih =>
    intro v h t ht
    have e : 2 ^ (k + 1) * B = 2 ^ k * (2 * B) := by rw [pow_succ]; ring
    rw [e]
    rcases List.mem_append.mp ht with ht | ht <;> refine ih (fun x hx => ?_) t ht <;>
      obtain ⟨a, ha, b, hb, rfl⟩ := mem_zipWith hx <;>
      have h1 := h a (List.mem_of_mem_take ha) <;> have h2 := h b (List.mem_of_mem_drop hb) <;> omega

/-- The first coordinate is the plain sum, so it is not negative where no entry is. -/
theorem hadamard_head_nonneg {k : Nat} : ∀ {v : List Int}, v.length = 2 ^ k → (∀ x ∈ v, 0 ≤ x) →
    ∃ t ts, hadamard k v = t :: ts ∧ 0 ≤ t := by
  induction k with
  | zero =>
    intro v h hv
    obtain ⟨t, rfl⟩ := List.length_eq_one_iff.mp h
    exact ⟨t, [], rfl, hv t (by simp)⟩
  | succ k ih =>
    intro v h hv
    obtain ⟨t, ts, e, ht⟩ := ih (length_halves h (· + ·)) fun x hx => by
      obtain ⟨a, ha, b, hb, rfl⟩ := mem_zipWith hx
      have h1 := hv a (List.mem_of_mem_take ha)
      have h2 := hv b (List.mem_of_mem_drop hb)
      show 0 ≤ a + b
      omega
    refine ⟨t, ts ++ hadamard k (List.zipWith (· - ·) (v.take (2 ^ k)) (v.drop (2 ^ k))), ?_, ht⟩
    simp only [hadamard, e, List.cons_append]

/-- A correlation array has 128 entries, and in an instance of R8 each fits 16 bits (signed). -/
theorem correlate_ok {m : Nat} (hm : m ≤ 255) {sv : List Nat} (hl : sv.length = 128) (hs : ∀ c ∈ sv, c ≤ m) :
    (correlate m sv).length = 128 ∧ ∀ t ∈ correlate m sv, -32768 ≤ t ∧ t < 32768 := by
  have hlen : (sv.map Int.ofNat).length = 2 ^ 7 := by simp [hl]
  have hmem : ∀ x ∈ sv.map Int.ofNat, 0 ≤ x ∧ x.natAbs ≤ m := by
    intro x hx
    obtain ⟨c, hc, rfl⟩ := List.mem_map.mp hx
    exact ⟨Int.natCast_nonneg c, hs c hc⟩
  have hb := natAbs_hadamard_le (k := 7) fun x hx => (hmem x hx).2
  have hh := length_hadamard hlen
  obtain ⟨t, ts, e, ht⟩ := hadamard_head_nonneg hlen fun x hx => (hmem x hx).1
  unfold correlate
  rw [e] at hb hh ⊢
  refine ⟨hh, fun y hy => ?_⟩
  rcases List.mem_cons.mp hy with rfl | hy
  · have h1 := hb t (by simp)
    omega
  · have h1 := hb y (by simp [hy])
    omega

/-- Setting one clear bit below n adds one to the number of set bits below n. -/
theorem setBits_or_two_pow {c v n : Nat} (hv : v < n) (hc : c.testBit v = false) :
    ((List.range n).filter fun i => (c ||| 2 ^ v).testBit i).length =
      ((List.range n).filter fun i => c.testBit i).length + 1 := by
  have key : ∀ k, ((List.range k).filter fun i => (c ||| 2 ^ v).testBit i).length =
      ((List.range k).filter fun i => c.testBit i).length + if v < k then 1 else 0 := by
    intro k
    simp only [← List.countP_eq_length_filter]
    induction k with
    | zero => simp
    | succ k ih =>
      rw [List.range_succ, List.countP_append, List.countP_append, ih]
      simp only [List.countP_cons, List.countP_nil, Nat.testBit_or, Nat.testBit_two_pow]
      by_cases e : v = k
      · subst e; simp [hc]
      · by_cases h : c.testBit k <;> simp [e, h] <;> split <;> split <;> omega
  rw [key, if_pos hv]

/-- Taking a draw keeps the sampler's part of the invariant. -/
theorem samplerOk_takeDraw {s : State} {bs : List Byte} (hs : s.SamplerOk) (hr : s.remaining ≠ 0) :
    (s.takeDraw bs).SamplerOk := by
  by_cases h : s.accepts (drawValue s.params bs) = true
  · rw [takeDraw_of_accepted s h]
    obtain ⟨hv, hn⟩ := (accepts_iff s _).mp h
    refine ⟨Nat.or_lt_two_pow hs.1 (Nat.pow_lt_pow_right (by omega) hv), ?_⟩
    have e := setBits_or_two_pow hv hn
    have h2 := hs.2
    show ((List.range s.params.n).filter fun i => (s.candidate ||| 2 ^ drawValue s.params bs).testBit i).length +
      (s.remaining - 1).toNat = s.count
    have h3 : (s.remaining - 1).toNat = s.remaining.toNat - 1 := by bv_omega
    have h4 : 0 < s.remaining.toNat := by bv_omega
    omega
  · rw [takeDraw_of_rejected s h]; exact hs

/-! ### The hidden state (R38) -/

/-- HiddenOk reads only these fields. -/
theorem hiddenOk_congr {s t : State} (h : s.HiddenOk) (h1 : t.params = s.params) (h2 : t.mulAcc = s.mulAcc)
    (h3 : t.candidate = s.candidate) (h4 : t.soft = s.soft) (h5 : t.corr = s.corr) (h6 : t.staging = s.staging) :
    t.HiddenOk := by
  unfold State.HiddenOk; rw [h1, h2, h3, h4, h5, h6]; exact h

theorem hiddenOk_setMulAcc {s : State} (h : s.HiddenOk) {v : Nat} (hv : v < 2 ^ s.params.n) :
    (s.setMulAcc v).HiddenOk := ⟨hv, h.2⟩

theorem hiddenOk_startSample {s : State} (h : s.HiddenOk) : s.startSample.HiddenOk :=
  ⟨h.1, Nat.two_pow_pos _, h.2.2⟩

theorem hiddenOk_takeDraw {s : State} (h : s.HiddenOk) (bs : List Byte) : (s.takeDraw bs).HiddenOk := by
  by_cases ha : s.accepts (drawValue s.params bs) = true
  · rw [takeDraw_of_accepted s ha]
    exact ⟨h.1, Nat.or_lt_two_pow h.2.1 (Nat.pow_lt_pow_right (by omega) ((accepts_iff s _).mp ha).1), h.2.2⟩
  · rw [takeDraw_of_rejected s ha]; exact h

theorem hiddenOk_stage {s : State} (h : s.HiddenOk) {bs : List Byte} (hb : bs.length ≤ s.params.stagingBytes) :
    (s.stage bs).HiddenOk := by
  refine ⟨h.1, h.2.1, h.2.2.1, h.2.2.2.1, ?_⟩
  have hs := h.2.2.2.2
  show (bs ++ s.staging.drop bs.length).length = s.params.stagingBytes
  simp only [List.length_append, List.length_drop, hs]
  omega

theorem hiddenOk_noteCorrelation {s : State} (h : s.HiddenOk) (hm : s.params.mult ≤ 255) (cnt : Nat) (x : List Byte) :
    (s.noteCorrelation cnt x).HiddenOk := by
  unfold State.noteCorrelation
  split
  · exact h
  · have hl := length_softVector s.params.mult (blockAt s.params.n2Bytes (cnt - 1) x)
    have hs := fun c => softVector_le (c := c) (m := s.params.mult) (x := blockAt s.params.n2Bytes (cnt - 1) x)
    dsimp only
    generalize softVector s.params.mult (blockAt s.params.n2Bytes (cnt - 1) x) = sv at hl hs ⊢
    have hc := correlate_ok hm hl hs
    generalize correlate s.params.mult sv = t at hc ⊢
    exact ⟨h.1, h.2.1, ⟨hl, fun c h => Nat.lt_succ_of_le ((hs c h).trans hm)⟩, hc, h.2.2.2.2⟩

theorem hiddenOk_freeHidden (s : State) : s.freeHidden.HiddenOk := by
  refine ⟨Nat.mod_lt _ (by positivity), Nat.mod_lt _ (by positivity), ⟨by simp [State.freeHidden], fun c hc => ?_⟩,
    ⟨by simp [State.freeHidden], fun t ht => ?_⟩, by simp [State.freeHidden, freeBytes]⟩
  · obtain ⟨j, _, rfl⟩ := List.mem_map.mp hc
    exact Nat.mod_lt _ (by omega)
  · obtain ⟨j, _, rfl⟩ := List.mem_map.mp ht
    have h1 := BitVec.le_toInt (BitVec.ofNat 16 (Config.freeValue (s.freeCtr + 137 + j)))
    have h2 := BitVec.toInt_lt (x := BitVec.ofNat 16 (Config.freeValue (s.freeCtr + 137 + j)))
    norm_num at h1 h2
    exact ⟨h1, h2⟩

theorem hiddenOk_resetOf (p : Params) : (State.resetOf p).HiddenOk := by
  refine ⟨Nat.two_pow_pos _, Nat.two_pow_pos _, ⟨by simp [State.resetOf], fun c hc => ?_⟩,
    ⟨by simp [State.resetOf], fun t ht => ?_⟩, by simp [State.resetOf]⟩
  · rw [List.eq_of_mem_replicate hc]; omega
  · rw [List.eq_of_mem_replicate ht]; omega

/-- MULT fits 8 bits in an instance of R8. -/
theorem mult_le_of_wf {p : Params} (h : p.wf = true) : p.mult ≤ 255 := by
  simp only [Params.wf, Bool.and_eq_true, Params.multOk, decide_eq_true_eq] at h
  exact h.1.1.1.1.2.2

/-! ### Putting the invariant together -/

theorem latchOk_of_idle {s : State} (h : s.busy = false) : s.LatchOk := fun h' => by rw [h] at h'; cases h'

theorem idleOk_of_busy {s : State} (h : s.busy = true) : s.IdleOk := fun h' => by rw [h] at h'; cases h'

theorem errorOk_recordError (s : State) {e : ErrCode} (he : e ≠ .none) (o : Byte) : (s.recordError e o).ErrorOk :=
  ⟨⟨fun _ => he, fun _ => rfl⟩, fun h => by cases h⟩

theorem errorOk_of_none {s : State} (h1 : s.err = false) (h2 : s.errCode = .none) (h3 : s.errOpc = 0) : s.ErrorOk := by
  simp [State.ErrorOk, h1, h2, h3]

/-- A state with no command running, STATE IDLE and no request outstanding. -/
theorem inv_of_quiet {s : State} (hw : s.params.wf = true) (hp : s.PolysBounded) (hb : s.BufOk) (he : s.ErrorOk)
    (hh : s.HiddenOk) (h1 : s.busy = false) (h2 : s.fsm = .idle) (h3 : s.phase = .start) : s.Inv :=
  ⟨hw, hp, hb, he, hh, fun _ => ⟨h2, h3⟩, latchOk_of_idle h1⟩

/-- A state with a command running, at a phase it can stand at. -/
theorem inv_of_busy {s : State} {i : Instr} (hw : s.params.wf = true) (hp : s.PolysBounded) (hb : s.BufOk)
    (he : s.ErrorOk) (hh : s.HiddenOk) (h1 : s.busy = true) (hd : decode s.params s.cur.word = .ok i) (hn : i ≠ .nop)
    (ht : s.weightTooBig i = false) (hf : s.PhaseOk i) : s.Inv :=
  ⟨hw, hp, hb, he, hh, idleOk_of_busy h1, fun _ => ⟨i, hd, hn, ht, hf⟩⟩

/-- The invariant reads only these fields. -/
theorem inv_congr {s t : State} (h : s.Inv) (h1 : t.params = s.params) (h2 : t.polys = s.polys) (h3 : t.buf = s.buf)
    (h4 : s.SameErrors t) (h5 : t.busy = s.busy) (h6 : t.fsm = s.fsm) (h7 : t.phase = s.phase) (h8 : t.cur = s.cur)
    (h9 : t.mulAcc = s.mulAcc) (h10 : t.candidate = s.candidate) (h11 : t.remaining = s.remaining)
    (h12 : t.soft = s.soft) (h13 : t.corr = s.corr) (h14 : t.staging = s.staging) : t.Inv := by
  obtain ⟨e1, e2, e3⟩ := h4
  obtain ⟨a, b, c, d, e, f, g⟩ := h
  refine ⟨by rw [h1]; exact a, fun i => by rw [h1, poly_congr h2]; exact b i,
    by unfold State.BufOk; rw [h1, h3]; exact c, by unfold State.ErrorOk; rw [e1, e2, e3]; exact d,
    hiddenOk_congr e h1 h9 h10 h12 h13 h14, by unfold State.IdleOk; rw [h5, h6, h7]; exact f, fun hb => ?_⟩
  rw [h5] at hb
  obtain ⟨i, p, q, r, u⟩ := g hb
  refine ⟨i, by rw [h1, h8]; exact p, q, by unfold State.weightTooBig State.count; rw [h1, h8]; exact r, ?_⟩
  unfold State.PhaseOk State.SamplerOk State.dst State.count at *
  rw [h1, h6, h7, h8, h10, h11]
  exact u

/-- A command of the concatenated code decodes only where CC_AVAIL = 1. -/
theorem ccAvail_of_decode {p : Params} {w : Word} {i : Instr} (h : decode p w = .ok i)
    (hi : i.opcode.needsCc = true) : p.ccAvail = true := by
  unfold decode at h
  split at h
  · cases h
  · rename_i o _
    split at h
    · cases h
    · rename_i hc
      split at h
      · have e : i.opcode = o := by
          cases o <;> simp only [Opcode.operands, Except.map, Except.bind] at h <;> (repeat' split at h) <;>
            first | (cases h; done) | (injection h with h; subst h; rfl)
        rw [e] at hi
        simpa [hi] using hc
      · cases h

end Sys2Proof.Machine
end

