-- ==== Sys2Proof/Laws/PerInstr.lean ====
section
/-! SUPPORT. A statement about every command as syntax, proved constructor by constructor. -/

namespace Sys2Proof

/-- A command's word has the OPC of its opcode and exactly the bits R69's mask column asks of it, and its used fields
are the command's operands: the opcode's fields of the word give the command back (R65, R66, R69). -/
def Laws.EncodingFitsTable.Statement (i : Instr) : Prop :=
  opcField (encode i) = i.opcode.byte ∧ encode i &&& i.opcode.maskBits = i.opcode.matchBits ∧
    i.opcode.operands (pdField (encode i)) (paField (encode i)) (pbField (encode i)) = .ok i

theorem Laws.EncodingFitsTable.nop : Laws.EncodingFitsTable.Statement .nop := by exact ⟨rfl, rfl, rfl⟩

theorem Laws.EncodingFitsTable.pzero (d : Reg) : Laws.EncodingFitsTable.Statement (.pzero d) := by
  fin_cases d <;> exact ⟨rfl, rfl, rfl⟩

theorem Laws.EncodingFitsTable.pmov (d a : Reg) : Laws.EncodingFitsTable.Statement (.pmov d a) := by
  fin_cases d <;> fin_cases a <;> exact ⟨rfl, rfl, rfl⟩

theorem Laws.EncodingFitsTable.pxor (d a b : Reg) : Laws.EncodingFitsTable.Statement (.pxor d a b) := by
  fin_cases d <;> fin_cases a <;> fin_cases b <;> exact ⟨rfl, rfl, rfl⟩

theorem Laws.EncodingFitsTable.pmul (d a b : Reg) : Laws.EncodingFitsTable.Statement (.pmul d a b) := by
  fin_cases d <;> fin_cases a <;> fin_cases b <;> exact ⟨rfl, rfl, rfl⟩

theorem Laws.EncodingFitsTable.sample (d : Reg) : Laws.EncodingFitsTable.Statement (.sample d) := by
  fin_cases d <;> exact ⟨rfl, rfl, rfl⟩

theorem Laws.EncodingFitsTable.loadp (d : Reg) : Laws.EncodingFitsTable.Statement (.loadp d) := by
  fin_cases d <;> exact ⟨rfl, rfl, rfl⟩

theorem Laws.EncodingFitsTable.storep (a : Reg) : Laws.EncodingFitsTable.Statement (.storep a) := by
  fin_cases a <;> exact ⟨rfl, rfl, rfl⟩

theorem Laws.EncodingFitsTable.rmenc : Laws.EncodingFitsTable.Statement .rmenc := by exact ⟨rfl, rfl, rfl⟩

theorem Laws.EncodingFitsTable.rmdec : Laws.EncodingFitsTable.Statement .rmdec := by exact ⟨rfl, rfl, rfl⟩

theorem Laws.EncodingFitsTable.ccenc (d : Reg) : Laws.EncodingFitsTable.Statement (.ccenc d) := by
  fin_cases d <;> exact ⟨rfl, rfl, rfl⟩

theorem Laws.EncodingFitsTable.ccdec (a : Reg) : Laws.EncodingFitsTable.Statement (.ccdec a) := by
  fin_cases a <;> exact ⟨rfl, rfl, rfl⟩

end Sys2Proof
end

