-- ==== Sys2Proof/Tests/Slice0.lean ====
section
/-! SUPPORT. The model's own tests: well-formedness, decoding of words written out from 30_encoding.md, one step of each
command with results from 95_test_vectors.md, and a witness for the hypotheses of each statement. -/

namespace Sys2Proof.Tests

open Sys2Proof.Machine

/-! ### Small states -/

/-- `I(N, MULT, CC_K, CC_N1, BUF_BYTES)` of 95 section 0, at BASE 0. -/
def inst (n mult ccK ccN1 bufBytes : Nat) : Params := ⟨n, mult, ccK, ccN1, bufBytes, 0⟩

def instA : Params := inst 8 1 1 1 256
def instB : Params := inst 131 1 1 1 256
def instD : Params := inst 10 1 1 1 256
def instE : Params := inst 8 6 1 1 512

/-- An idle machine with the wide operands in ARG0 to ARG2 and the given coming steps. -/
def idle (p : Params) (a0 a1 a2 : Nat) (coming : List Input) : State :=
  { State.resetOf p with
    arg0 := BitVec.ofNat 32 a0, arg1 := BitVec.ofNat 32 a1, arg2 := BitVec.ofNat 32 a2, inputs := coming }

/-- A machine that has accepted the word `w` with these wide operands, at its next engine turn. -/
def running (p : Params) (w : Nat) (f : Fsm) (a0 a1 a2 : Nat) : State :=
  { State.resetOf p with
    cur := ⟨BitVec.ofNat 32 w, BitVec.ofNat 32 a0, BitVec.ofNat 32 a1, BitVec.ofNat 32 a2⟩
    busy := true, fsm := f, inputs := [.engine] }

/-- P[i] written with `v`. -/
def withPoly (s : State) (i : Reg) (v : Nat) : State := s.setPoly i v

/-- BUF bytes written at `a`. -/
def withBuf (s : State) (a : Nat) (bs : List Byte) : State := s.storeBytes a bs

/-- A step ends in a next state of which `f` holds. -/
def answers (o : Host.Outcome State Fault Refusal) (f : State → Bool) : Bool :=
  match o with
  | .next t => f t
  | .fault _ => false
  | .refused _ => false

/-- BUF's bytes at `a`, none where unwritten. -/
def bufAt (s : State) (a len : Nat) : List (Option Byte) := (List.range len).map fun t => Memory.read s.buf (a + t)

/-- STATUS and ERRCODE once no command runs. -/
def report (s : State) : Nat × Nat := (s.statusWord.toNat, s.errcodeWord.toNat)

/-! ### Well-formedness (R8, R70) -/

theorem test_wf_instances : (instA.wf && instB.wf && instD.wf && instE.wf && Params.default.wf) = true := by decide

theorem test_wf_refuses_small_n : (inst 1 1 1 1 256).nOk = false ∧ (inst 1 1 1 1 256).wf = false := by decide

theorem test_wf_refuses_wide_n : (inst (2 ^ 32) 1 1 1 0xFFFF0000).nOk = false := by decide

theorem test_wf_refuses_mult : (inst 8 0 1 1 256).multOk = false ∧ (inst 8 256 1 1 256).multOk = false := by decide

theorem test_wf_refuses_ccK : (inst 8 1 0 1 256).ccKOk = false ∧ (inst 8 1 65536 1 65540).ccKOk = false := by decide

theorem test_wf_refuses_ccN1 : (inst 8 1 1 0 256).ccN1Ok = false ∧ (inst 8 1 1 65536 256).ccN1Ok = false := by decide

theorem test_wf_refuses_small_buf : (inst 32 1 1 1 4).bufHolds = false ∧ (inst 8 1 8 1 4).bufHolds = false := by decide

theorem test_wf_refuses_odd_buf : (inst 8 1 1 1 258).bufOk = false ∧ (inst 8 1 1 1 0xFFFF0004).bufOk = false := by decide

theorem test_wf_refuses_cc_commands :
    (Instr.ccenc 0).wellFormed instA = false ∧ (Instr.ccdec 0).wellFormed instA = false := by decide

/-! ### Decoding (R65, R69; every word written out from R69's row and R72's operand order) -/

theorem test_decode_nop : decode instB 0x00000000#32 = .ok .nop := by rfl
theorem test_decode_pzero : decode instB 0x01700000#32 = .ok (.pzero 7) := by rfl
theorem test_decode_pmov : decode instB 0x02610000#32 = .ok (.pmov 6 1) := by rfl
theorem test_decode_pxor : decode instB 0x03320000#32 = .ok (.pxor 3 2 0) := by rfl
theorem test_decode_pmul : decode instB 0x04201000#32 = .ok (.pmul 2 0 1) := by rfl
theorem test_decode_sample : decode instB 0x08400000#32 = .ok (.sample 4) := by rfl
theorem test_decode_loadp : decode instB 0x10600000#32 = .ok (.loadp 6) := by rfl
theorem test_decode_storep : decode instB 0x11050000#32 = .ok (.storep 5) := by rfl
theorem test_decode_rmenc : decode instB 0x18000000#32 = .ok .rmenc := by rfl
theorem test_decode_rmdec : decode instB 0x19000000#32 = .ok .rmdec := by rfl
theorem test_decode_ccenc : decode instB 0x20700000#32 = .ok (.ccenc 7) := by rfl
theorem test_decode_ccdec : decode instB 0x21070000#32 = .ok (.ccdec 7) := by rfl

/-- R71, R112: reserved words, and the must-be-zero check before the field check (95 section 2.1). -/
theorem test_decode_rejects :
    decode instB 0x01880000#32 = .error .illegalEncoding ∧ decode instB 0x01800000#32 = .error .illegalOperand ∧
      decode instB 0x22000000#32 = .error .illegalEncoding ∧ decode instA 0x20700000#32 = .error .illegalEncoding := by
  exact ⟨rfl, rfl, rfl, rfl⟩

/-- No word fits two rows of R69. -/
theorem test_opcode_rows_disjoint :
    Opcode.all.Pairwise fun o q => o.matchBits &&& q.maskBits &&& o.maskBits ≠ q.matchBits &&& o.maskBits := by decide

theorem test_decodeTableWord : decodeTableWord 32 0x04201000 = some (.pmul 2 0 1) := by rfl

/-! ### One step of each command (95 sections 2.1 to 2.6) -/

/-- 2.1, R106: NOP completes in its CMD write; STATUS 0x02. -/
theorem test_nop :
    answers (step (idle instA 0 0 0 [.host (cmdWrite instA 0x00000000#32)])) (fun t => report t == (2, 0)) = true := by
  decide

/-- 2.2: reads nothing, result 0. -/
theorem test_pzero : answers (step (withPoly (running instA 0x01700000 .poly 0 0 0) 7 0xA5))
    (fun t => t.poly 7 == 0 && report t == (2, 0)) = true := by decide

/-- 2.2: a copy, P[pa] unchanged. -/
theorem test_pmov : answers (step (withPoly (running instA 0x02610000 .poly 0 0 0) 1 0xA5))
    (fun t => t.poly 6 == 0xA5 && t.poly 1 == 0xA5 && !t.uninitPoly) = true := by decide

/-- U1: a source unwritten since power-on is recorded, and the command still completes. -/
theorem test_pmov_unwritten_source : answers (step (running instA 0x02610000 .poly 0 0 0))
    (fun t => t.uninitPoly && report t == (2, 0)) = true := by decide

/-- 2.2, aliasing: P1 = 0x0F and P3 = 0x3C, PXOR p1, p1, p3 gives 0x33. -/
theorem test_pxor_aliased : answers (step (withPoly (withPoly (running instA 0x03113000 .poly 0 0 0) 1 0x0F) 3 0x3C))
    (fun t => t.poly 1 == 0x33 && t.poly 3 == 0x3C) = true := by decide

/-- 2.2: N = 8, b = 0x81, a = 0x03 gives 0x82. -/
theorem test_pmul : answers (step (withPoly (withPoly (running instA 0x04201000 .poly 0 0 0) 0 0x81) 1 3))
    (fun t => t.poly 2 == 0x82) = true := by decide

/-- 2.2, aliasing: PMUL p2, p2, p2 with P2 = 0xA5 gives 0x55. -/
theorem test_pmul_aliased : answers (step (withPoly (running instA 0x04222000 .poly 0 0 0) 2 0xA5))
    (fun t => t.poly 2 == 0x55) = true := by decide

/-- 2.4.2, first row: N = 10, W = 2; the fourth draw, 0x90, gives 9, and the vector 0x208 with SAMPLE_DRAWS 4. -/
theorem test_sample_last_draw :
    answers (step { running instD 0x08000000 .sample 0 2 0 with
        phase := .drbgGot [0x90#8], candidate := 8, remaining := 1, draws := 3 })
      (fun t => t.poly 0 == 0x208 && t.sampleDraws == 4#32 && report t == (2, 0)) = true := by decide

/-- 2.4.2, the last row: N = 10, W = 2, SAMPLE_LIMIT = 1: one draw, then SAMPLE_BUDGET and P0 keeps 1. -/
theorem test_sample_budget :
    answers (step (withPoly { running instD 0x08000000 .sample 0 2 0 with
        phase := .drbgGot [0x30#8], remaining := 2, limit := 1#32 } 0 1))
      (fun t => t.poly 0 == 1 && t.sampleDraws == 1#32 && report t == (6, 0x806)) = true := by decide

/-- R35, R38: the 32-bit count stays at its largest value. -/
theorem test_draw_count : satSucc 0xFFFFFFFF#32 = 0xFFFFFFFF#32 ∧ satSucc 0xFFFFFFFE#32 = 0xFFFFFFFF#32 := by decide

/-- 2.3, instance D: 03 FF gives 0x3FF. -/
theorem test_loadp : answers (step (withBuf (running instD 0x10000000 .xfer 0 0 0) 0 [0x03#8, 0xFF#8]))
    (fun t => t.poly 0 == 0x3FF && report t == (2, 0)) = true := by decide

/-- 2.3, instance A: 01 00 is SERIALIZATION, P0 keeps 1. -/
theorem test_loadp_serialization :
    answers (step (withPoly (withBuf (running instA 0x10000000 .xfer 0 0 0) 0 [0x01#8, 0x00#8]) 0 1))
      (fun t => t.poly 0 == 1 && report t == (6, 0x1005)) = true := by decide

/-- 2.3, instance A: dst = 0xFE, P5 = 0xA5. -/
theorem test_storep : answers (step (withPoly (running instA 0x11050000 .xfer 0 0 0xFE) 5 0xA5))
    (fun t => bufAt t 0xFE 2 == [some 0x00#8, some 0xA5#8]) = true := by decide

/-- 2.3, instance A: dst = 0xFFFFFFFF does not wrap. -/
theorem test_storep_range : answers (step (withPoly (running instA 0x11050000 .xfer 0 0 0xFFFFFFFF) 5 0xA5))
    (fun t => t.buf == [] && report t == (6, 0x1104)) = true := by decide

/-- 2.5.4, instance A: 7F at dst = 0xF0. -/
theorem test_rmenc : answers (step (withBuf (running instA 0x18000000 .rmEnc 0 1 0xF0) 0 [0x7F#8]))
    (fun t => bufAt t 0xF0 16 == [0x69#8, 0x96#8, 0x96#8, 0x69#8, 0x96#8, 0x69#8, 0x69#8, 0x96#8, 0x96#8, 0x69#8,
      0x69#8, 0x96#8, 0x69#8, 0x96#8, 0x96#8, 0x69#8].map some) = true := by decide

/-- 2.5.4, instance A: the ranges 0x10..0x10 and 0x08..0x17 intersect. -/
theorem test_rmenc_overlap : answers (step (withBuf (running instA 0x18000000 .rmEnc 0x10 1 8) 0x10 [0x01#8]))
    (fun t => report t == (6, 0x1804)) = true := by decide

/-- 2.5.3, MULT = 1: 33 flipped bits of the block of 0x00 decode to 0xC0. -/
theorem test_rmdec : answers (step (withBuf (running instA 0x19000000 .rmDec 0x10 1 0) 0x10
      ([0xFF#8, 0xFF#8, 0xFF#8, 0xFF#8, 0x80#8] ++ List.replicate 11 0x00#8)))
    (fun t => bufAt t 0 1 == [some 0xC0#8] && report t == (2, 0)) = true := by decide +kernel

/-- 2.5.2, the last row: four coordinates tie at 32 and the lowest, 0, with T[0] = -32, wins. -/
theorem test_rmdec_tie :
    rmDecodeBlock 1 (List.replicate 4 0xFF#8 ++ List.replicate 12 0x00#8) = 0x00#8 := by decide +kernel

/-- 2.6, instance B: CCENC of 0x80 asks IC_ENC(80). -/
theorem test_ccenc_request : answers (step (withBuf (running instB 0x20700000 .ccInnerEnc 0x40 0 0) 0x40 [0x80#8]))
    (fun t => t.codecRequest == some (.enc [0x80#8]) && t.busy && t.fsm == .ccInnerEnc) = true := by decide

/-- 2.6, instance B: the inner codeword 5A gives P7 = BE(00 33 CC CC 33 ...). -/
theorem test_ccenc_result : answers (step { running instB 0x20700000 .ccRmEnc 0x40 0 0 with
      phase := .rmEncode, staging := [0x5A#8] })
    (fun t => t.poly 7 == 0x33CCCC3333CCCC33CC3333CCCC3333CC && report t == (2, 0)) = true := by decide +kernel

/-- 2.6, instance B: the codeword of 5A with bits 0 to 30 flipped asks IC_DEC(5A). -/
theorem test_ccdec_request :
    answers (step (withPoly (running instB 0x21070000 .ccRmDec 0 0 0xA0) 7
        (0x33CCCC3333CCCC33CC3333CCCC3333CC ^^^ 0x7FFFFFFF)))
      (fun t => t.codecRequest == some (.dec [0x5A#8]) && t.fsm == .ccInnerDec) = true := by decide +kernel

/-- 2.6, instance B: UNCORRECTABLE leaves BUF as it was. -/
theorem test_ccdec_uncorrectable :
    answers (step { withBuf (running instB 0x21070000 .ccInnerDec 0 0 0xA0) 0xA0 [0xEE#8] with
        phase := .codecGot .uncorrectable })
      (fun t => bufAt t 0xA0 1 == [some 0xEE#8] && report t == (6, 0x2108)) = true := by decide

/-! ### The host's accesses and reset (95 section 2.7) -/

/-- 2.7.1: PARAM_RM of instance A. -/
theorem test_read_param_rm : answers (step (idle instA 0 0 0 [.host ⟨0x0C#32, .b32, .read⟩]))
    (fun t => t.resp == some ⟨false, 0x00070801#32⟩) = true := by decide

/-- 2.7.2 rows 1 and 2: an unmapped offset, and a 16-bit access of a CSR. -/
theorem test_read_slverr :
    answers (step (idle instA 0 0 0 [.host ⟨0x3C#32, .b32, .read⟩])) (fun t => t.resp == some ⟨true, 0#32⟩) = true ∧
      answers (step (idle instA 0 0 0 [.host ⟨0x1C#32, .b16, .read⟩])) (fun t => t.resp == some ⟨true, 0#32⟩) = true := by
  decide

/-- 2.7.2 row 4: little-endian lanes. -/
theorem test_write_buf : answers (step (idle instA 0 0 0 [.host ⟨0x10000#32, .b32, .write 0x03008100#32⟩]))
    (fun t => bufAt t 0 4 == [some 0x00#8, some 0x81#8, some 0x00#8, some 0x03#8]) = true := by decide

/-- 2.7.2 row 13: NOP while BUSY records BUSY and does not set DONE. -/
theorem test_write_cmd_while_busy :
    answers (step { running instA 0x10000000 .xfer 0 0 0 with inputs := [.host (cmdWrite instA 0x00000000#32)] })
      (fun t => report t == (0x205, 1)) = true := by decide

/-- 2.7.2 row 28: a soft reset while BUSY. -/
theorem test_soft_reset :
    answers (step { running instA 0x04100000 .poly 0 2 0 with
        arg1 := 2#32, inputs := [.host ⟨0x18#32, .b32, .write 0x00000001#32⟩] })
      (fun t => report t == (0, 0) && t.arg1 == 0#32) = true := by decide

/-- How the host's checks run a command from reset: NOP, PMUL, SAMPLE and LOADP as the first instruction. -/
theorem test_withFetchWord :
    answers (step (State.reset.withFetchWord 32 0x00000000)) (fun t => t.done) = true ∧
      answers (step (State.reset.withFetchWord 32 0x04201000)) (fun t => t.done) = true ∧
      answers (step (State.reset.withFetchWord 32 0x08400000)) (fun t => t.done) = true ∧
      answers (step (State.reset.withFetchWord 32 0x10600000)) (fun _ => true) = true := by
  exact ⟨rfl, rfl, rfl, rfl⟩

/-! ### Witnesses: states and operands that meet the hypotheses of each statement -/

/-- A CSR access at offset `o`, BASE being 0. -/
def csr (o : Nat) (k : AccessKind) : Input := .host ⟨0 + BitVec.ofNat 32 o, .b32, k⟩

/-- A step taken: the state it leads to. -/
def after (s : State) (o : Host.Outcome State Fault Refusal) : State :=
  match o with
  | .next t => t
  | .fault _ => s
  | .refused _ => s

theorem test_witness_DecodeOfEncodeIsTheCommand : (Instr.ccdec 7).wellFormed instB = true := by decide

theorem test_witness_DecodedWordIsTheCommandsOnlyWord : decode instB 0x04777000#32 = .ok (.pmul 7 7 7) := by rfl

theorem test_witness_ReservedEncodingsAreIllegal :
    (0x05000000#32).toNat / 2 ^ 24 ∉ [0x00, 0x01, 0x02, 0x03, 0x04, 0x08, 0x10, 0x11, 0x18, 0x19, 0x20, 0x21] ∧
      (0xFFFFFFFF#32).toNat / 2 ^ 24 ∉ [0x00, 0x01, 0x02, 0x03, 0x04, 0x08, 0x10, 0x11, 0x18, 0x19, 0x20, 0x21] ∧
      ((0x00000001#32).toNat / 2 ^ 24 = Opcode.nop.byte.toNat ∧
        0x00000001#32 &&& Opcode.nop.maskBits ≠ Opcode.nop.matchBits) ∧
      instA.ccAvail = false ∧ (0x20000000#32).toNat / 2 ^ 24 = 0x20 ∧ (0x21000000#32).toNat / 2 ^ 24 = 0x21 := by
  decide

theorem test_witness_RegisterFieldsAboveSevenAreIllegalOperands :
    (8 : Nat) < 16 ∧ (15 : Nat) < 16 ∧ 8 ≤ (8 : Nat) ∧ instB.ccAvail = true := by decide

theorem test_witness_ExampleWordsDecodeAsWritten : instB.ccAvail = true := by decide

theorem test_witness_CommandWriteWhileBusyRecordsBusy :
    { running instA 0x10000000 .xfer 0 0 0 with inputs := [.host (cmdWrite instA 0x00000000#32)] }.Ready
      (.host (cmdWrite instA 0x00000000#32)) [] ∧
      (running instA 0x10000000 .xfer 0 0 0).busy = true := ⟨⟨rfl, rfl, rfl⟩, rfl⟩

theorem test_witness_RejectedWordRecordsItsErrorOnly :
    (idle instD 0 0 0 [.host (cmdWrite instD 0x05000000#32)]).Ready (.host (cmdWrite instD 0x05000000#32)) [] ∧
      (idle instD 0 0 0 []).busy = false ∧
      decode instD 0x05000000#32 = .error .illegalEncoding ∧ decode instD 0x01800000#32 = .error .illegalOperand ∧
      decode instD 0x08400000#32 = .ok (.sample 4) ∧ instD.n < (idle instD 0 11 0 []).arg1.toNat :=
  ⟨⟨rfl, rfl, rfl⟩, rfl, rfl, rfl, rfl, by decide⟩

theorem test_witness_AcceptedCommandIsLatched :
    (idle instD 0 10 0 [.host (cmdWrite instD 0x08400000#32)]).Ready (.host (cmdWrite instD 0x08400000#32)) [] ∧
      (idle instD 0 10 0 []).busy = false ∧ decode instD 0x08400000#32 = .ok (.sample 4) ∧
      Instr.sample 4 ≠ .nop ∧ (idle instD 0 10 0 []).arg1.toNat ≤ instD.n :=
  ⟨⟨rfl, rfl, rfl⟩, rfl, rfl, by decide, by decide⟩

theorem test_witness_NopCompletesInItsCommandWrite :
    (0x00000001#32).toNat / 2 ^ 24 = 0x00 ∧ 0x00000001#32 ≠ 0 ∧
      (idle instA 0 0 0 [.host (cmdWrite instA 0x00000000#32)]).Ready (.host (cmdWrite instA 0x00000000#32)) [] ∧
      (idle instA 0 0 0 []).busy = false ∧
      { running instA 0x10000000 .xfer 0 0 0 with inputs := [.host (cmdWrite instA 0x00000000#32)] }.Ready
        (.host (cmdWrite instA 0x00000000#32)) [] ∧
      (running instA 0x10000000 .xfer 0 0 0).busy = true :=
  ⟨by decide, by decide, ⟨rfl, rfl, rfl⟩, rfl, ⟨rfl, rfl, rfl⟩, rfl⟩

theorem test_witness_EngineTurnRunsTheLatchedCommand :
    (running instA 0x04201000 .poly 0 0 0).Ready .engine [] ∧ (running instA 0x04201000 .poly 0 0 0).busy = true ∧
      decode instA (running instA 0x04201000 .poly 0 0 0).cur.word = .ok (.pmul 2 0 1) ∧
      (idle instA 0 0 0 [.engine]).Ready .engine [] ∧ (idle instA 0 0 0 [.engine]).busy = false :=
  ⟨⟨rfl, rfl, rfl⟩, rfl, rfl, ⟨rfl, rfl, rfl⟩, rfl⟩

/-- A running PZERO p7 with P7 = 0xA5. -/
def pzeroState : State := withPoly (running instA 0x01700000 .poly 0 0 0) 7 0xA5

/-- A running STOREP p5 to the last two bytes of BUF, P5 = 0xA5. -/
def storepState : State := withPoly (running instA 0x11050000 .xfer 0xFE 0 0xFE) 5 0xA5

theorem test_witness_ResultsAreWrittenOnlyByErrorFreeCompletion :
    exec (.pzero 7) pzeroState = .next (pzeroState.runPzero 7) ∧
      ¬(pzeroState.SamePolys (pzeroState.runPzero 7) ∧ pzeroState.SameBuf (pzeroState.runPzero 7)) ∧
      exec (.storep 5) storepState = .next (storepState.runStorep 5) ∧
      ¬(storepState.SamePolys (storepState.runStorep 5) ∧ storepState.SameBuf (storepState.runStorep 5)) := by
  refine ⟨rfl, fun h => ?_, rfl, fun h => ?_⟩
  · exact absurd (h.1 7).1 (by decide)
  · exact absurd (h.2 0xFE) (by decide)

theorem test_witness_OnlyTheDestinationChanges : exec (.storep 5) storepState = .next (storepState.runStorep 5) := by rfl

theorem test_witness_CommandsKeepTheHostsRegisters :
    exec (.pzero 7) pzeroState = .next (pzeroState.runPzero 7) := by rfl

theorem test_witness_ResultsDoNotDependOnHiddenState :
    (running instD 0x08000000 .sample 0 2 0).phase = .start ∧
      (∃ t, exec (.sample 0) (running instD 0x08000000 .sample 0 2 0) = .next t) ∧
      ∃ t, Host.Core.run core 1 (running instD 0x08000000 .sample 0 2 0) = .next t := ⟨rfl, ⟨_, rfl⟩, ⟨_, rfl⟩⟩

theorem test_witness_PmulIsTheCyclicConvolution :
    (withPoly (withPoly (running instA 0x04201000 .poly 0 0 0) 0 0x81) 1 0xFF).PolysBounded := by
  unfold State.PolysBounded; decide

theorem test_witness_ConvolutionIsTheRingProduct : (0x81 : Nat) < 2 ^ 8 ∧ 0xFF < 2 ^ 8 ∧ 0 < 2 ^ 8 ∧ 7 < 8 := by decide

/-- A running LOADP p0 of the two bytes at `a`, which are `x` and `y`. -/
def loadpState (a : Nat) (x y : Byte) : State := withBuf (running instA 0x10000000 .xfer a 0 0) a [x, y]

theorem test_witness_LoadpDeserializes :
    instA.bufBytes < (loadpState 0xFF 0 0).cur.arg0.toNat + (instA.n / 8 + 1) ∧
      (loadpState 0xFE 0 0xFF).cur.arg0.toNat + (instA.n / 8 + 1) ≤ instA.bufBytes ∧
      HoldsBytes (loadpState 0xFE 0 0xFF) 0xFE 2 (fun t => [0x00#8, 0xFF#8].getD t 0) ∧
      bigEndian 2 (fun t => [0x00#8, 0xFF#8].getD t 0) < 2 ^ 8 ∧
      HoldsBytes (loadpState 0xFE 1 0) 0xFE 2 (fun t => [0x01#8, 0x00#8].getD t 0) ∧
      2 ^ 8 ≤ bigEndian 2 (fun t => [0x01#8, 0x00#8].getD t 0) := by
  unfold HoldsBytes bigEndian; decide

theorem test_witness_StorepSerializes :
    storepState.cur.arg2.toNat + (instA.n / 8 + 1) ≤ instA.bufBytes ∧
      instA.bufBytes < (running instA 0x11050000 .xfer 0 0 0xFF).cur.arg2.toNat + (instA.n / 8 + 1) ∧
      storepState.PolysBounded ∧ storepState.cur.arg0 = storepState.cur.arg2 := by
  refine ⟨by decide, by decide, ?_, by decide⟩
  unfold State.PolysBounded; decide

theorem test_witness_SampleStartsWithOneRequest :
    (running instD 0x08000000 .sample 0 10 0).phase = .start ∧
      (running instD 0x08000000 .sample 0 10 0).cur.arg1.toNat ≤ instD.n ∧
      0 < (running instD 0x08000000 .sample 0 10 0).cur.arg1.toNat ∧
      (running instD 0x08000000 .sample 0 0 0).cur.arg1.toNat = 0 := by decide

/-- A running SAMPLE p0 of weight 2 on instance D with bit 3 drawn and one draw left of `limit`, its next draw answered
with `b`. -/
def drawState (limit : Nat) (b : Byte) : State :=
  { running instD 0x08000000 .sample 0 2 0 with
    phase := .drbgGot [b], candidate := 8, remaining := 1, draws := 2, limit := BitVec.ofNat 32 limit }

/-- Draws 9 (accepted), 3 (already set) and 15 (not below N), with no budget and with a budget of three draws; and a
first accepted draw. -/
theorem test_witness_SampleTakesOneDraw :
    (drawState 0 0x90#8).phase = .drbgGot [0x90#8] ∧ (drawState 0 0x90#8).remaining ≠ 0 ∧
      (beValue [0x90#8] >>> instD.discard < instD.n ∧ (8).testBit (beValue [0x90#8] >>> instD.discard) = false) ∧
      (8).testBit (beValue [0x30#8] >>> instD.discard) = true ∧ ¬beValue [0xF0#8] >>> instD.discard < instD.n ∧
      ((drawState 3 0xF0#8).limit ≠ 0 ∧
        min ((drawState 3 0xF0#8).draws.toNat + 1) 0xFFFFFFFF = (drawState 3 0xF0#8).limit.toNat) ∧
      ¬((drawState 0 0x30#8).limit ≠ 0 ∧
        min ((drawState 0 0x30#8).draws.toNat + 1) 0xFFFFFFFF = (drawState 0 0x30#8).limit.toNat) ∧
      (drawState 0 0x90#8).remaining = 1 ∧ ({ drawState 0 0x90#8 with remaining := 2 } : State).remaining ≠ 1 := by
  decide

/-- 95 section 2.4.2: rows 1 (which completes) and the last (which runs out of its budget of one draw). -/
theorem test_witness_SampleRunsAsItsPseudocode :
    instD.wf = true ∧ decode instD 0x08000000#32 = .ok (.sample 0) ∧
      samplerSteps 1 [[0x30#8], [0xF0#8], [0x30#8], [0x90#8]] ++ [] =
        [.engine, .drbg 1 [0x30#8], .engine, .drbg 2 [0xF0#8], .engine, .drbg 3 [0x30#8], .engine, .drbg 4 [0x90#8],
          .engine] ∧
      (∀ B ∈ [[0x30#8], [0xF0#8], [0x30#8], [0x90#8]], B.length = instD.bytesNeeded) ∧
      samplerLoop instD 0 [[0x30#8], [0xF0#8], [0x30#8], [0x90#8]] 0 2 0 = some (some 0x208, 4) ∧
      samplerLoop instD 1 [[0x30#8]] 0 2 0 = some (none, 1) :=
  ⟨by decide, rfl, rfl, by decide, by decide, by decide⟩

/-- The hidden state as power-on leaves it has R38's widths, and so has one that differs in the candidate only. -/
theorem hiddenOk_candidate {s : State} (h : s.HiddenOk) {c : Nat} (hc : c < 2 ^ s.params.n) (r d : Word) :
    { s with candidate := c, remaining := r, draws := d }.HiddenOk := ⟨h.1, hc, h.2.2⟩

/-- The state of `drawState` meets the invariant, whatever error is still recorded. -/
theorem drawState_inv {e : ErrCode} (he : e ≠ .none) (o : Byte) (limit : Nat) :
    (drawState limit 0x90#8).Inv ∧ ((drawState limit 0x90#8).recordError e o).Inv := by
  have hp : (drawState 0 0x90#8).PolysBounded := by unfold State.PolysBounded; decide
  have hb : (drawState 0 0x90#8).BufOk := ⟨by decide, fun c hc => by cases hc⟩
  have hh : (drawState 0 0x90#8).HiddenOk :=
    hiddenOk_candidate (hiddenOk_resetOf instD) (c := 8) (by decide) 1 2
  have hf : (drawState 0 0x90#8).PhaseOk (.sample 0) := ⟨rfl, by decide, ⟨by decide, by decide⟩, by decide⟩
  have hw : instD.wf = true := by decide
  have hd : decode instD 0x08000000#32 = .ok (.sample 0) := by rfl
  exact ⟨inv_of_busy (s := drawState limit 0x90#8) hw hp hb (errorOk_of_none rfl rfl rfl) hh rfl hd (by decide) rfl hf,
    inv_of_busy (s := (drawState limit 0x90#8).recordError e o) hw hp hb (errorOk_recordError _ he o) hh rfl hd
      (by decide) rfl hf⟩

/-- The last draw of a SAMPLE with no error recorded; with the BUSY error of R116 recorded while it ran; and with one
more draw than its budget allows. -/
theorem test_witness_CompletedSampleHasItsWeight :
    (drawState 0 0x90#8).Inv ∧ ((drawState 0 0x90#8).recordError .busy 0x08#8).Inv ∧ (drawState 3 0x90#8).Inv ∧
      (drawState 0 0x90#8).busy = true ∧ decode instD (drawState 0 0x90#8).cur.word = .ok (.sample 0) ∧
      exec (.sample 0) (drawState 0 0x90#8) = .next ((drawState 0 0x90#8).runSample 0) ∧
      ((drawState 0 0x90#8).runSample 0).busy = false ∧
      ((drawState 0 0x90#8).runSample 0).SameErrors (drawState 0 0x90#8) ∧
      (((drawState 0 0x90#8).recordError .busy 0x08#8).runSample 0).errCode = .busy ∧
      (({ drawState 3 0x90#8 with phase := .drbgGot [0xF0#8] } : State).runSample 0).errCode = .sampleBudget :=
  ⟨(drawState_inv (e := .busy) (by decide) 0x08#8 0).1, (drawState_inv (by decide) 0x08#8 0).2,
    (drawState_inv (e := .busy) (by decide) 0x08#8 3).1, rfl, rfl, rfl, by decide, by unfold State.SameErrors; decide,
    by decide, by decide⟩

theorem test_witness_UnboundedSampleNeedNotEnd :
    instD.wf = true ∧ (running instD 0x08000000 .sample 0 2 0).rst = false ∧
      (running instD 0x08000000 .sample 0 2 0).busy = true ∧
      decode instD (running instD 0x08000000 .sample 0 2 0).cur.word = .ok (.sample 0) ∧
      (running instD 0x08000000 .sample 0 2 0).phase = .start ∧ (running instD 0x08000000 .sample 0 2 0).limit = 0 ∧
      2 ≤ (running instD 0x08000000 .sample 0 2 0).cur.arg1.toNat ∧
      (running instD 0x08000000 .sample 0 2 0).cur.arg1.toNat ≤ instD.n :=
  ⟨by decide, rfl, rfl, rfl, rfl, rfl, by decide, by decide⟩

theorem test_witness_HadamardProductHasItsEntries : ([1, -2] : List Int).length = 2 ^ 1 ∧ 1 < 2 ^ 1 := by decide

theorem test_witness_BlockDecodesToItsCorrelationPeak : (List.replicate 96 0x3C#8).length = 6 * 16 := by decide

theorem test_witness_BlockDecodesToANearestCodeword : (List.replicate 16 0x3C#8).length = 1 * 16 := by decide

/-- 95 section 2.5.3: 31 flipped bits of the block of 0x00. -/
theorem test_witness_BlockErrorsBelowTheRadiusAreCorrected :
    ([0xFF#8, 0xFF#8, 0xFF#8, 0xFE#8] ++ List.replicate 12 0x00#8).length = 1 * 16 ∧
      bitsDiffering (128 * 1) ([0xFF#8, 0xFF#8, 0xFF#8, 0xFE#8] ++ List.replicate 12 0x00#8) (rmCopies 1 0x00#8) + 1 ≤
        32 * 1 := by decide +kernel

theorem test_witness_ReedMullerRoundTrip : 1 ≤ 255 ∧ 255 ≤ 255 := by decide

/-- RMENC of the byte 7F at 0 to the last 16 bytes of BUF, and one byte further. -/
theorem test_witness_RmencEncodes :
    (0 + 1 ≤ instA.bufBytes ∧ 0xF0 + 1 * instA.mult * 16 ≤ instA.bufBytes ∧
        (0 < 1 → 0 + 1 ≤ 0xF0 ∨ 0xF0 + 1 * instA.mult * 16 ≤ 0)) ∧
      ¬0xF1 + 1 * instA.mult * 16 ≤ instA.bufBytes ∧
      HoldsBytes (withBuf (running instA 0x18000000 .rmEnc 0 1 0xF0) 0 [0x7F#8]) 0 1 (fun _ => 0x7F#8) := by
  unfold HoldsBytes; decide

/-- RMDEC of the last 16 bytes of BUF to 0, and one byte further. -/
theorem test_witness_RmdecDecodes :
    (0xF0 + 1 * instA.mult * 16 ≤ instA.bufBytes ∧ 0 + 1 ≤ instA.bufBytes ∧
        (0 < 1 → 0xF0 + 1 * instA.mult * 16 ≤ 0 ∨ 0 + 1 ≤ 0xF0)) ∧
      ¬0xF1 + 1 * instA.mult * 16 ≤ instA.bufBytes ∧
      HoldsBytes (withBuf (running instA 0x19000000 .rmDec 0xF0 1 0) 0xF0 (List.replicate 16 0x00#8)) 0xF0 16
        (fun _ => 0x00#8) := by
  unfold HoldsBytes; decide +kernel

theorem test_witness_CcencAsksTheInnerEncoder :
    instB.ccAvail = true ∧ (running instB 0x20700000 .ccInnerEnc 0xFF 0 0).phase = .start ∧
      instB.bufBytes < (running instB 0x20700000 .ccInnerEnc 0x100 0 0).cur.arg0.toNat + instB.ccK ∧
      (running instB 0x20700000 .ccInnerEnc 0xFF 0 0).cur.arg0.toNat + instB.ccK ≤ instB.bufBytes ∧
      HoldsBytes (withBuf (running instB 0x20700000 .ccInnerEnc 0xFF 0 0) 0xFF [0x5A#8]) 0xFF 1 (fun _ => 0x5A#8) := by
  unfold HoldsBytes; decide

/-- A running CCENC p7 or CCDEC p7 of instance B with its codec request answered. -/
def codecState (w : Nat) (f : Fsm) (ans : CodecAnswer) : State :=
  { running instB w f 0x40 0 0xFF with phase := .codecGot ans }

theorem test_witness_CcencChecksTheInnerAnswer :
    (codecState 0x20700000 .ccInnerEnc (.ok [0x5A#8])).phase = .codecGot (.ok [0x5A#8]) ∧
      (∃ I, CodecAnswer.ok [0x5A#8] = .ok I ∧ I.length = instB.ccN1) ∧
      (¬∃ I, CodecAnswer.uncorrectable = .ok I ∧ I.length = instB.ccN1) ∧
      ¬∃ I, CodecAnswer.ok [] = .ok I ∧ I.length = instB.ccN1 := by
  refine ⟨rfl, ⟨_, rfl, rfl⟩, ?_, ?_⟩
  · rintro ⟨_, h, _⟩; cases h
  · rintro ⟨_, h, h'⟩; cases h; exact absurd h' (by decide)

theorem test_witness_CcencPlacesTheCodeword :
    ({ running instB 0x20700000 .ccRmEnc 0x40 0 0 with phase := .rmEncode, staging := [0x5A#8] } : State).phase =
        .rmEncode ∧ [0x5A#8].length = instB.ccN1 := ⟨rfl, rfl⟩

theorem test_witness_CcdecAsksTheInnerDecoder :
    instB.ccAvail = true ∧ (running instB 0x21070000 .ccRmDec 0 0 0xFF).phase = .start ∧
      (running instB 0x21070000 .ccRmDec 0 0 0xFF).cur.arg2.toNat + instB.ccK ≤ instB.bufBytes ∧
      instB.bufBytes < (running instB 0x21070000 .ccRmDec 0 0 0x100).cur.arg2.toNat + instB.ccK := by decide

theorem test_witness_CcdecStoresTheMessageOrReports :
    (codecState 0x21070000 .ccInnerDec .uncorrectable).phase = .codecGot .uncorrectable ∧
      (codecState 0x21070000 .ccInnerDec (.ok [1, 2])).phase = .codecGot (.ok [1, 2]) ∧
      ([1, 2] : List Byte).length ≠ instB.ccK ∧ ([0x5A#8] : List Byte).length = instB.ccK :=
  ⟨rfl, rfl, by decide, rfl⟩

/-- 31 flipped bits in the one block of instance B. -/
theorem test_witness_ConcatenatedCodeCorrectsBlockErrors :
    [0x5A#8].length = instB.ccN1 ∧ 0 < instB.ccN1 ∧
      onesCount (128 * instB.mult) (0x7FFFFFFF / 2 ^ (128 * instB.mult * (instB.ccN1 - 1 - 0))) + 1 ≤
        32 * instB.mult := by decide +kernel

/-- A SAMPLE of instance D waiting for its first draw. -/
def waitState : State :=
  { running instD 0x08000000 .sample 0 2 0 with phase := .drbgWait 1, remaining := 2 }

theorem waitState_inv : waitState.Inv := by
  have hp : waitState.PolysBounded := by unfold State.PolysBounded; decide
  exact inv_of_busy (i := .sample 0) (by decide) hp ⟨by decide, fun c hc => by cases hc⟩ (by unfold State.ErrorOk; decide)
    (hiddenOk_resetOf instD) rfl rfl (by decide) rfl ⟨rfl, by decide, ⟨by decide, by decide⟩, by decide⟩

/-- A PZERO running with nothing listed to come: its next step is a free one. -/
def freeState : State := { running instA 0x01700000 .poly 0 0 0 with inputs := [] }

theorem freeState_inv : freeState.Inv := by
  have hp : freeState.PolysBounded := by unfold State.PolysBounded; decide
  exact inv_of_busy (i := .pzero 7) (by decide) hp ⟨by decide, fun c hc => by cases hc⟩ (by unfold State.ErrorOk; decide)
    (hiddenOk_resetOf instA) rfl rfl (by decide) rfl rfl

theorem test_witness_EngineWaitsForOutstandingRequests :
    (waitState.Inv ∧ waitState.Ready .engine [] ∧ waitState.drbgRequest.isSome = true) ∧
      (freeState.Inv ∧ freeState.params.wf = true ∧ freeState.busy = true ∧ freeState.rst = false ∧
        freeState.drbgRequest = none ∧ freeState.codecRequest = none ∧
        decode freeState.params freeState.cur.word = .ok (.pzero 7)) :=
  ⟨⟨waitState_inv, ⟨rfl, rfl, rfl⟩, rfl⟩, freeState_inv, by decide, rfl, rfl, rfl, rfl, rfl⟩

/-- R109: an engine that has been passed over as often as the wait allows takes the next free step. -/
theorem test_fair_engine : answers (step { freeState with patience := some 0 }) (fun t => report t == (2, 0)) = true := by
  decide

/-- A SAMPLE of instance D waiting for its first draw, its request the second one made: the first was abandoned. -/
def lateState (i : Input) : State := { waitState with portReq := 2, inputs := [i] }

/-- R128, D46: the late answer of the abandoned request is discarded, and the answer to the outstanding one is taken. -/
theorem test_late_answer :
    answers (step (lateState (.drbg 1 [0x30#8]))) (fun t => t.drbgRequest == some 1) = true ∧
      answers (step (lateState (.drbg 2 [0x30#8]))) (fun t => t.phase == .drbgGot [0x30#8]) = true := by decide

theorem test_witness_AnswersReachOnlyOutstandingRequests :
    (idle instD 0 0 0 [.drbg 0 [1]]).Ready (.drbg 0 [1]) [] ∧ (idle instD 0 0 0 [.drbg 0 [1]]).drbgRequest = none ∧
      (idle instD 0 0 0 [.codec 0 .uncorrectable]).Ready (.codec 0 .uncorrectable) [] ∧
      (idle instD 0 0 0 [.codec 0 .uncorrectable]).codecRequest = none ∧
      (lateState (.drbg 1 [1])).Ready (.drbg 1 [1]) [] ∧ 1 ≠ (lateState (.drbg 1 [1])).portReq ∧
      (lateState (.drbg 2 [1])).Ready (.drbg 2 [1]) [] ∧ 2 = (lateState (.drbg 2 [1])).portReq ∧
      waitState.drbgRequest = some ([1] : List Byte).length ∧
      ({ running instB 0x21070000 .ccInnerDec 0 0 0 with
          phase := .codecWait (.dec [1]), portReq := 1, inputs := [.codec 1 .uncorrectable] } : State).Ready
        (.codec 1 .uncorrectable) [] ∧
      (running instD 0x08000000 .sample 0 2 0).drbgRequest = none ∧
      (after State.reset (step (running instD 0x08000000 .sample 0 2 0))).drbgRequest ≠ none :=
  ⟨⟨rfl, rfl, rfl⟩, rfl, ⟨rfl, rfl, rfl⟩, rfl, ⟨rfl, rfl, rfl⟩, by decide, ⟨rfl, rfl, rfl⟩, rfl, rfl, ⟨rfl, rfl, rfl⟩,
    rfl, by decide⟩

theorem test_witness_HardwiredCsrsReadTheirValues :
    (idle instA 0 0 0 [csr 0x00 .read]).Ready (csr 0x00 .read) [] ∧
      (idle instA 0 0 0 [csr 0x14 .read]).Ready (csr 0x14 .read) [] := ⟨⟨rfl, rfl, rfl⟩, ⟨rfl, rfl, rfl⟩⟩

/-- A machine with no command running meets the invariant. -/
theorem idle_inv (c : List Input) : (idle instA 0 0 0 c).Inv := by
  have hw : instA.wf = true := by decide
  have hp : (idle instA 0 0 0 []).PolysBounded := by unfold State.PolysBounded; decide
  exact inv_of_quiet hw hp ⟨by simp [idle, State.resetOf, Memory.wf], fun x hx => by cases hx⟩
    (errorOk_of_none rfl rfl rfl) (hiddenOk_resetOf instA) rfl rfl rfl

theorem test_witness_StatusReadsItsFields :
    (idle instA 0 0 0 [csr 0x1C .read]).Ready (csr 0x1C .read) [] ∧ (idle instA 0 0 0 [csr 0x1C .read]).Inv ∧
      (idle instA 0 0 0 [csr 0x1C .read]).busy = false ∧
      ({ waitState with inputs := [csr 0x1C .read] } : State).Ready (csr 0x1C .read) [] ∧ waitState.busy = true ∧
      decode instD waitState.cur.word = .ok (.sample 0) :=
  ⟨⟨rfl, rfl, rfl⟩, idle_inv _, rfl, ⟨rfl, rfl, rfl⟩, rfl, rfl⟩

theorem test_witness_OtherCsrsReadTheirFields :
    ([0x18, 0x20, 0x24, 0x28, 0x2C, 0x30, 0x34, 0x38].all fun o =>
      let s := idle instA 1 2 3 [csr o .read]
      decide (s.params.wf = true ∧ s.rst = false ∧
        s.inputs = .host ⟨s.params.base + BitVec.ofNat 32 o, .b32, .read⟩ :: [])) = true := by decide

theorem test_witness_ReadsHaveNoSideEffects :
    (idle instA 0 0 0 [csr 0xFFFFFFFC .read]).Ready (csr 0xFFFFFFFC .read) [] := ⟨rfl, rfl, rfl⟩

/-- Refused: offset 0x3C, the byte after BUF's last, and a BUF access while BUSY. Admitted: offset 0x38 and BUF's last
byte. -/
theorem test_witness_AccessesThatAreRefusedHaveNoEffect :
    (idle instA 0 0 0 [csr 0x3C .read]).Ready (csr 0x3C .read) [] ∧ (0x3C < 0x10000 ∧ 0x38 < 0x3C) ∧
      (0x10000 ≤ 0x10100 ∧ 0x10000 + instA.bufBytes < 0x10100 + 1) ∧
      (running instA 0x10000000 .xfer 0 0 0).busy = true ∧
      ¬(0x38 < 0x10000 ∧ (4 ≠ 4 ∨ 0x38 % 4 ≠ 0 ∨ 0x38 < 0x38)) ∧
      ¬(0x100FF % 1 ≠ 0 ∨ 0x10000 + instA.bufBytes < 0x100FF + 1) :=
  ⟨⟨rfl, rfl, rfl⟩, by decide, by decide, rfl, by decide, by decide⟩

theorem test_witness_BufferWritesStoreTheirLanes :
    (idle instA 0 0 0 [.host ⟨0x100FC#32, .b32, .write 0x03008100#32⟩]).Ready
        (.host ⟨0x100FC#32, .b32, .write 0x03008100#32⟩) [] ∧
      (0x100FC#32 - instA.base).toNat = 0x10000 + 0xFC ∧ 0xFC % 4 = 0 ∧ 0xFC + 4 ≤ instA.bufBytes :=
  ⟨⟨rfl, rfl, rfl⟩, by decide, by decide, by decide⟩

theorem test_witness_BufferReadsReturnTheirLanes :
    (withBuf (idle instA 0 0 0 [.host ⟨0x100FE#32, .b16, .read⟩]) 0xFE [0x00#8, 0x03#8]).Ready
        (.host ⟨0x100FE#32, .b16, .read⟩) [] ∧
      (0x100FE#32 - instA.base).toNat = 0x10000 + 0xFE ∧ 0xFE % 2 = 0 ∧ 0xFE + 2 ≤ instA.bufBytes ∧
      HoldsBytes (withBuf (idle instA 0 0 0 []) 0xFE [0x00#8, 0x03#8]) 0xFE 2 (fun t => [0x00#8, 0x03#8].getD t 0) :=
  ⟨⟨rfl, rfl, rfl⟩, by decide, by decide, by decide, by unfold HoldsBytes; decide⟩

/-- One write at each kind of offset of the statement; DONE and ERR are cleared by different bits. -/
theorem test_witness_CsrWritesChangeTheirFieldsOnly :
    ([0x18, 0x1C, 0x28, 0x2C, 0x30, 0x34, 0x00, 0x04, 0x08, 0x0C, 0x10, 0x14, 0x20, 0x38].all fun o =>
      let s := idle instA 0 0 0 [csr o (.write 0x00000006#32)]
      decide (s.params.wf = true ∧ s.rst = false ∧
        s.inputs = .host ⟨s.params.base + BitVec.ofNat 32 o, .b32, .write 0x00000006#32⟩ :: [])) = true ∧
      (0x00000006#32).getLsbD 0 = false := by decide

/-- R28, R29: a 1 in STATUS.ERR clears ERR and ERRCODE and leaves DONE; a 1 in STATUS.DONE leaves the error. -/
theorem test_write_status :
    answers (step { idle instA 0 0 0 [csr 0x1C (.write 0x00000004#32)] with
        done := true, err := true, errCode := .range, errOpc := 0x10#8 }) (fun t => report t == (2, 0)) = true ∧
      answers (step { idle instA 0 0 0 [csr 0x1C (.write 0x00000002#32)] with
        done := true, err := true, errCode := .range, errOpc := 0x10#8 }) (fun t => report t == (4, 0x1004)) = true := by
  decide

/-- A soft reset with no command running, and with the PMUL of 95 section 2.7.2 row 27 running. -/
theorem test_witness_SoftResetResetsTheCsrs :
    (idle instA 0 0 0 [csr 0x18 (.write 0x00000001#32)]).Ready (csr 0x18 (.write 0x00000001#32)) [] ∧
      (idle instA 0 0 0 []).busy = false ∧ (0x00000001#32).getLsbD 0 = true ∧
      ({ running instA 0x04100000 .poly 0 2 0 with inputs := [csr 0x18 (.write 0x00000007#32)] } : State).Ready
        (csr 0x18 (.write 0x00000007#32)) [] ∧
      decode instA (running instA 0x04100000 .poly 0 2 0).cur.word = .ok (.pmul 1 0 0) ∧
      destReg (.pmul 1 0 0) = some 1 :=
  ⟨⟨rfl, rfl, rfl⟩, rfl, by decide, ⟨rfl, rfl, rfl⟩, rfl, rfl⟩

theorem test_witness_HostAccessesLeaveThePolynomials :
    (idle instA 0 0 0 [csr 0x28 (.write 0x00000001#32)]).Ready (csr 0x28 (.write 0x00000001#32)) [] ∧
      (idle instA 0 0 0 [csr 0x28 (.write 0x00000001#32)]).busy = false ∧
      step (idle instA 0 0 0 [csr 0x28 (.write 0x00000001#32)]) =
        .next (after State.reset (step (idle instA 0 0 0 [csr 0x28 (.write 0x00000001#32)]))) :=
  ⟨⟨rfl, rfl, rfl⟩, rfl, rfl⟩

/-- A machine held in reset. -/
def heldState (c : List Input) : State := { idle instA 0 0 0 c with rst := true }

theorem test_witness_PowerOnLeavesTheResetValues :
    (heldState [.rst false]).params.wf = true ∧ (heldState [.rst false]).rst = true ∧
      (heldState [.rst false]).inputs = .rst false :: [] := ⟨by decide, rfl, rfl⟩

theorem test_witness_ResetHoldsTheMachine :
    (heldState [csr 0x28 (.write 1#32), .engine]).rst = true ∧
      step (heldState [csr 0x28 (.write 1#32), .engine]) = .next (heldState [csr 0x28 (.write 1#32)]) ∧
      (heldState [csr 0x28 (.write 1#32)]).rst = true := ⟨rfl, rfl, rfl⟩

theorem test_witness_InvariantHoldsAfterReset : instA.wf = true ∧ (inst 2 255 1 1 4).wf = true := by decide

theorem test_witness_EveryStepKeepsTheInvariant :
    waitState.Inv ∧ (drawState 0 0x90#8).Inv ∧ (idle instA 0 0 0 []).Inv :=
  ⟨waitState_inv, (drawState_inv (e := .busy) (by decide) 0 0).1, idle_inv []⟩

/-- An instance of R8 keeps its parameters; one outside is refused, at each of R8's bounds and at R23's. -/
theorem test_witness_TheInstanceNeverChanges :
    step (idle instA 0 0 0 [.engine]) = .next (idle instA 0 0 0 []) ∧
      step (idle (inst 1 1 1 1 256) 0 0 0 []) = .refused .illFormedInstance ∧
      step (idle (inst (2 ^ 32) 1 1 1 0xFFFF0000) 0 0 0 []) = .refused .illFormedInstance ∧
      step (idle (inst 8 256 1 1 256) 0 0 0 []) = .refused .illFormedInstance ∧
      step (idle (inst 8 1 0 1 256) 0 0 0 []) = .refused .illFormedInstance ∧
      step (idle (inst 8 1 1 65536 256) 0 0 0 []) = .refused .illFormedInstance ∧
      step (idle (inst 32 1 1 1 4) 0 0 0 []) = .refused .illFormedInstance ∧
      step (idle (inst 8 1 1 1 258) 0 0 0 []) = .refused .illFormedInstance :=
  ⟨rfl, rfl, rfl, rfl, rfl, rfl, rfl, rfl⟩

/-- The byte 5A of instance B with the inner codec that answers its request. -/
def roundTripState : State :=
  withBuf (idle instB 0x40 0 0 (roundTripSteps instB 1 7 0xFF#32 [0x5A#8] [0x5A#8] ++ [])) 0x40 [0x5A#8]

theorem test_witness_ConcatenatedRoundTrip :
    roundTripState.params.wf = true ∧ roundTripState.rst = false ∧ roundTripState.params.ccAvail = true ∧
      roundTripState.busy = false ∧ [0x5A#8].length = instB.ccK ∧ [0x5A#8].length = instB.ccN1 ∧
      roundTripState.arg0.toNat + instB.ccK ≤ instB.bufBytes ∧ (0xFF#32).toNat + instB.ccK ≤ instB.bufBytes ∧
      HoldsBytes roundTripState roundTripState.arg0.toNat instB.ccK (fun k => [0x5A#8].getD k 0) ∧
      roundTripState.inputs = roundTripSteps roundTripState.params (roundTripState.portReq + 1) 7 0xFF#32 [0x5A#8] [0x5A#8] ++ [] :=
  ⟨by decide, rfl, by decide, rfl, rfl, rfl, by decide, by decide, by unfold HoldsBytes; decide, rfl⟩

/-- The boundary operands of the commands that read BUF or a register, nothing of it written. -/
theorem test_witness_UnwrittenSourcesAreRecorded :
    0xFE + (instA.n / 8 + 1) ≤ instA.bufBytes ∧
      (running instA 0x18000000 .rmEnc 0 1 0xF0).rmRangesOk (running instA 0x18000000 .rmEnc 0 1 0xF0).count
        (running instA 0x18000000 .rmEnc 0 1 0xF0).codeLen = true ∧
      (running instA 0x19000000 .rmDec 0xF0 1 0).rmRangesOk (running instA 0x19000000 .rmDec 0xF0 1 0).codeLen
        (running instA 0x19000000 .rmDec 0xF0 1 0).count = true ∧
      (running instB 0x20000000 .ccInnerEnc 0xFF 0 0xFF).phase = .start ∧ instB.ccAvail = true ∧
      (running instB 0x20000000 .ccInnerEnc 0xFF 0 0xFF).cur.arg0.toNat + instB.ccK ≤ instB.bufBytes ∧
      (running instB 0x20000000 .ccInnerEnc 0xFF 0 0xFF).cur.arg2.toNat + instB.ccK ≤ instB.bufBytes := by decide

end Sys2Proof.Tests
end

section
/-! The instance along a step (O59): each layer of step answers a state of the instance it was in, or a fault, and is
never refused; only the check of step itself refuses. -/

namespace Sys2Proof.Machine

/-- An answer in the instance `p`: a next state of that instance or a fault, never a refusal. -/
def InInstance (p : Params) : Host.Outcome State Fault Refusal → Prop
  | .next t => t.params = p
  | .fault _ => True
  | .refused _ => False

section Layers

variable (s : State)

@[simp] theorem inInstance_next (p : Params) (t : State) : InInstance p (.next t) ↔ t.params = p := Iff.rfl

@[simp] theorem inInstance_fault (p : Params) (f : Fault) : InInstance p (.fault f) := trivial

theorem not_inInstance_refused (p : Params) (r : Refusal) : ¬ InInstance p (.refused r) := id

/-! ### Commands: execution and issue -/

/-- No command writes the instance, whichever way its step ends (the frame of stepOf_cases). -/
@[simp] theorem stepOf_params (i : Instr) : (stepOf i s).params = s.params := by
  rcases stepOf_cases s i with ⟨_, _, hcontrol⟩ | ⟨_, _, _, _, _, _, _, hcontrol, _⟩ | ⟨_, _, _, hcontrol, _⟩
  all_goals exact hcontrol.1

theorem exec_inInstance (i : Instr) : InInstance s.params (exec i s) := by
  simp [exec_eq_next]

theorem issue_inInstance (w : Word) : InInstance s.params (issue w s) := by
  unfold issue
  split
  · exact recordError_params s .busy (opcField w)
  · split
    · simp
    · split
      · simp
      · split
        · exact exec_inInstance (s.latch w) _
        · simp

/-! ### Soft reset and power-on reset -/

@[simp] theorem drawPoly_params (d : Reg) : (s.drawPoly d).params = s.params := rfl

@[simp] theorem drawRange_params (a len : Nat) : (s.drawRange a len).params = s.params := rfl

@[simp] theorem spoilDestination_params (i : Instr) : (s.spoilDestination i).params = s.params := by
  cases i <;> simp only [State.spoilDestination, apply_ite State.params, drawPoly_params, drawRange_params, ite_self]

@[simp] theorem abort_params : s.abort.params = s.params := by
  unfold State.abort
  split
  · split
    · exact spoilDestination_params s _
    · rfl
  · rfl

@[simp] theorem softReset_params : s.softReset.params = s.params := abort_params s

@[simp] theorem driveRst_params (b : Bool) : (s.driveRst b).params = s.params := by
  unfold State.driveRst
  split
  · rfl
  · split <;> rfl

/-! ### Host accesses -/

@[simp] theorem writeStatus_params (v : Word) : (s.writeStatus v).params = s.params := by
  simp only [State.writeStatus, apply_ite State.params, clearError_params, clearDone_params, ite_self]

@[simp] theorem writeCtrl_params (v : Word) : (s.writeCtrl v).params = s.params := by
  simp only [State.writeCtrl, apply_ite State.params, softReset_params, setEnables_params, ite_self]

/-- A write of CMD is an issue; every other CSR's write answers a state whose instance is the old one. -/
theorem writeCsr_inInstance (c : Csr) (v : Word) : InInstance s.params (writeCsr c v s) := by
  cases c
  case cmd => exact issue_inInstance s v
  all_goals simp [writeCsr]

theorem csrAccess_inInstance (size : AccessSize) (kind : AccessKind) (off : Nat) :
    InInstance s.params (csrAccess size kind off s) := by
  unfold csrAccess
  split
  · exact slverr_params s
  · split
    · simp
    · exact writeCsr_inInstance (s.okay 0) _ _

@[simp] theorem bufAccess_params (size : AccessSize) (kind : AccessKind) (a : Nat) :
    (s.bufAccess size kind a).params = s.params := by
  unfold State.bufAccess
  split
  · cases kind <;> rfl
  · rfl

theorem hostAccess_inInstance (a : Access) : InInstance s.params (hostAccess a s) := by
  unfold hostAccess
  split
  · exact csrAccess_inInstance s _ _ _
  · exact bufAccess_params s _ _ _

/-! ### The agents' steps -/

theorem engineTurn_inInstance : InInstance s.params (engineTurn s) := by
  unfold engineTurn
  split
  · split
    · exact exec_inInstance s _
    · exact inInstance_fault s.params _
  · rfl

@[simp] theorem answerDrbg_params (r : Nat) (bs : List Byte) : (s.answerDrbg r bs).params = s.params := by
  simp only [State.answerDrbg, apply_ite State.params, setPhase_params, ite_self]

@[simp] theorem answerCodec_params (r : Nat) (ans : CodecAnswer) : (s.answerCodec r ans).params = s.params := by
  simp only [State.answerCodec, apply_ite State.params, setPhase_params, ite_self]

theorem advance_inInstance (i : Input) : InInstance s.params (advance i s) := by
  cases i with
  | rst b => exact driveRst_params s b
  | host a =>
    simp only [advance]
    split
    · rfl
    · exact hostAccess_inInstance s a
  | engine =>
    simp only [advance]
    split
    · rfl
    · exact engineTurn_inInstance s
  | drbg r bs => simp [advance, apply_ite State.params]
  | codec r ans => simp [advance, apply_ite State.params]

@[simp] theorem dropInput_params : s.dropInput.params = s.params := by
  unfold State.dropInput
  split <;> rfl

/-! ### A step, and the instances it refuses -/

theorem advance_nextInput_inInstance : InInstance s.params (advance s.nextInput s.dropInput) := by
  simpa using advance_inInstance s.dropInput s.nextInput

end Layers

theorem step_params {s t : State} (h : step s = .next t) : t.params = s.params := by
  have hkept := advance_nextInput_inInstance s
  rwa [(step_inv h).2] at hkept

/-- Only the check of step itself refuses. -/
theorem step_eq_refused_iff (s : State) : step s = .refused .illFormedInstance ↔ ¬ s.params.wf = true := by
  unfold step
  split
  next hwf =>
    have hkept := advance_nextInput_inInstance s
    refine iff_of_false (fun h => ?_) (not_not_intro hwf)
    rw [h] at hkept
    exact not_inInstance_refused _ _ hkept
  next hwf => exact iff_of_true rfl hwf

/-- R8's bounds and R23's, written out. -/
theorem params_wf_iff (p : Params) :
    p.wf = true ↔ 2 ≤ p.n ∧ p.n < 2 ^ 32 ∧ 1 ≤ p.mult ∧ p.mult ≤ 255 ∧ 1 ≤ p.ccK ∧ p.ccK ≤ 65535 ∧ 1 ≤ p.ccN1 ∧
      p.ccN1 ≤ 65535 ∧ p.n / 8 + 1 ≤ p.bufBytes ∧ p.ccK ≤ p.bufBytes ∧ p.bufBytes % 4 = 0 ∧
      p.bufBytes ≤ 0xFFFF0000 := by
  simp only [Params.wf, Params.nOk, Params.multOk, Params.ccKOk, Params.ccN1Ok, Params.bufHolds, Params.bufOk,
    Bool.and_eq_true, decide_eq_true_eq, and_assoc]
  rfl

/-- Settles O59: every layer of a step stays in its instance, and step's own check is R8's bounds with R23's. -/
theorem theInstanceNeverChanges : Obligations.TheInstanceNeverChanges := by
  unfold Obligations.TheInstanceNeverChanges
  refine ⟨fun s t h => step_params h, fun s => ?_⟩
  rw [step_eq_refused_iff, params_wf_iff]

end Sys2Proof.Machine
end

section
/-! What a command's step leaves unchanged (O12, O13), from the frames of stepOf_cases. -/

namespace Sys2Proof.Machine

/-! ### What the correlator and a draw change -/

/-- The correlator changes the soft vector and the correlation array alone. -/
theorem noteCorrelation_eq (s : State) (cnt : Nat) (x : List Byte) :
    ∃ soft corr, s.noteCorrelation cnt x = { s with soft := soft, corr := corr } := by
  unfold State.noteCorrelation
  split
  · exact ⟨s.soft, s.corr, rfl⟩
  · exact ⟨_, _, rfl⟩

@[simp] theorem noteCorrelation_params (s : State) (cnt : Nat) (x : List Byte) :
    (s.noteCorrelation cnt x).params = s.params := by
  obtain ⟨soft, corr, e⟩ := noteCorrelation_eq s cnt x
  rw [e]

@[simp] theorem noteCorrelation_sampleDraws (s : State) (cnt : Nat) (x : List Byte) :
    (s.noteCorrelation cnt x).sampleDraws = s.sampleDraws := by
  obtain ⟨_, _, e⟩ := noteCorrelation_eq s cnt x
  rw [e]

/-- A draw changes the sampler's working state alone. -/
theorem takeDraw_eq (s : State) (bs : List Byte) :
    ∃ candidate remaining draws,
      s.takeDraw bs = { s with candidate := candidate, remaining := remaining, draws := draws } := by
  unfold State.takeDraw
  dsimp only
  split
  · exact ⟨_, _, _, rfl⟩
  · exact ⟨_, _, _, rfl⟩

/-! ### The frames of a command's step -/

/-- A completed write of P[d] changes no other register and no byte of BUF. -/
theorem samePolys_of_wrotePoly {s t : State} {d j : Reg} {v : Nat} (h : s.WrotePoly d v t) (hj : d ≠ j) :
    t.poly j = s.poly j ∧ t.polyWritten.get j = s.polyWritten.get j := by
  obtain ⟨_, _, hothers, _⟩ := h
  exact hothers j hj.symm

/-- Settles O12: a step writes no destination, or its register alone, or its BUF range alone. -/
theorem onlyTheDestinationChanges : Obligations.OnlyTheDestinationChanges := by
  unfold Obligations.OnlyTheDestinationChanges
  intro i s t h
  obtain rfl := (exec_next_iff s i t).mp h
  rcases stepOf_cases s i with ⟨hpolys, hbuf, _⟩ | ⟨d, v, hdest, hwrote⟩ | ⟨_, hbuf, hpolys, _⟩
  · exact ⟨fun j _ => hpolys j, fun x _ => hbuf x⟩
  · obtain ⟨_, _, _, hbuf, _⟩ := id hwrote
    exact ⟨fun j hj => samePolys_of_wrotePoly hwrote fun e => hj (e ▸ hdest), fun x _ => hbuf x⟩
  · exact ⟨fun j _ => hpolys j, hbuf⟩

theorem stepOf_sameControl (s : State) (i : Instr) : s.SameControl (stepOf i s) := by
  rcases stepOf_cases s i with ⟨_, _, hcontrol⟩ | ⟨_, _, _, _, _, _, _, hcontrol, _⟩ | ⟨_, _, _, hcontrol, _⟩
  all_goals exact hcontrol

/-- SAMPLE_DRAWS is written at SAMPLE's completion alone (R35, R108). -/
theorem stepOf_sampleDraws (s : State) {i : Instr} (h : ∀ d, i ≠ .sample d) :
    (stepOf i s).sampleDraws = s.sampleDraws := by
  cases i with
  | sample d => exact absurd rfl (h d)
  | nop => rfl
  | pzero d => rfl
  | pmov d a => rfl
  | pxor d a b => rfl
  | pmul d a b => rfl
  | loadp d => simp only [stepOf, State.runLoadp]; (repeat' split) <;> rfl
  | storep a => simp only [stepOf, State.runStorep]; split <;> rfl
  | rmenc => simp only [stepOf, State.runRmenc]; split <;> rfl
  | rmdec =>
    simp only [stepOf, State.runRmdec]
    split
    · rfl
    · exact noteCorrelation_sampleDraws (s.noteLoad s.src s.codeLen) _ _
  | ccenc d => simp only [stepOf, State.runCcenc]; (repeat' split) <;> rfl
  | ccdec a =>
    simp only [stepOf, State.runCcdec]
    split
    · split
      · rfl
      · split
        · rfl
        · exact noteCorrelation_sampleDraws (s.notePoly a) _ _
    · rfl
    · split <;> rfl
    all_goals rfl

/-- Settles O13: the frame of every command's step, and the commands' updates of SAMPLE_DRAWS. -/
theorem commandsKeepTheHostsRegisters : Obligations.CommandsKeepTheHostsRegisters := by
  unfold Obligations.CommandsKeepTheHostsRegisters
  intro i s t h
  obtain rfl := (exec_next_iff s i t).mp h
  exact ⟨stepOf_sameControl s i, stepOf_sampleDraws s⟩

end Sys2Proof.Machine
end

section
/-! The invariant along a step (O57, O58). Its parts about data are kept by every shared operation; a step that ends a
command needs nothing more, and a step that leaves it running shows the phase it then stands at. -/

namespace Sys2Proof.Machine

/-- The parts of the invariant that do not speak of the running command. -/
def State.DataOk (s : State) : Prop :=
  s.params.wf = true ∧ s.PolysBounded ∧ s.BufOk ∧ s.ErrorOk ∧ s.HiddenOk

/-- `i` runs: CUR holds its word, which passed its issue checks and is not NOP (R31, R106). -/
def State.Runs (s : State) (i : Instr) : Prop :=
  s.busy = true ∧ decode s.params s.cur.word = .ok i ∧ i ≠ .nop ∧ s.weightTooBig i = false

theorem dataOk_of_inv {s : State} (h : s.Inv) : s.DataOk := by
  obtain ⟨hwf, hpolys, hbuf, herror, hhidden, _⟩ := h
  exact ⟨hwf, hpolys, hbuf, herror, hhidden⟩

theorem wf_of_inv {s : State} (h : s.Inv) : s.params.wf = true := h.1

theorem State.DataOk.wf {s : State} (h : s.DataOk) : s.params.wf = true := h.1

theorem State.DataOk.poly_lt {s : State} (h : s.DataOk) (a : Reg) : s.poly a < 2 ^ s.params.n := h.2.1 a

theorem State.DataOk.hiddenOk {s : State} (h : s.DataOk) : s.HiddenOk := h.2.2.2.2

theorem State.Runs.decode_eq {s : State} {i : Instr} (h : s.Runs i) : decode s.params s.cur.word = .ok i := h.2.1

theorem State.Runs.ne_nop {s : State} {i : Instr} (h : s.Runs i) : i ≠ .nop := h.2.2.1

theorem runs_of_inv {s : State} (h : s.Inv) (hb : s.busy = true) : ∃ i, s.Runs i ∧ s.PhaseOk i := by
  obtain ⟨_, _, _, _, _, _, hlatch⟩ := h
  obtain ⟨i, hdecode, hnop, hweight, hphase⟩ := hlatch hb
  exact ⟨i, ⟨hb, hdecode, hnop, hweight⟩, hphase⟩

theorem inv_of_runs {s : State} {i : Instr} (h : s.DataOk) (hr : s.Runs i) (hp : s.PhaseOk i) : s.Inv := by
  obtain ⟨hwf, hpolys, hbuf, herror, hhidden⟩ := h
  obtain ⟨hbusy, hdecode, hnop, hweight⟩ := hr
  exact inv_of_busy hwf hpolys hbuf herror hhidden hbusy hdecode hnop hweight hp

/-- A command past its start is running: with BUSY = 0 the phase is the first. -/
theorem busy_of_phase {s : State} (h : s.Inv) (hp : s.phase ≠ .start) : s.busy = true := by
  obtain ⟨_, _, _, _, _, hidle, _⟩ := h
  by_contra hb
  exact hp (hidle (by simpa using hb)).2

/-! ### The data along the shared operations -/

section Data

variable {s : State} (h : s.DataOk)
include h

theorem dataOk_setPoly (d : Reg) {v : Nat} (hv : v < 2 ^ s.params.n) : (s.setPoly d v).DataOk := by
  obtain ⟨hwf, hpolys, hrest⟩ := h
  exact ⟨hwf, polysBounded_setPoly hpolys d hv, hrest⟩

theorem dataOk_storeBytes (a : Nat) (bs : List Byte) (hb : s.params.inBuf a bs.length = true) :
    (s.storeBytes a bs).DataOk := by
  obtain ⟨hwf, hpolys, hbuf, hrest⟩ := h
  exact ⟨hwf, hpolys, bufOk_storeBytes hbuf a bs (by simpa [Params.inBuf] using hb), hrest⟩

theorem dataOk_recordError {e : ErrCode} (he : e ≠ .none) (o : Byte) : (s.recordError e o).DataOk := by
  obtain ⟨hwf, hpolys, hbuf, _, hhidden⟩ := h
  exact ⟨hwf, hpolys, hbuf, errorOk_recordError s he o, hhidden⟩

theorem dataOk_clearError : s.clearError.DataOk := by
  obtain ⟨hwf, hpolys, hbuf, _, hhidden⟩ := h
  exact ⟨hwf, hpolys, hbuf, errorOk_of_none rfl rfl rfl, hhidden⟩

/-- A change of the hidden state alone. -/
theorem dataOk_of_hiddenOk {t : State} (ht : t.HiddenOk) (hp : t.params = s.params) (hv : t.polys = s.polys)
    (hb : t.buf = s.buf) (he : s.SameErrors t) : t.DataOk := by
  obtain ⟨hwf, hpolys, hbuf, herror, _⟩ := h
  obtain ⟨e1, e2, e3⟩ := he
  refine ⟨by rwa [hp], fun i => ?_, ?_, ?_, ht⟩
  · rw [hp, poly_congr hv]; exact hpolys i
  · unfold State.BufOk; rwa [hp, hb]
  · unfold State.ErrorOk; rwa [e1, e2, e3]

theorem dataOk_setMulAcc {v : Nat} (hv : v < 2 ^ s.params.n) : (s.setMulAcc v).DataOk :=
  dataOk_of_hiddenOk h (hiddenOk_setMulAcc h.hiddenOk hv) rfl rfl rfl (sameErrors_refl s)

theorem dataOk_startSample : s.startSample.DataOk :=
  dataOk_of_hiddenOk h (hiddenOk_startSample h.hiddenOk) rfl rfl rfl (sameErrors_refl s)

theorem dataOk_takeDraw (bs : List Byte) : (s.takeDraw bs).DataOk := by
  obtain ⟨hpolys, _, hbuf, hcontrol, herror⟩ := takeDraw_frame s bs
  exact dataOk_of_hiddenOk h (hiddenOk_takeDraw h.hiddenOk bs) hcontrol.1 hpolys hbuf herror

theorem dataOk_stage {bs : List Byte} (hb : bs.length ≤ s.params.stagingBytes) : (s.stage bs).DataOk :=
  dataOk_of_hiddenOk h (hiddenOk_stage h.hiddenOk hb) rfl rfl rfl (sameErrors_refl s)

theorem dataOk_noteCorrelation (cnt : Nat) (x : List Byte) : (s.noteCorrelation cnt x).DataOk := by
  have hhidden := hiddenOk_noteCorrelation h.hiddenOk (mult_le_of_wf h.wf) cnt x
  unfold State.noteCorrelation at hhidden ⊢
  split
  · exact h
  · rw [if_neg ‹_›] at hhidden
    exact dataOk_of_hiddenOk h hhidden rfl rfl rfl (sameErrors_refl s)

/-- The completion step leaves no command running and no request outstanding. -/
theorem inv_complete : s.complete.Inv := by
  obtain ⟨hwf, hpolys, hbuf, herror, hhidden⟩ := h
  exact inv_of_quiet hwf hpolys hbuf herror hhidden rfl rfl rfl

theorem inv_fail {e : ErrCode} (he : e ≠ .none) : (s.fail e).Inv :=
  inv_complete (dataOk_recordError h he s.cur.opc)

end Data

/-- The data's part of the invariant, with the running command's carried over. -/
theorem inv_of_dataOk {s t : State} (h : s.Inv) (ht : t.DataOk) (hidle : s.IdleOk → t.IdleOk)
    (hlatch : s.LatchOk → t.LatchOk) : t.Inv := by
  obtain ⟨_, _, _, _, _, hi, hl⟩ := h
  obtain ⟨hwf, hpolys, hbuf, herror, hhidden⟩ := ht
  exact ⟨hwf, hpolys, hbuf, herror, hhidden, hidle hi, hlatch hl⟩

/-! ### Each command's step -/

/-- The range checks of RMENC and RMDEC cover the bytes the command writes. -/
theorem inBuf_of_rmRangesOk {s : State} {srcLen dstLen : Nat}
    (hr : ¬(!s.rmRangesOk srcLen dstLen) = true) : s.params.inBuf s.dst dstLen = true := by
  simp only [State.rmRangesOk, Bool.not_eq_true', Bool.not_eq_false, Bool.and_eq_true] at hr
  obtain ⟨⟨_, hdst⟩, _⟩ := hr
  exact hdst

section Commands

variable {s : State} (h : s.Inv)
include h

theorem inv_runPmov (d a : Reg) : (s.runPmov d a).Inv := by
  have hd := dataOk_of_inv h
  exact inv_complete (dataOk_setPoly (s := s.notePoly a) hd d (hd.poly_lt a))

theorem inv_runPxor (d a b : Reg) : (s.runPxor d a b).Inv := by
  have hd := dataOk_of_inv h
  have hlt := Nat.xor_lt_two_pow (hd.poly_lt a) (hd.poly_lt b)
  exact inv_complete (dataOk_setPoly (s := (s.notePoly a).notePoly b) hd d hlt)

theorem inv_runPmul (d a b : Reg) : (s.runPmul d a b).Inv := by
  have hlt := cyclicMul_lt s.params.n (s.poly a) (s.poly b)
  have hacc := dataOk_setMulAcc (s := (s.notePoly a).notePoly b) (dataOk_of_inv h) hlt
  exact inv_complete (dataOk_setPoly hacc d hlt)

theorem inv_runLoadp (d : Reg) : (s.runLoadp d).Inv := by
  have hd := dataOk_of_inv h
  have hload : (s.noteLoad s.src s.params.nBytes).DataOk := hd
  simp only [State.runLoadp]
  split
  · exact inv_fail hd (by decide)
  · split
    · exact inv_fail hload (by decide)
    · exact inv_complete (dataOk_setPoly hload d (Nat.lt_of_not_le ‹_›))

theorem inv_runStorep (a : Reg) : (s.runStorep a).Inv := by
  have hd := dataOk_of_inv h
  simp only [State.runStorep]
  split
  · exact inv_fail hd (by decide)
  next hrange =>
    exact inv_complete (dataOk_storeBytes (s := s.notePoly a) hd _ _ (by simpa using hrange))

theorem inv_runRmenc : s.runRmenc.Inv := by
  have hd := dataOk_of_inv h
  simp only [State.runRmenc]
  split
  · exact inv_fail hd (by decide)
  next hrange =>
    have hdst := inBuf_of_rmRangesOk hrange
    refine inv_complete (dataOk_storeBytes (s := s.noteLoad s.src s.count) hd _ _ ?_)
    rw [length_rmEncode, length_loadBytes]
    exact hdst

theorem inv_runRmdec : s.runRmdec.Inv := by
  have hd := dataOk_of_inv h
  simp only [State.runRmdec]
  split
  · exact inv_fail hd (by decide)
  next hrange =>
    have hdst := inBuf_of_rmRangesOk hrange
    refine inv_complete (dataOk_storeBytes (dataOk_noteCorrelation (s := s.noteLoad s.src s.codeLen) hd _ _) _ _ ?_)
    rw [length_rmDecode, noteCorrelation_params]
    exact hdst

end Commands

/-- The loop's head, at a running SAMPLE with the sampler's part of the invariant. -/
theorem inv_sampleTurn {s : State} {d : Reg} (h : s.DataOk) (hr : s.Runs (.sample d)) (hf : s.fsm = .sample)
    (hs : s.SamplerOk) : (s.sampleTurn d).Inv := by
  have hrecord : s.recordDraws.DataOk := h
  rcases sampleTurn_cases s d with ⟨_, e⟩ | ⟨_, _, e⟩ | ⟨hremaining, _, e⟩ <;> rw [e]
  · exact inv_complete (dataOk_setPoly hrecord d hs.1)
  · exact inv_fail hrecord (by decide)
  · exact inv_of_runs (s := s.request (.drbgWait s.params.bytesNeeded)) h hr ⟨hf, rfl, hs, hremaining⟩

/-- At its start the vector has no bit set and the whole weight remains. -/
theorem samplerOk_startSample (s : State) : s.startSample.SamplerOk := by
  refine ⟨Nat.two_pow_pos _, ?_⟩
  show ((List.range s.params.n).filter fun i => Nat.testBit 0 i).length + s.cur.arg1.toNat = s.count
  simp [State.count]

theorem inv_runSample {s : State} {d : Reg} (h : s.Inv) (hr : s.Runs (.sample d)) (hp : s.PhaseOk (.sample d)) :
    (s.runSample d).Inv := by
  have hd := dataOk_of_inv h
  unfold State.PhaseOk at hp
  unfold State.runSample
  cases hphase : s.phase <;> simp only [hphase] at hp ⊢
  case start =>
    split
    · exact inv_fail hd (by decide)
    · exact inv_sampleTurn (s := s.startSample) (dataOk_startSample hd) hr hp (samplerOk_startSample s)
  case drbgGot bs =>
    obtain ⟨hf, _, hs, hremaining⟩ := hp
    have hsampler := samplerOk_takeDraw (bs := bs) hs hremaining
    have hdata := dataOk_takeDraw hd bs
    obtain ⟨_, _, _, e⟩ := takeDraw_eq s bs
    rw [e] at hsampler hdata ⊢
    exact inv_sampleTurn hdata hr hf hsampler
  case drbgWait k => exact h

/-- A request to the inner codec, made at a phase where the running command can wait for it. -/
theorem inv_askCodec {s : State} {i : Instr} {f : Fsm} {bs : List Byte} {r : CodecRequest} (h : s.DataOk)
    (hr : s.Runs i) (hb : bs.length ≤ s.params.stagingBytes) (hp : (s.askCodec f bs r).PhaseOk i) :
    (s.askCodec f bs r).Inv :=
  inv_of_runs (s := s.askCodec f bs r) (dataOk_stage h hb) hr hp

theorem ccN1_le_stagingBytes (p : Params) : p.ccN1 ≤ p.stagingBytes := le_max_left _ _

theorem ccK_le_stagingBytes (p : Params) : p.ccK ≤ p.stagingBytes := le_max_right _ _

theorem inv_runCcenc {s : State} {d : Reg} (h : s.Inv) (hr : s.Runs (.ccenc d)) : (s.runCcenc d).Inv := by
  have hd := dataOk_of_inv h
  unfold State.runCcenc
  cases hphase : s.phase <;> simp only
  case start =>
    split
    · exact inv_fail hd (by decide)
    · split
      · exact inv_fail hd (by decide)
      · have hload : (s.noteLoad s.src s.params.ccK).DataOk := hd
        have hlen := length_loadBytes s s.src s.params.ccK
        exact inv_askCodec (i := .ccenc d) hload hr (hlen.trans_le (ccK_le_stagingBytes _)) ⟨rfl, _, rfl, hlen⟩
  case codecGot ans =>
    cases ans with
    | ok i =>
      dsimp only
      split
      next hlen =>
        have hstage := dataOk_stage hd (hlen.trans_le (ccN1_le_stagingBytes s.params))
        exact inv_of_runs (s := s.enterRmEncode i) (i := .ccenc d) hstage hr rfl
      · exact inv_fail hd (by decide)
    | uncorrectable => exact inv_fail hd (by decide)
  case rmEncode =>
    have havail := ccAvail_of_decode hr.decode_eq rfl
    exact inv_complete (dataOk_setPoly hd d (codeword_lt havail (length_stagedCodeword hd.hiddenOk)))
  all_goals exact h

theorem inv_runCcdec {s : State} {a : Reg} (h : s.Inv) (hr : s.Runs (.ccdec a)) (hp : s.PhaseOk (.ccdec a)) :
    (s.runCcdec a).Inv := by
  have hd := dataOk_of_inv h
  unfold State.PhaseOk at hp
  unfold State.runCcdec
  cases hphase : s.phase <;> simp only [hphase] at hp ⊢
  case start =>
    split
    · exact inv_fail hd (by decide)
    · split
      · exact inv_fail hd (by decide)
      next hrange =>
        have hrange : s.params.inBuf s.dst s.params.ccK = true := by simpa using hrange
        have hdata := dataOk_noteCorrelation (s := s.notePoly a) hd s.params.ccN1 (codewordOf s.params (s.poly a))
        have hlen := length_rmDecode s.params.mult s.params.ccN1 (codewordOf s.params (s.poly a))
        obtain ⟨_, _, e⟩ := noteCorrelation_eq (s.notePoly a) s.params.ccN1 (codewordOf s.params (s.poly a))
        rw [e] at hdata ⊢
        exact inv_askCodec (i := .ccdec a) hdata hr (hlen.trans_le (ccN1_le_stagingBytes _))
          ⟨rfl, hrange, _, rfl, hlen⟩
  case codecGot ans =>
    cases ans with
    | ok m =>
      dsimp only
      split
      next hlen =>
        have hstage := dataOk_stage hd (hlen.trans_le (ccK_le_stagingBytes s.params))
        exact inv_complete (dataOk_storeBytes hstage _ _ (by rw [hlen]; exact hp.2))
      · exact inv_fail hd (by decide)
    | uncorrectable => exact inv_fail hd (by decide)
  case codecWait r => exact h

/-- The running command's step keeps the invariant, whichever command it is. -/
theorem inv_stepOf {s : State} {i : Instr} (h : s.Inv) (hr : s.Runs i) (hp : s.PhaseOk i) : (stepOf i s).Inv := by
  have hd := dataOk_of_inv h
  cases i with
  | nop => exact absurd rfl hr.ne_nop
  | pzero d => exact inv_complete (dataOk_setPoly hd d (Nat.two_pow_pos _))
  | pmov d a => exact inv_runPmov h d a
  | pxor d a b => exact inv_runPxor h d a b
  | pmul d a b => exact inv_runPmul h d a b
  | sample d => exact inv_runSample h hr hp
  | loadp d => exact inv_runLoadp h d
  | storep a => exact inv_runStorep h a
  | rmenc => exact inv_runRmenc h
  | rmdec => exact inv_runRmdec h
  | ccenc d => exact inv_runCcenc h hr
  | ccdec a => exact inv_runCcdec h hr hp

/-! ### The agents' steps -/

/-- An answer that is a next state with the invariant: no fault and no refusal. -/
def KeepsInv (o : Host.Outcome State Fault Refusal) : Prop := ∃ t, o = .next t ∧ t.Inv

theorem keepsInv_next {t : State} (h : t.Inv) : KeepsInv (.next t) := ⟨t, rfl, h⟩

@[simp] theorem length_laneBytes (len : Nat) (v : Word) : (laneBytes len v).length = len := by simp [laneBytes]

/-- An outstanding request is the phase the command waits at (R64). -/
theorem phase_of_drbgRequest {s : State} {k : Nat} (h : s.drbgRequest = some k) : s.phase = .drbgWait k := by
  cases hphase : s.phase <;> simp [State.drbgRequest, hphase] at h
  rw [h]

theorem phase_of_codecRequest {s : State} (h : s.codecRequest.isSome = true) : ∃ q, s.phase = .codecWait q := by
  cases hphase : s.phase <;> simp [State.codecRequest, hphase] at h
  exact ⟨_, rfl⟩

section Agents

variable {s : State} (h : s.Inv)
include h

theorem keepsInv_engineTurn : KeepsInv (engineTurn s) := by
  unfold engineTurn
  split
  next hbusy =>
    obtain ⟨i, hruns, hphase⟩ := runs_of_inv h hbusy
    rw [hruns.decode_eq]
    exact ⟨_, exec_eq_next s i, inv_stepOf h hruns hphase⟩
  · exact keepsInv_next h

/-- Acceptance starts the command at its first phase. -/
theorem inv_accept {w : Word} {i : Instr} (hdecode : decode s.params w = .ok i) (hnop : i ≠ .nop)
    (hweight : ¬(s.latch w).weightTooBig i = true) : ((s.latch w).accept i).Inv := by
  have hd := dataOk_of_inv h
  have hdata : ((s.latch w).accept i).DataOk := hd
  have hruns : ((s.latch w).accept i).Runs i := ⟨rfl, hdecode, hnop, Bool.eq_false_of_not_eq_true hweight⟩
  refine inv_of_runs hdata hruns ?_
  cases i <;> rfl

/-- A change that leaves ERR and ERRCODE in agreement, with no command running before or after. -/
theorem inv_of_idle {t : State} (hbusy : s.busy = false) (ht : t.DataOk) (hb : t.busy = s.busy)
    (hf : t.fsm = s.fsm) (hp : t.phase = s.phase) : t.Inv := by
  refine inv_of_dataOk h ht (fun hidle _ => ?_) fun _ => latchOk_of_idle (hb.trans hbusy)
  rw [hf, hp]
  exact hidle hbusy

theorem keepsInv_issue (w : Word) : KeepsInv (issue w s) := by
  have hd := dataOk_of_inv h
  unfold issue
  split
  · exact keepsInv_next (inv_of_dataOk h (dataOk_recordError hd (by decide) _) id id)
  next hbusy =>
    have hbusy := Bool.eq_false_of_not_eq_true hbusy
    split
    next e _ =>
      have hcode : decodeErrCode e ≠ .none := by cases e <;> decide
      have hdata := dataOk_recordError (s := s.latch w) hd hcode (opcField w)
      exact keepsInv_next (inv_of_idle h hbusy hdata rfl rfl rfl)
    next i hdecode =>
      split
      · have hdata := dataOk_recordError (s := s.latch w) hd (e := .illegalOperand) (by decide) (opcField w)
        exact keepsInv_next (inv_of_idle h hbusy hdata rfl rfl rfl)
      · split
        next hnop =>
          rw [hnop]
          exact keepsInv_next (inv_of_idle (t := (s.latch w).runNop) h hbusy hd rfl rfl rfl)
        · exact keepsInv_next (inv_accept h hdecode ‹_› ‹_›)

/-- The abort spoils its destination within the register's width and BUF's bounds. -/
theorem abort_ok : s.abort.PolysBounded ∧ s.abort.BufOk := by
  obtain ⟨_, hpolys, hbuf, _⟩ := h
  unfold State.abort
  split
  · split
    next i _ =>
      obtain ⟨hpolys, hbuf, _⟩ := spoilDestination_ok hpolys hbuf i
      exact ⟨hpolys, hbuf⟩
    · exact ⟨hpolys, hbuf⟩
  · exact ⟨hpolys, hbuf⟩

theorem inv_softReset : s.softReset.Inv := by
  obtain ⟨hpolys, hbuf⟩ := abort_ok h
  have hwf : s.softReset.params.wf = true := by rw [softReset_params]; exact wf_of_inv h
  exact inv_of_quiet hwf hpolys hbuf (errorOk_of_none rfl rfl rfl) (hiddenOk_freeHidden _) rfl rfl rfl

theorem inv_writeCtrl (v : Word) : (s.writeCtrl v).Inv := by
  unfold State.writeCtrl
  split
  · exact inv_softReset h
  · exact h

theorem inv_clearError : s.clearError.Inv := inv_of_dataOk h (dataOk_clearError (dataOk_of_inv h)) id id

theorem inv_writeStatus (v : Word) : (s.writeStatus v).Inv := by
  have hdone : (if v.getLsbD 1 then s.clearDone else s).Inv := by
    split
    · exact h
    · exact h
  unfold State.writeStatus
  dsimp only
  split
  · exact inv_clearError hdone
  · exact hdone

theorem keepsInv_writeCsr (c : Csr) (v : Word) : KeepsInv (writeCsr c v s) := by
  cases c
  case ctrl => exact keepsInv_next (inv_writeCtrl h v)
  case status => exact keepsInv_next (inv_writeStatus h v)
  case cmd => exact keepsInv_issue h v
  all_goals exact keepsInv_next h

theorem keepsInv_csrAccess (size : AccessSize) (kind : AccessKind) (off : Nat) :
    KeepsInv (csrAccess size kind off s) := by
  unfold csrAccess
  split
  · exact keepsInv_next h
  · split
    · exact keepsInv_next h
    · exact keepsInv_writeCsr (s := s.okay 0) h _ _

/-- The BUF window admits a write only within BUF and with no command running. -/
theorem inv_bufAccess (size : AccessSize) (kind : AccessKind) (a : Nat) : (s.bufAccess size kind a).Inv := by
  unfold State.bufAccess
  split
  next hadmits =>
    simp only [State.bufAdmits, Bool.and_eq_true, Bool.not_eq_true'] at hadmits
    obtain ⟨⟨hbusy, _⟩, hrange⟩ := hadmits
    cases kind with
    | read => exact h
    | write v =>
      have hdata := dataOk_storeBytes (s := s.okay 0) (dataOk_of_inv h) a (laneBytes size.bytes v)
        (by rw [length_laneBytes]; exact hrange)
      exact inv_of_idle (s := s) h hbusy hdata rfl rfl rfl
  · exact h

theorem keepsInv_hostAccess (a : Access) : KeepsInv (hostAccess a s) := by
  unfold hostAccess
  split
  · exact keepsInv_csrAccess h _ _ _
  · exact keepsInv_next (inv_bufAccess h _ _ _)

/-- The running command goes on at a phase it can stand at. -/
theorem inv_setPhase {p : Phase} (hbusy : s.busy = true) (hp : ∀ i, s.PhaseOk i → (s.setPhase p).PhaseOk i) :
    (s.setPhase p).Inv := by
  obtain ⟨i, hruns, hphase⟩ := runs_of_inv h hbusy
  have hd := dataOk_of_inv h
  exact inv_of_runs (s := s.setPhase p) hd hruns (hp i hphase)

theorem inv_answerDrbg (r : Nat) (bs : List Byte) : (s.answerDrbg r bs).Inv := by
  unfold State.answerDrbg
  split
  next htaken =>
    have hphase := phase_of_drbgRequest htaken.2
    refine inv_setPhase h (busy_of_phase h (by simp [hphase])) fun i hi => ?_
    cases i <;> simp only [State.PhaseOk, hphase] at hi
    exact hi
  · exact h

theorem inv_answerCodec (r : Nat) (ans : CodecAnswer) : (s.answerCodec r ans).Inv := by
  unfold State.answerCodec
  split
  next htaken =>
    obtain ⟨q, hphase⟩ := phase_of_codecRequest htaken.2
    refine inv_setPhase h (busy_of_phase h (by simp [hphase])) fun i hi => ?_
    cases i <;> simp only [State.PhaseOk, hphase] at hi
    case ccenc =>
      obtain ⟨hfsm, _⟩ := hi
      exact hfsm
    case ccdec =>
      obtain ⟨hfsm, hrange, _⟩ := hi
      exact ⟨hfsm, hrange⟩
  · exact h

end Agents

/-- The state after reset has the invariant, in every instance of R8. -/
theorem inv_resetOf {p : Params} (h : p.wf = true) : (State.resetOf p).Inv := by
  have hpolys : (State.resetOf p).PolysBounded := by
    intro i
    simp [State.poly, State.resetOf, Vector.get_eq_getElem]
  have hbuf : (State.resetOf p).BufOk := by simp [State.BufOk, State.resetOf, Memory.wf]
  exact inv_of_quiet h hpolys hbuf (errorOk_of_none rfl rfl rfl) (hiddenOk_resetOf p) rfl rfl rfl

theorem inv_driveRst {s : State} (h : s.Inv) (b : Bool) : (s.driveRst b).Inv := by
  have hreset := inv_resetOf (wf_of_inv h)
  unfold State.driveRst
  split
  · exact h
  · split
    · exact hreset
    · exact h

theorem keepsInv_advance {s : State} (h : s.Inv) (i : Input) : KeepsInv (advance i s) := by
  cases i with
  | rst b => exact keepsInv_next (inv_driveRst h b)
  | host a =>
    simp only [advance]
    split
    · exact keepsInv_next h
    · exact keepsInv_hostAccess h a
  | engine =>
    simp only [advance]
    split
    · exact keepsInv_next h
    · exact keepsInv_engineTurn h
  | drbg r bs =>
    refine keepsInv_next ?_
    split
    · exact h
    · exact inv_answerDrbg h r bs
  | codec r ans =>
    refine keepsInv_next ?_
    split
    · exact h
    · exact inv_answerCodec h r ans

theorem inv_dropInput {s : State} (h : s.Inv) : s.dropInput.Inv := by
  unfold State.dropInput
  split
  · exact h
  · exact h

/-- Settles O58: in an instance of R8 a step is the next agent's, and no agent's step loses the invariant. -/
theorem everyStepKeepsTheInvariant : Obligations.EveryStepKeepsTheInvariant := by
  unfold Obligations.EveryStepKeepsTheInvariant
  intro s h
  have hkept := keepsInv_advance (inv_dropInput h) s.nextInput
  rwa [← show step s = advance s.nextInput s.dropInput from if_pos (wf_of_inv h)] at hkept

/-- Settles O57: the state after reset has the invariant in every instance of R8, the default one among them. -/
theorem invariantHoldsAfterReset : Obligations.InvariantHoldsAfterReset := by
  unfold Obligations.InvariantHoldsAfterReset
  exact ⟨inv_resetOf (by decide), fun _ => inv_resetOf⟩

end Sys2Proof.Machine
end

section
/-! Noninterference of the hidden state (O14). `State.live` clears the working state of R38 that nothing reads before it
is set again. Clearing it before a step gives the same cleared state after the step as not clearing it, one layer of the
step after the other; so two states that agree once cleared agree so in the whole run. -/

namespace Sys2Proof.Machine

/-- A SAMPLE stands between two draws: its working state is in use. -/
def State.drawing (s : State) : Bool :=
  match s.phase with
  | .drbgWait _ => true
  | .drbgGot _ => true
  | .start => false
  | .codecWait _ => false
  | .codecGot _ => false
  | .rmEncode => false

/-- The state with the hidden state cleared, but for what the running command reads at the phase it stands at: the
sampler's state between draws, and the staged codeword in CCENC's second phase. -/
def State.live (s : State) : State :=
  s.withHidden 0 (if s.drawing then s.candidate else 0) (if s.drawing then s.remaining else 0)
    (if s.drawing then s.draws else 0) [] [] (if s.phase = .rmEncode then s.stagedCodeword else [])

/-- The answer with its next state cleared. -/
def liveOutcome : Host.Outcome State Fault Refusal → Host.Outcome State Fault Refusal
  | .next s => .next s.live
  | .fault r => .fault r
  | .refused r => .refused r

/-- States that are equal once cleared differ in hidden state alone. -/
theorem eq_withHidden_of_live_eq {s t : State} (h : s.live = t.live) :
    t = s.withHidden t.mulAcc t.candidate t.remaining t.draws t.soft t.corr t.staging := by
  calc t = t.live.withHidden t.mulAcc t.candidate t.remaining t.draws t.soft t.corr t.staging := rfl
    _ = s.live.withHidden t.mulAcc t.candidate t.remaining t.draws t.soft t.corr t.staging := by rw [h]
    _ = _ := rfl

/-- At a command's start nothing of the hidden state is in use. -/
theorem live_withHidden_of_start {s : State} (h : s.phase = .start) (m c : Nat) (r d : Word) (so : List Nat)
    (co : List Int) (st : List Byte) : (s.withHidden m c r d so co st).live = s.live := by
  simp [State.live, State.drawing, State.withHidden, h]

theorem live_of_start {s : State} (h : s.phase = .start) : s.live = s.withHidden 0 0 0 0 [] [] [] := by
  simp [State.live, State.drawing, h]

/-- Clearing twice is clearing once. -/
@[simp] theorem live_live (s : State) : s.live.live = s.live := by
  cases h : s.phase <;> simp [State.live, State.drawing, State.withHidden, State.stagedCodeword, h]

/-- An operation on the visible state alone, which leaves the phase and the hidden state as they are. -/
theorem live_of_commutes {f : State → State} {s : State} (h : f s.live = (f s).live) : (f s.live).live = (f s).live := by
  rw [h, live_live]

/-- Branch by branch, where the condition reads the visible state alone. -/
theorem live_ite {c : Prop} [Decidable c] {a b a' b' : State} (ha : c → a.live = a'.live)
    (hb : b.live = b'.live) : (if c then a else b).live = (if c then a' else b').live := by
  split
  · exact ha ‹_›
  · exact hb

/-! ### The commands: each sets what it reads of the hidden state before it reads it -/

section Commands

variable (s : State)

/-- The loop's head reads the sampler's working state alone. -/
theorem live_sampleTurn (d : Reg) (m : Nat) (so : List Nat) (co : List Int) (st : List Byte) :
    ((s.withHidden m s.candidate s.remaining s.draws so co st).sampleTurn d).live = (s.sampleTurn d).live :=
  live_ite (fun _ => rfl) (live_ite (fun _ => rfl) rfl)

theorem takeDraw_withHidden (bs : List Byte) (m : Nat) (so : List Nat) (co : List Int) (st : List Byte) :
    (s.withHidden m s.candidate s.remaining s.draws so co st).takeDraw bs =
      (s.takeDraw bs).withHidden m (s.takeDraw bs).candidate (s.takeDraw bs).remaining (s.takeDraw bs).draws so co
        st := by
  by_cases h : s.accepts (drawValue s.params bs) = true
  · rw [takeDraw_of_accepted s h]
    exact takeDraw_of_accepted (s.withHidden m s.candidate s.remaining s.draws so co st) h
  · rw [takeDraw_of_rejected s h]
    exact takeDraw_of_rejected (s.withHidden m s.candidate s.remaining s.draws so co st) h

theorem live_of_drbgGot {bs : List Byte} (h : s.phase = .drbgGot bs) :
    s.live = s.withHidden 0 s.candidate s.remaining s.draws [] [] [] := by
  simp [State.live, State.drawing, h]

theorem live_of_rmEncode (h : s.phase = .rmEncode) :
    s.live = s.withHidden 0 0 0 0 [] [] s.stagedCodeword := by
  simp [State.live, State.drawing, h]

theorem live_runSample (d : Reg) : (s.live.runSample d).live = (s.runSample d).live := by
  unfold State.runSample
  rw [show s.live.phase = s.phase from rfl]
  cases hphase : s.phase with
  | start =>
    rw [live_of_start hphase]
    exact live_ite (fun _ => rfl) (live_sampleTurn s.startSample d _ _ _ _)
  | drbgGot bs =>
    rw [live_of_drbgGot s hphase]
    dsimp only
    rw [takeDraw_withHidden, live_sampleTurn]
  | _ => exact live_live s

theorem live_runLoadp (d : Reg) : (s.live.runLoadp d).live = (s.runLoadp d).live :=
  live_ite (fun _ => rfl) (live_ite (fun _ => rfl) rfl)

theorem live_runStorep (a : Reg) : (s.live.runStorep a).live = (s.runStorep a).live := live_ite (fun _ => rfl) rfl

theorem live_runRmenc : s.live.runRmenc.live = s.runRmenc.live := live_ite (fun _ => rfl) rfl

theorem live_runRmdec : s.live.runRmdec.live = s.runRmdec.live := by
  refine live_ite (fun _ => rfl) ?_
  dsimp only
  obtain ⟨_, _, e⟩ := noteCorrelation_eq (s.noteLoad s.src s.codeLen) s.count (s.loadBytes s.src s.codeLen)
  obtain ⟨_, _, e'⟩ := noteCorrelation_eq (s.live.noteLoad s.live.src s.live.codeLen) s.live.count
    (s.live.loadBytes s.live.src s.live.codeLen)
  rw [e, e']
  rfl

theorem stagedCodeword_live (h : s.phase = .rmEncode) : s.live.stagedCodeword = s.stagedCodeword := by
  simp [live_of_rmEncode s h, State.stagedCodeword, State.withHidden]

/-- The staged codeword is the answer's, whatever the staging held. -/
theorem live_enterRmEncode {i : List Byte} (h : i.length = s.params.ccN1) :
    (s.live.enterRmEncode i).live = (s.enterRmEncode i).live := by
  rw [live_of_rmEncode (s.live.enterRmEncode i) rfl, live_of_rmEncode (s.enterRmEncode i) rfl,
    stagedCodeword_enterRmEncode s h, stagedCodeword_enterRmEncode s.live h]
  rfl

theorem live_runCcenc (d : Reg) : (s.live.runCcenc d).live = (s.runCcenc d).live := by
  unfold State.runCcenc
  rw [show s.live.phase = s.phase from rfl]
  cases hphase : s.phase with
  | start => exact live_ite (fun _ => rfl) (live_ite (fun _ => rfl) rfl)
  | codecGot ans =>
    cases ans with
    | ok i => exact live_ite (live_enterRmEncode s) rfl
    | uncorrectable => rfl
  | rmEncode =>
    dsimp only
    rw [stagedCodeword_live s hphase]
    rfl
  | _ => exact live_live s

theorem live_runCcdec (a : Reg) : (s.live.runCcdec a).live = (s.runCcdec a).live := by
  unfold State.runCcdec
  rw [show s.live.phase = s.phase from rfl]
  cases hphase : s.phase with
  | start =>
    refine live_ite (fun _ => rfl) (live_ite (fun _ => rfl) ?_)
    obtain ⟨_, _, e⟩ := noteCorrelation_eq (s.notePoly a) s.params.ccN1 (codewordOf s.params (s.poly a))
    obtain ⟨_, _, e'⟩ := noteCorrelation_eq (s.live.notePoly a) s.live.params.ccN1
      (codewordOf s.live.params (s.live.poly a))
    dsimp only
    rw [e, e']
    rfl
  | codecGot ans =>
    cases ans with
    | ok m => exact live_ite (fun _ => rfl) rfl
    | uncorrectable => rfl
  | _ => exact live_live s

theorem live_stepOf (i : Instr) : (stepOf i s.live).live = (stepOf i s).live := by
  cases i with
  | nop => exact live_of_commutes (f := State.runNop) rfl
  | pzero d => rfl
  | pmov d a => rfl
  | pxor d a b => rfl
  | pmul d a b => rfl
  | sample d => exact live_runSample s d
  | loadp d => exact live_runLoadp s d
  | storep a => exact live_runStorep s a
  | rmenc => exact live_runRmenc s
  | rmdec => exact live_runRmdec s
  | ccenc d => exact live_runCcenc s d
  | ccdec a => exact live_runCcdec s a

theorem liveOutcome_exec (i : Instr) : liveOutcome (exec i s.live) = liveOutcome (exec i s) := by
  rw [exec_eq_next, exec_eq_next]
  exact congrArg Host.Outcome.next (live_stepOf s i)

end Commands

/-! ### The agents' steps -/

section Agents

variable (s : State)

/-- Branch by branch, for answers. -/
theorem liveOutcome_ite {c : Prop} [Decidable c] {a b a' b' : Host.Outcome State Fault Refusal}
    (ha : liveOutcome a = liveOutcome a') (hb : liveOutcome b = liveOutcome b') :
    liveOutcome (if c then a else b) = liveOutcome (if c then a' else b') := by
  split
  · exact ha
  · exact hb

theorem liveOutcome_next {a b : State} (h : a.live = b.live) : liveOutcome (.next a) = liveOutcome (.next b) :=
  congrArg Host.Outcome.next h

theorem liveOutcome_engineTurn : liveOutcome (engineTurn s.live) = liveOutcome (engineTurn s) := by
  refine liveOutcome_ite ?_ (liveOutcome_next (live_live s))
  show liveOutcome (match decode s.params s.cur.word with | .ok i => exec i s.live | .error _ => _) = _
  cases decode s.params s.cur.word with
  | ok i => exact liveOutcome_exec s i
  | error e => rfl

theorem liveOutcome_issue (w : Word) : liveOutcome (issue w s.live) = liveOutcome (issue w s) := by
  refine liveOutcome_ite (liveOutcome_next (live_of_commutes (f := fun s => s.recordError .busy (opcField w)) rfl)) ?_
  show liveOutcome (match decode s.params w with | .error e => _ | .ok i => _) = _
  cases decode s.params w with
  | error e => exact liveOutcome_next (live_of_commutes (f := fun s => (s.latch w).reject (decodeErrCode e) w) rfl)
  | ok i =>
    refine liveOutcome_ite
      (liveOutcome_next (live_of_commutes (f := fun s => (s.latch w).reject .illegalOperand w) rfl)) ?_
    exact liveOutcome_ite (liveOutcome_exec (s.latch w) i) rfl

theorem spoilDestination_live (i : Instr) : s.live.spoilDestination i = (s.spoilDestination i).live := by
  cases i <;> simp only [State.spoilDestination, apply_ite State.live] <;> rfl

theorem abort_live : s.live.abort = s.abort.live := by
  unfold State.abort
  rw [apply_ite State.live]
  refine if_congr Iff.rfl ?_ rfl
  show (match decode s.params s.cur.word with | .ok i => s.live.spoilDestination i | .error _ => s.live) = _
  cases decode s.params s.cur.word with
  | ok i => exact spoilDestination_live s i
  | error e => rfl

/-- A soft reset leaves nothing of the hidden state as it was (R127). -/
theorem softReset_live : s.live.softReset = s.softReset := by
  unfold State.softReset
  rw [abort_live]
  rfl

theorem live_writeCtrl (v : Word) : (s.live.writeCtrl v).live = (s.writeCtrl v).live :=
  live_ite (fun _ => congrArg State.live (softReset_live s))
    (live_of_commutes (f := fun s => s.setEnables (v.getLsbD 1) (v.getLsbD 2)) rfl)

theorem writeStatus_live (v : Word) : s.live.writeStatus v = (s.writeStatus v).live := by
  unfold State.writeStatus
  cases v.getLsbD 1 <;> cases v.getLsbD 2 <;> rfl

theorem liveOutcome_writeCsr (c : Csr) (v : Word) : liveOutcome (writeCsr c v s.live) = liveOutcome (writeCsr c v s) := by
  cases c
  case ctrl => exact liveOutcome_next (live_writeCtrl s v)
  case status => exact liveOutcome_next (live_of_commutes (f := fun s => s.writeStatus v) (writeStatus_live s v))
  case cmd => exact liveOutcome_issue s v
  case arg0 => exact liveOutcome_next (live_of_commutes (f := fun s => { s with arg0 := v }) rfl)
  case arg1 => exact liveOutcome_next (live_of_commutes (f := fun s => { s with arg1 := v }) rfl)
  case arg2 => exact liveOutcome_next (live_of_commutes (f := fun s => { s with arg2 := v }) rfl)
  case sampleLimit => exact liveOutcome_next (live_of_commutes (f := fun s => { s with sampleLimit := v }) rfl)
  all_goals exact liveOutcome_next (live_live s)

theorem csrWord_live (c : Csr) : s.live.csrWord c = s.csrWord c := by cases c <;> rfl

theorem live_slverr : s.live.slverr.live = s.slverr.live := live_of_commutes (f := State.slverr) rfl

theorem liveOutcome_csrAccess (size : AccessSize) (kind : AccessKind) (off : Nat) :
    liveOutcome (csrAccess size kind off s.live) = liveOutcome (csrAccess size kind off s) := by
  unfold csrAccess
  cases csrAt size off with
  | none => exact liveOutcome_next (live_slverr s)
  | some c =>
    cases kind with
    | read =>
      dsimp only
      rw [csrWord_live]
      exact liveOutcome_next (live_of_commutes (f := fun t => (t.okay (s.csrWord c)).useFree c.freeUsed) rfl)
    | write v => exact liveOutcome_writeCsr (s.okay 0) c v

theorem live_bufAccess (size : AccessSize) (kind : AccessKind) (a : Nat) :
    (s.live.bufAccess size kind a).live = (s.bufAccess size kind a).live := by
  refine live_ite (fun _ => ?_) (live_slverr s)
  cases kind with
  | read =>
    exact live_of_commutes (f := fun s => (s.okay (laneWord (s.loadBytes a size.bytes))).useFree size.bytes) rfl
  | write v => exact live_of_commutes (f := fun s => (s.okay 0).storeBytes a (laneBytes size.bytes v)) rfl

theorem liveOutcome_hostAccess (a : Access) : liveOutcome (hostAccess a s.live) = liveOutcome (hostAccess a s) :=
  liveOutcome_ite (liveOutcome_csrAccess s _ _ _) (liveOutcome_next (live_bufAccess s _ _ _))

/-- The answer to a draw's request finds the sampler's state still in use. -/
theorem live_answerDrbg (r : Nat) (bs : List Byte) : (s.live.answerDrbg r bs).live = (s.answerDrbg r bs).live := by
  refine live_ite (fun htaken => ?_) (live_live s)
  have hphase : s.phase = .drbgWait bs.length := phase_of_drbgRequest htaken.2
  have hdrawing : s.drawing = true := by simp [State.drawing, hphase]
  rw [live_of_drbgGot (s.live.setPhase (.drbgGot bs)) rfl, live_of_drbgGot (s.setPhase (.drbgGot bs)) rfl]
  simp [State.live, hdrawing, State.withHidden]

theorem live_answerCodec (r : Nat) (ans : CodecAnswer) : (s.live.answerCodec r ans).live = (s.answerCodec r ans).live :=
  live_ite (fun _ => rfl) (live_live s)

theorem live_driveRst (b : Bool) : (s.live.driveRst b).live = (s.driveRst b).live :=
  live_ite (fun _ => live_of_commutes (f := fun s => { s with rst := true }) rfl)
    (live_ite (fun _ => rfl) (live_live s))

theorem liveOutcome_advance (i : Input) : liveOutcome (advance i s.live) = liveOutcome (advance i s) := by
  have hidle := liveOutcome_next (live_live s)
  cases i with
  | rst b => exact liveOutcome_next (live_driveRst s b)
  | host a => exact liveOutcome_ite hidle (liveOutcome_hostAccess s a)
  | engine => exact liveOutcome_ite hidle (liveOutcome_engineTurn s)
  | drbg r bs => exact liveOutcome_next (live_ite (fun _ => live_live s) (live_answerDrbg s r bs))
  | codec r ans => exact liveOutcome_next (live_ite (fun _ => live_live s) (live_answerCodec s r ans))

/-- Which step comes next is chosen by the visible state. -/
theorem nextInput_live : s.live.nextInput = s.nextInput := rfl

theorem dropInput_live : s.live.dropInput = s.dropInput.live := by
  unfold State.dropInput
  show (match firstEnabled s.rst s.inputs with | some (_, others) => _ | none => _) = _
  cases firstEnabled s.rst s.inputs <;> rfl

theorem liveOutcome_step : liveOutcome (step s.live) = liveOutcome (step s) := by
  refine liveOutcome_ite ?_ rfl
  rw [nextInput_live, dropInput_live]
  exact liveOutcome_advance s.dropInput s.nextInput

end Agents

/-! ### Whole runs -/

/-- States that agree once cleared answer alike, up to cleared state. -/
theorem next_of_live_eq {f : State → Host.Outcome State Fault Refusal}
    (hf : ∀ s, liveOutcome (f s.live) = liveOutcome (f s)) {s s' t : State} (h : s.live = s'.live) (ht : f s = .next t) :
    ∃ t', f s' = .next t' ∧ t.live = t'.live := by
  have hsame : liveOutcome (f s') = .next t.live := by rw [← hf s', ← h, hf s, ht]; rfl
  match hans : f s' with
  | .next t' =>
    rw [hans] at hsame
    exact ⟨t', rfl, (Host.Outcome.next.inj hsame).symm⟩
  | .fault r => rw [hans] at hsame; cases hsame
  | .refused r => rw [hans] at hsame; cases hsame

/-- A run of one more step. -/
theorem run_succ_eq_next_iff (k : Nat) (s t : State) :
    Host.Core.run core (k + 1) s = .next t ↔ ∃ m, step s = .next m ∧ Host.Core.run core k m = .next t := by
  have hstep : core.step s = step s := rfl
  simp only [Host.Core.run]
  rw [hstep]
  cases step s <;> simp

theorem run_of_live_eq (k : Nat) {s s' t : State} (h : s.live = s'.live) (ht : Host.Core.run core k s = .next t) :
    ∃ t', Host.Core.run core k s' = .next t' ∧ t.live = t'.live := by
  induction k generalizing s s' with
  | zero =>
    obtain rfl := Host.Outcome.next.inj ht
    exact ⟨s', rfl, h⟩
  | succ k ih =>
    obtain ⟨m, hstep, hrun⟩ := (run_succ_eq_next_iff k s t).mp ht
    obtain ⟨m', hstep', hlive⟩ := next_of_live_eq liveOutcome_step h hstep
    obtain ⟨t', hrun', hlive'⟩ := ih hlive hrun
    exact ⟨t', (run_succ_eq_next_iff k s' t').mpr ⟨m', hstep', hrun'⟩, hlive'⟩

/-- Settles O14: what an earlier command left is cleared state at a command's start, and no step and no run tells cleared
states apart. -/
theorem resultsDoNotDependOnHiddenState : Obligations.ResultsDoNotDependOnHiddenState := by
  unfold Obligations.ResultsDoNotDependOnHiddenState
  intro s m c r d so co st hstart
  have hlive := (live_withHidden_of_start hstart m c r d so co st).symm
  refine ⟨fun i t ht => ?_, fun k t ht => ?_⟩
  · obtain ⟨t', ht', h⟩ := next_of_live_eq (fun s => liveOutcome_exec s i) hlive ht
    exact ⟨_, _, _, _, _, _, _, ht'.trans (congrArg Host.Outcome.next (eq_withHidden_of_live_eq h))⟩
  · obtain ⟨t', ht', h⟩ := run_of_live_eq k hlive ht
    exact ⟨_, _, _, _, _, _, _, ht'.trans (congrArg Host.Outcome.next (eq_withHidden_of_live_eq h))⟩

end Sys2Proof.Machine
end

section
/-! The host's accesses (O45, O46, O47, O49, O52, O53) and power-on (O55): one step at a CSR's offset, the value of each
CSR from its fields, and what a host access can answer. -/

namespace Sys2Proof.Machine

/-! ### One step at a CSR's offset -/

section CsrSteps

variable {s : State} {rest : List Input}

/-- A host access is the next step: the access on the state with its turn taken. -/
theorem step_of_host {a : Access} (h : s.Ready (.host a) rest) : step s = hostAccess a { s with inputs := rest } := by
  obtain ⟨_, hrst, _⟩ := id h
  rw [step_of_ready h]
  simp [advance, hrst]

theorem step_csr_read (c : Csr)
    (h : s.Ready (.host ⟨s.params.base + BitVec.ofNat 32 c.offset, .b32, .read⟩) rest) :
    step s = .next ((({ s with inputs := rest } : State).okay (s.csrWord c)).useFree c.freeUsed) := by
  have hword : ({ s with inputs := rest } : State).csrWord c = s.csrWord c := by cases c <;> rfl
  rw [step_of_host h, ← hword]
  exact hostAccess_csr { s with inputs := rest } c .read

theorem step_csr_write (c : Csr) {v : Word}
    (h : s.Ready (.host ⟨s.params.base + BitVec.ofNat 32 c.offset, .b32, .write v⟩) rest) :
    step s = writeCsr c v (({ s with inputs := rest } : State).okay 0) := by
  rw [step_of_host h]
  exact hostAccess_csr { s with inputs := rest } c (.write v)

/-- The host reads the CSR's word with an OKAY response. -/
theorem csr_read_answers (c : Csr) {P : Word → Prop}
    (h : s.Ready (.host ⟨s.params.base + BitVec.ofNat 32 c.offset, .b32, .read⟩) rest) (hP : P (s.csrWord c)) :
    ∃ (t : State) (v : Word), step s = .next t ∧ t.resp = some ⟨false, v⟩ ∧ P v :=
  ⟨_, _, step_csr_read c h, rfl, hP⟩

end CsrSteps

/-! ### The CSRs' values -/

/-- Concatenated fields as a number: the high field above the low one's width. -/
theorem toNat_append_eq_add {m n : Nat} (x : BitVec m) (y : BitVec n) : (x ++ y).toNat = x.toNat * 2 ^ n + y.toNat := by
  rw [BitVec.toNat_append, ← Nat.shiftLeft_add_eq_or_of_lt y.isLt, Nat.shiftLeft_eq]

section Parameters

variable {s : State} (h : s.params.wf = true)
include h

theorem toNat_csrWord_paramN : (s.csrWord .paramN).toNat = s.params.n := by
  obtain ⟨_, hn, _⟩ := (params_wf_iff s.params).mp h
  exact (BitVec.toNat_ofNat _ _).trans (Nat.mod_eq_of_lt hn)

theorem toNat_csrWord_paramRm : (s.csrWord .paramRm).toNat = s.params.mult + 8 * 2 ^ 8 + 7 * 2 ^ 16 := by
  have hmult := mult_le_of_wf h
  simp only [State.csrWord, toNat_append_eq_add, BitVec.toNat_ofNat]
  omega

theorem toNat_csrWord_paramCc : (s.csrWord .paramCc).toNat = s.params.ccK + 2 ^ 16 * s.params.ccN1 := by
  obtain ⟨_, _, _, _, _, hk, _, hn1, _⟩ := (params_wf_iff s.params).mp h
  simp only [State.csrWord, toNat_append_eq_add, BitVec.toNat_ofNat]
  omega

theorem toNat_csrWord_paramBuf : (s.csrWord .paramBuf).toNat = s.params.bufBytes := by
  obtain ⟨_, _, _, _, _, _, _, _, _, _, _, hbuf⟩ := (params_wf_iff s.params).mp h
  exact (BitVec.toNat_ofNat _ _).trans (Nat.mod_eq_of_lt (by omega))

end Parameters

/-- Settles O45: the two constants, and the parameters in their fields, which R8's and R23's bounds make wide enough. -/
theorem hardwiredCsrsReadTheirValues : Obligations.HardwiredCsrsReadTheirValues := by
  unfold Obligations.HardwiredCsrsReadTheirValues
  intro s rest o h ho
  simp only [List.mem_cons, List.not_mem_nil, or_false] at ho
  rcases ho with rfl | rfl | rfl | rfl | rfl | rfl
  · exact csr_read_answers .id h rfl
  · exact csr_read_answers .version h rfl
  · exact csr_read_answers .paramN h (toNat_csrWord_paramN h.1)
  · exact csr_read_answers .paramRm h (toNat_csrWord_paramRm h.1)
  · exact csr_read_answers .paramCc h (toNat_csrWord_paramCc h.1)
  · exact csr_read_answers .paramBuf h (toNat_csrWord_paramBuf h.1)

theorem toNat_ctrlWord (s : State) : s.ctrlWord.toNat = 2 * s.ieDone.toNat + 4 * s.ieErr.toNat := by
  simp only [State.ctrlWord, toNat_append_eq_add, BitVec.toNat_ofBool, BitVec.toNat_ofNat]
  omega

theorem toNat_errcodeWord (s : State) : s.errcodeWord.toNat = 256 * s.errOpc.toNat + s.errCode.code.toNat := by
  simp only [State.errcodeWord, toNat_append_eq_add, BitVec.toNat_ofNat]
  omega

/-- Settles O47: each CSR's word is its fields'. -/
theorem otherCsrsReadTheirFields : Obligations.OtherCsrsReadTheirFields := by
  unfold Obligations.OtherCsrsReadTheirFields
  intro s rest o h ho
  simp only [List.mem_cons, List.not_mem_nil, or_false] at ho
  rcases ho with rfl | rfl | rfl | rfl | rfl | rfl | rfl | rfl
  · exact csr_read_answers .ctrl h (by simpa [State.csrWord] using toNat_ctrlWord s)
  · refine csr_read_answers .errcode h ?_
    simp only [State.csrWord, toNat_errcodeWord]
    cases s.errCode <;> simp [ErrCode.code]
  · exact csr_read_answers .cmd h (by simp [State.csrWord])
  · exact csr_read_answers .arg0 h (by simp [State.csrWord])
  · exact csr_read_answers .arg1 h (by simp [State.csrWord])
  · exact csr_read_answers .arg2 h (by simp [State.csrWord])
  · exact csr_read_answers .sampleLimit h (by simp [State.csrWord])
  · exact csr_read_answers .sampleDraws h (by simp [State.csrWord])

/-! ### STATUS (R28, R30) -/

theorem toNat_statusWith (s : State) (f : Fsm) :
    (s.statusWith f).toNat =
      2 ^ 8 * f.code.toNat + 8 * s.irq.toNat + 4 * s.err.toNat + 2 * s.done.toNat + s.busy.toNat := by
  simp only [State.statusWith, toNat_append_eq_add, BitVec.toNat_ofBool, BitVec.toNat_ofNat]
  omega

/-- BUSY, DONE, ERR and IRQ are STATUS's bits 0 to 3. -/
theorem statusWith_flags (s : State) (f : Fsm) :
    (s.statusWith f).getLsbD 0 = s.busy ∧ (s.statusWith f).getLsbD 1 = s.done ∧ (s.statusWith f).getLsbD 2 = s.err ∧
      (s.statusWith f).getLsbD 3 = s.irq := by
  simp only [State.statusWith, BitVec.getLsbD_append]
  simp

/-- STATE is STATUS's bits 11 to 8, and the reserved bits are 0. -/
theorem statusWith_state (s : State) (f : Fsm) :
    (s.statusWith f).extractLsb' 4 4 = 0 ∧ (s.statusWith f).extractLsb' 12 20 = 0 ∧
      (s.statusWith f).extractLsb' 8 4 = f.code := by
  have h := toNat_statusWith s f
  have hirq := s.irq.toNat_lt
  have herr := s.err.toNat_lt
  have hdone := s.done.toNat_lt
  have hbusy := s.busy.toNat_lt
  have hcode := f.code.isLt
  refine ⟨?_, ?_, ?_⟩ <;> apply BitVec.eq_of_toNat_eq <;> rw [BitVec.extractLsb'_toNat, h, Nat.shiftRight_eq_div_pow]
  · show _ = 0
    omega
  · show _ = 0
    omega
  · omega

theorem pickState_mem {fs : List Fsm} (h : fs ≠ []) (k : Nat) : pickState fs k ∈ fs := by
  match fs with
  | [f] => simp [pickState]
  | f :: g :: rest =>
    have hlt : Config.freeValue k % (f :: g :: rest).length < (f :: g :: rest).length := Nat.mod_lt _ (by simp)
    rw [pickState, List.getD_eq_getElem _ _ hlt]
    exact List.getElem_mem hlt

/-- While BUSY, STATE is one of the running command's states (R30, U4). -/
theorem visibleFsm_mem {s : State} {i : Instr} (hbusy : s.busy = true) (hd : decode s.params s.cur.word = .ok i) :
    s.visibleFsm ∈ statesOf i := by
  simp only [State.visibleFsm, hbusy, if_true, hd]
  exact pickState_mem (by cases i <;> simp [statesOf]) s.freeCtr

/-- With no command running STATE is IDLE. -/
theorem visibleFsm_of_idle {s : State} (h : s.IdleOk) (hbusy : s.busy = false) : s.visibleFsm = .idle := by
  simp [State.visibleFsm, hbusy, (h hbusy).1]

/-- Settles O46: the flags and STATE as their fields, and STATE's value one of the running command's. -/
theorem statusReadsItsFields : Obligations.StatusReadsItsFields := by
  unfold Obligations.StatusReadsItsFields
  intro s rest h hinv
  obtain ⟨_, _, _, _, _, hidle, _⟩ := hinv
  obtain ⟨hbusy, hdone, herr, hirq⟩ := statusWith_flags s s.visibleFsm
  obtain ⟨hlow, hhigh, hstate⟩ := statusWith_state s s.visibleFsm
  refine csr_read_answers .status h ⟨hbusy, hdone, herr, hirq, hlow, hhigh, fun hb => ?_, fun i hb hd => ?_⟩
  · exact hstate.trans (by rw [visibleFsm_of_idle hidle hb]; rfl)
  · have hmem := visibleFsm_mem hb hd
    rw [show s.csrWord .status = s.statusWith s.visibleFsm from rfl, hstate]
    have hcode : s.visibleFsm.code.toNat ∈ (statesOf i).map fun f => f.code.toNat := List.mem_map_of_mem hmem
    cases i <;> exact hcode

/-! ### What a host access answers -/

theorem ofOffset_some_iff (o : Nat) : (∃ c, Csr.ofOffset o = some c) ↔ o % 4 = 0 ∧ o ≤ 0x38 := by
  constructor
  · rintro ⟨c, hc⟩
    have ho : c.offset = o := by simpa using List.find?_some hc
    subst ho
    cases c <;> decide
  · rintro ⟨halign, hle⟩
    obtain ⟨k, rfl⟩ : ∃ k, o = 4 * k := ⟨o / 4, by omega⟩
    have hk : k < 15 := by omega
    interval_cases k <;> exact ⟨_, rfl⟩

/-- A CSR write answers a next state: the response stands, and with no command running the registers too. -/
def WriteAnswers (s : State) (o : Host.Outcome State Fault Refusal) : Prop :=
  ∃ t, o = .next t ∧ t.resp = s.resp ∧ (s.busy = false → t.polys = s.polys ∧ t.polyWritten = s.polyWritten)

theorem writeAnswers_next {s t : State} (hr : t.resp = s.resp) (hp : t.polys = s.polys)
    (hw : t.polyWritten = s.polyWritten) : WriteAnswers s (.next t) := ⟨t, rfl, hr, fun _ => ⟨hp, hw⟩⟩

theorem writeAnswers_issue (s : State) (w : Word) : WriteAnswers s (issue w s) := by
  unfold issue
  split
  · exact writeAnswers_next rfl rfl rfl
  · split
    · exact writeAnswers_next rfl rfl rfl
    · split
      · exact writeAnswers_next rfl rfl rfl
      · split
        next hnop =>
          subst hnop
          exact writeAnswers_next rfl rfl rfl
        · exact writeAnswers_next rfl rfl rfl

theorem spoilDestination_resp (s : State) (i : Instr) : (s.spoilDestination i).resp = s.resp := by
  have hpoly : ∀ d, (s.drawPoly d).resp = s.resp := fun _ => rfl
  have hrange : ∀ a len, (s.drawRange a len).resp = s.resp := fun _ _ => rfl
  cases i <;> simp only [State.spoilDestination, apply_ite State.resp, hpoly, hrange, ite_self]

theorem abort_resp (s : State) : s.abort.resp = s.resp := by
  unfold State.abort
  split
  · split
    · exact spoilDestination_resp s _
    · rfl
  · rfl

/-- With no command running there is nothing to abort. -/
theorem abort_of_idle {s : State} (h : s.busy = false) : s.abort = s := by simp [State.abort, h]

theorem writeCtrl_of_srst_zero {s : State} {v : Word} (h : v.getLsbD 0 = false) :
    s.writeCtrl v = s.setEnables (v.getLsbD 1) (v.getLsbD 2) := if_neg (by rw [h]; decide)

theorem writeAnswers_writeCtrl (s : State) (v : Word) : WriteAnswers s (.next (s.writeCtrl v)) := by
  unfold State.writeCtrl
  split
  · refine ⟨_, rfl, abort_resp s, fun hbusy => ?_⟩
    unfold State.softReset
    rw [abort_of_idle hbusy]
    exact ⟨rfl, rfl⟩
  · exact writeAnswers_next rfl rfl rfl

/-- A 1 clears DONE or ERR, and clearing ERR clears ERRCODE (R28, R29). -/
theorem writeStatus_eq (s : State) (v : Word) :
    s.writeStatus v = { s with
      done := s.done && !v.getLsbD 1, err := s.err && !v.getLsbD 2
      errCode := if v.getLsbD 2 then .none else s.errCode, errOpc := if v.getLsbD 2 then 0 else s.errOpc } := by
  unfold State.writeStatus
  cases v.getLsbD 1 <;> cases v.getLsbD 2 <;> simp [State.clearDone, State.clearError]

theorem writeAnswers_writeCsr (s : State) (c : Csr) (v : Word) : WriteAnswers s (writeCsr c v s) := by
  cases c
  case ctrl => exact writeAnswers_writeCtrl s v
  case status =>
    have hkeep : WriteAnswers s (.next (s.writeStatus v)) := by
      rw [writeStatus_eq]
      exact writeAnswers_next rfl rfl rfl
    exact hkeep
  case cmd => exact writeAnswers_issue s v
  all_goals exact writeAnswers_next rfl rfl rfl

/-- The accesses that get SLVERR (R43, R50, R51, R52). -/
def State.refuses (s : State) (a : Access) : Prop :=
  (s.params.offsetOf a.addr < bufWindow ∧ csrAt a.size (s.params.offsetOf a.addr) = none) ∨
    (bufWindow ≤ s.params.offsetOf a.addr ∧ s.bufAdmits a.size (s.params.offsetOf a.addr - bufWindow) = false)

theorem hostAccess_of_refuses {s : State} {a : Access} (h : s.refuses a) : hostAccess a s = .next s.slverr := by
  unfold hostAccess
  rcases h with ⟨hoff, hcsr⟩ | ⟨hoff, hbuf⟩
  · simp [hoff, csrAccess, hcsr]
  · simp [Nat.not_lt.mpr hoff, State.bufAccess, hbuf]

/-- Every other access gets OKAY, and with no command running leaves the polynomial registers. -/
theorem hostAccess_of_admits {s : State} {a : Access} (h : ¬s.refuses a) :
    ∃ (t : State) (v : Word), hostAccess a s = .next t ∧ t.resp = some ⟨false, v⟩ ∧
      (s.busy = false → t.polys = s.polys ∧ t.polyWritten = s.polyWritten) := by
  unfold hostAccess
  split
  next hoff =>
    unfold csrAccess
    split
    next hcsr => exact absurd (.inl ⟨hoff, hcsr⟩) h
    next c _ =>
      cases a.kind with
      | read => exact ⟨_, _, rfl, rfl, fun _ => ⟨rfl, rfl⟩⟩
      | write v =>
        obtain ⟨t, ht, hresp, hpolys⟩ := writeAnswers_writeCsr (s.okay 0) c v
        exact ⟨t, 0, ht, hresp, hpolys⟩
  next hoff =>
    have hadmits : s.bufAdmits a.size (s.params.offsetOf a.addr - bufWindow) = true := by
      by_contra hbuf
      exact h (.inr ⟨Nat.not_lt.mp hoff, by simpa using hbuf⟩)
    unfold State.bufAccess
    rw [if_pos hadmits]
    cases a.kind with
    | read => exact ⟨_, _, rfl, rfl, fun _ => ⟨rfl, rfl⟩⟩
    | write v => exact ⟨_, _, rfl, rfl, fun _ => ⟨rfl, rfl⟩⟩

/-- Settles O53: a refused access changes nothing, and no other one changes a register. -/
theorem hostAccessesLeaveThePolynomials : Obligations.HostAccessesLeaveThePolynomials := by
  unfold Obligations.HostAccessesLeaveThePolynomials
  intro s t rest a h hbusy ht
  rw [step_of_host h] at ht
  by_cases hrefuses : ({ s with inputs := rest } : State).refuses a
  · rw [hostAccess_of_refuses hrefuses] at ht
    obtain rfl := Host.Outcome.next.inj ht
    exact ⟨rfl, rfl⟩
  · obtain ⟨t', _, ht', _, hpolys⟩ := hostAccess_of_admits hrefuses
    obtain rfl := Host.Outcome.next.inj (ht'.symm.trans ht)
    exact hpolys hbusy

theorem csrAt_eq_none_iff (size : AccessSize) (o : Nat) :
    csrAt size o = none ↔ size.bytes ≠ 4 ∨ o % 4 ≠ 0 ∨ 0x38 < o := by
  have hmapped := ofOffset_some_iff o
  cases size
  case b32 =>
    simp only [csrAt, if_true, AccessSize.bytes, ne_eq, not_true, false_or, Option.eq_none_iff_forall_ne_some]
    rw [← not_exists, hmapped]
    omega
  all_goals simp [csrAt, AccessSize.bytes]

theorem bufAdmits_eq_false_iff (s : State) (size : AccessSize) (o : Nat) (h : bufWindow ≤ o) :
    s.bufAdmits size (o - bufWindow) = false ↔
      s.busy = true ∨ o % size.bytes ≠ 0 ∨ 0x10000 + s.params.bufBytes < o + size.bytes := by
  have hwindow : bufWindow = 0x10000 := rfl
  have halign : (o - bufWindow) % size.bytes = o % size.bytes := by
    cases size <;> simp only [AccessSize.bytes, hwindow] <;> omega
  have hinside : o - bufWindow + size.bytes ≤ s.params.bufBytes ↔ o + size.bytes ≤ 0x10000 + s.params.bufBytes := by
    omega
  rw [← Bool.not_eq_true]
  simp only [State.bufAdmits, Bool.and_eq_true, Bool.not_eq_true', decide_eq_true_eq, halign, hinside, ← Nat.not_le]
  cases s.busy <;> simp [imp_iff_not_or]

/-- The refused accesses in the spec's words (R43, R50, R51, R52). -/
theorem refuses_iff (s : State) (a : Access) :
    s.refuses a ↔
      ((a.addr - s.params.base).toNat < 0x10000 ∧
        (a.size.bytes ≠ 4 ∨ (a.addr - s.params.base).toNat % 4 ≠ 0 ∨ 0x38 < (a.addr - s.params.base).toNat)) ∨
      (0x10000 ≤ (a.addr - s.params.base).toNat ∧
        (s.busy = true ∨ (a.addr - s.params.base).toNat % a.size.bytes ≠ 0 ∨
          0x10000 + s.params.bufBytes < (a.addr - s.params.base).toNat + a.size.bytes)) := by
  unfold State.refuses
  rw [csrAt_eq_none_iff]
  exact or_congr Iff.rfl (and_congr_right fun h => bufAdmits_eq_false_iff s a.size _ h)

/-- Settles O49: the refused accesses in the spec's words, and what hostAccess answers to them and to the others. -/
theorem accessesThatAreRefusedHaveNoEffect : Obligations.AccessesThatAreRefusedHaveNoEffect := by
  unfold Obligations.AccessesThatAreRefusedHaveNoEffect
  intro s rest a h off width bad
  have hwidth : width = a.size.bytes := by cases hs : a.size <;> simp [width, hs, AccessSize.bytes]
  have hbad : bad ↔ ({ s with inputs := rest } : State).refuses a := by
    rw [refuses_iff, ← hwidth]
  rw [step_of_host h, hbad]
  refine ⟨fun hrefuses => hostAccess_of_refuses hrefuses, fun hadmits => ?_⟩
  obtain ⟨t, v, ht, hresp, _⟩ := hostAccess_of_admits hadmits
  exact ⟨t, v, ht, hresp⟩

/-- Settles O52: each write at its CSR's offset. -/
theorem csrWritesChangeTheirFieldsOnly : Obligations.CsrWritesChangeTheirFieldsOnly := by
  unfold Obligations.CsrWritesChangeTheirFieldsOnly
  intro s rest o v h s1
  refine ⟨?_, ?_, ?_, ?_, ?_, ?_, ?_⟩
  · rintro rfl hsrst
    exact (step_csr_write .ctrl h).trans (congrArg Host.Outcome.next (writeCtrl_of_srst_zero hsrst))
  · rintro rfl
    exact (step_csr_write .status h).trans (congrArg Host.Outcome.next (writeStatus_eq _ v))
  · rintro rfl
    exact step_csr_write .arg0 h
  · rintro rfl
    exact step_csr_write .arg1 h
  · rintro rfl
    exact step_csr_write .arg2 h
  · rintro rfl
    exact step_csr_write .sampleLimit h
  · intro ho
    simp only [List.mem_cons, List.not_mem_nil, or_false] at ho
    rcases ho with rfl | rfl | rfl | rfl | rfl | rfl | rfl | rfl
    · exact step_csr_write .id h
    · exact step_csr_write .version h
    · exact step_csr_write .paramN h
    · exact step_csr_write .paramRm h
    · exact step_csr_write .paramCc h
    · exact step_csr_write .paramBuf h
    · exact step_csr_write .errcode h
    · exact step_csr_write .sampleDraws h

/-! ### Power-on (R39) -/

/-- The release of `rst` is the next step, whatever waits. -/
theorem step_of_release {s : State} {rest : List Input} (hwf : s.params.wf = true) (hrst : s.rst = true)
    (hin : s.inputs = .rst false :: rest) : step s = .next { s with inputs := rest }.powerOn := by
  simp [step, hwf, State.nextInput, State.dropInput, hin, firstEnabled, Input.isHost, advance, State.driveRst, hrst]

theorem ctrlWord_powerOn (s : State) : s.powerOn.ctrlWord = 0 :=
  BitVec.eq_of_toNat_eq (toNat_ctrlWord s.powerOn)

theorem statusWord_powerOn (s : State) : s.powerOn.statusWord = 0 :=
  BitVec.eq_of_toNat_eq (toNat_statusWith s.powerOn s.powerOn.visibleFsm)

theorem errcodeWord_powerOn (s : State) : s.powerOn.errcodeWord = 0 :=
  BitVec.eq_of_toNat_eq (toNat_errcodeWord s.powerOn)

/-- Settles O55: the reset values, read off the state the release leaves. -/
theorem powerOnLeavesTheResetValues : Obligations.PowerOnLeavesTheResetValues := by
  unfold Obligations.PowerOnLeavesTheResetValues
  intro s rest hwf hrst hin
  refine ⟨_, step_of_release hwf hrst hin, rfl, rfl, ctrlWord_powerOn _, statusWord_powerOn _, errcodeWord_powerOn _,
    rfl, rfl, rfl, rfl, rfl, rfl, rfl, rfl, fun j => ?_, fun _ => rfl⟩
  simp [State.powerOn, State.resetOf, Vector.get_eq_getElem]

end Sys2Proof.Machine
end

section
/-! The host's reads (O48) and the BUF window (O50, O51): what a read of any offset can change, an admitted access of
the window, and the little-endian lanes as a number. -/

namespace Sys2Proof.Machine

/-! ### Reads (R53) -/

/-- A host read of any offset is refused, or answers its data and uses up free values. -/
theorem hostAccess_read_cases (s : State) {a : Access} (h : a.kind = .read) :
    hostAccess a s = .next s.slverr ∨ ∃ v k, hostAccess a s = .next ((s.okay v).useFree k) := by
  unfold hostAccess csrAccess State.bufAccess
  rw [h]
  split
  · split
    · exact .inl rfl
    · exact .inr ⟨_, _, rfl⟩
  · split
    · exact .inr ⟨_, _, rfl⟩
    · exact .inl rfl

/-- Settles O48: the response and the counter of free values are all a read changes. -/
theorem readsHaveNoSideEffects : Obligations.ReadsHaveNoSideEffects := by
  unfold Obligations.ReadsHaveNoSideEffects
  intro s rest a h hkind
  rw [step_of_host h]
  rcases hostAccess_read_cases { s with inputs := rest } hkind with hread | ⟨_, _, hread⟩ <;> exact ⟨_, hread, rfl⟩

/-! ### An admitted access of the BUF window (R48, R51, R52) -/

/-- With no command running, an aligned access inside the window reads or stores the bytes of BUF at its offset. -/
theorem step_bufAccess {s : State} {rest : List Input} {a : Access} {x : Nat} (h : s.Ready (.host a) rest)
    (hbusy : s.busy = false) (hoff : s.params.offsetOf a.addr = bufWindow + x) (halign : x % a.size.bytes = 0)
    (hinside : x + a.size.bytes ≤ s.params.bufBytes) :
    step s =
      match a.kind with
      | .read => .next ((({ s with inputs := rest } : State).okay (laneWord (s.loadBytes x a.size.bytes))).useFree
          a.size.bytes)
      | .write v => .next ((({ s with inputs := rest } : State).okay 0).storeBytes x (laneBytes a.size.bytes v)) := by
  have hadmits : ({ s with inputs := rest } : State).bufAdmits a.size x = true := by
    simp [State.bufAdmits, hbusy, halign, hinside]
  have hwindow : ¬bufWindow + x < bufWindow := Nat.not_lt.mpr (Nat.le_add_right _ _)
  rw [step_of_host h]
  simp only [hostAccess, hoff, hwindow, if_false, Nat.add_sub_cancel_left, State.bufAccess, hadmits, if_true]
  cases a.kind <;> rfl

/-! ### Little-endian lanes (R48) -/

theorem getD_laneBytes {len k : Nat} (h : k < len) (v : Word) :
    (laneBytes len v).getD k 0 = v.extractLsb' (8 * k) 8 := by
  simp [laneBytes, h]

/-- Lane 0 is the lowest byte: the lanes are the byte string read big-endian from its end. -/
theorem foldr_lanes_eq_beValue (bs : List Byte) :
    bs.foldr (fun b v => b.toNat + 256 * v) 0 = beValue bs.reverse := by
  simp only [beValue, List.foldl_reverse, Nat.add_comm]

theorem beValue_reverse_map_range (B : Nat → Byte) (len : Nat) :
    beValue ((List.range len).map B).reverse = ∑ k ∈ Finset.range len, (B k).toNat * 256 ^ k := by
  induction len with
  | zero => rfl
  | succ len ih =>
    rw [List.range_succ, List.map_append, List.reverse_append, Finset.sum_range_succ, ← ih]
    simp [beValue_cons, Nat.add_comm]

/-- Up to four bytes fit the bus data, each in its lane and the unused lanes 0. -/
theorem toNat_laneWord (B : Nat → Byte) {len : Nat} (h : len ≤ 4) :
    (laneWord ((List.range len).map B)).toNat = ∑ k ∈ Finset.range len, (B k).toNat * 256 ^ k := by
  have hlt : beValue ((List.range len).map B).reverse < 2 ^ 32 :=
    calc beValue ((List.range len).map B).reverse
        < 256 ^ ((List.range len).map B).reverse.length := beValue_lt _
      _ = 256 ^ len := by simp
      _ ≤ 256 ^ 4 := Nat.pow_le_pow_right (by decide) h
  rw [laneWord, foldr_lanes_eq_beValue, BitVec.toNat_ofNat, Nat.mod_eq_of_lt hlt, beValue_reverse_map_range]

theorem bytes_le_four (size : AccessSize) : size.bytes ≤ 4 := by cases size <;> decide

/-- What a read of BUF finds at a written byte is that byte. -/
theorem readsAs_bufByte (s : State) (a len : Nat) : ReadsAs s a len fun k => s.bufByte (a + k) k := by
  intro k _ b hb
  simp [State.bufByte, hb]

/-- Settles O50: the write stores the lanes' bytes, and a store leaves every other byte. -/
theorem bufferWritesStoreTheirLanes : Obligations.BufferWritesStoreTheirLanes := by
  unfold Obligations.BufferWritesStoreTheirLanes
  intro s rest a v x h hkind hbusy width hoff halign hinside
  have hwidth : width = a.size.bytes := rfl
  rw [hwidth] at halign hinside ⊢
  have hstep := step_bufAccess h hbusy hoff halign hinside
  rw [hkind] at hstep
  refine ⟨_, hstep, fun k hk => ?_, fun y hy => ?_, rfl⟩
  · rw [storeBytes_buf, read_writeBytes, length_laneBytes, if_pos (by omega), Nat.add_sub_cancel_left,
      getD_laneBytes hk]
  · exact read_writeBytes_outside _ _ (by rwa [length_laneBytes])

/-- Settles O51: the bytes the read finds, and the read data as their little-endian sum. -/
theorem bufferReadsReturnTheirLanes : Obligations.BufferReadsReturnTheirLanes := by
  unfold Obligations.BufferReadsReturnTheirLanes
  intro s rest a x h hkind hbusy width hoff halign hinside
  have hwidth : width = a.size.bytes := rfl
  rw [hwidth] at halign hinside ⊢
  have hstep := step_bufAccess h hbusy hoff halign hinside
  rw [hkind] at hstep
  exact ⟨_, readsAs_bufByte s x a.size.bytes, _, _, hstep, rfl, toNat_laneWord _ (bytes_le_four a.size)⟩

end Sys2Proof.Machine
end

section
/-! The encoding (30_encoding.md): a word as its five fields, R69's mask column as the format's unused fields, and the
decoder as exactly the inverse of the encoder. -/

namespace Sys2Proof

/-! ### A word and its fields (R65) -/

/-- The RSV field, bits 11:0 (R65). -/
def rsvField (w : Word) : BitVec 12 := w.extractLsb' 0 12

/-- Two words are equal exactly if their five fields are. -/
theorem word_eq_iff {v w : Word} :
    v = w ↔ opcField v = opcField w ∧ pdField v = pdField w ∧ paField v = paField w ∧ pbField v = pbField w ∧
      rsvField v = rsvField w := by
  constructor
  · rintro rfl
    exact ⟨rfl, rfl, rfl, rfl, rfl⟩
  · rintro ⟨hopc, hpd, hpa, hpb, hrsv⟩
    replace hopc := congrArg BitVec.toNat hopc
    replace hpd := congrArg BitVec.toNat hpd
    replace hpa := congrArg BitVec.toNat hpa
    replace hpb := congrArg BitVec.toNat hpb
    replace hrsv := congrArg BitVec.toNat hrsv
    simp only [opcField, pdField, paField, pbField, rsvField, BitVec.extractLsb'_toNat,
      Nat.shiftRight_eq_div_pow] at hopc hpd hpa hpb hrsv
    exact BitVec.eq_of_toNat_eq (by omega)

theorem toNat_opcField (w : Word) : (opcField w).toNat = w.toNat / 2 ^ 24 := by
  have hlt := w.isLt
  rw [opcField, BitVec.extractLsb'_toNat, Nat.shiftRight_eq_div_pow]
  omega

/-- The fields stand in the word side by side, the widths summed as the concatenation sums them. -/
theorem fields_wordOf (o : Opcode) (d a b : Nat) :
    opcField (wordOf o d a b) = o.byte ∧ pdField (wordOf o d a b) = BitVec.ofNat 4 d ∧
      paField (wordOf o d a b) = BitVec.ofNat 4 a ∧ pbField (wordOf o d a b) = BitVec.ofNat 4 b ∧
      rsvField (wordOf o d a b) = 0 := by
  refine ⟨?_, ?_, ?_, ?_, ?_⟩
  all_goals
    change BitVec.extractLsb' (n := 8 + 4 + 4 + 4 + 12) _ _ _ = _
    unfold wordOf
    simp (disch := decide) only [BitVec.extractLsb'_append_eq_of_le, BitVec.extractLsb'_append_eq_of_add_le,
      Nat.sub_self, BitVec.extractLsb'_eq_self]
  rfl

/-- A word written as shifted fields, as 30_encoding.md writes it. -/
theorem ofNat_shifted_eq_wordOf (o : Opcode) {d a b : Nat} (hd : d < 16) (ha : a < 16) (hb : b < 16) :
    BitVec.ofNat 32 (o.byte.toNat <<< 24 ||| d <<< 20 ||| a <<< 16 ||| b <<< 12) = wordOf o d a b := by
  apply BitVec.eq_of_toNat_eq
  have hword : (wordOf o d a b).toNat = o.byte.toNat <<< 24 ||| d <<< 20 ||| a <<< 16 ||| b <<< 12 := by
    change BitVec.toNat (w := 8 + 4 + 4 + 4 + 12) _ = _
    unfold wordOf
    simp only [BitVec.toNat_append, BitVec.toNat_ofNat, Nat.shiftLeft_or_distrib, ← Nat.shiftLeft_add,
      Nat.mod_eq_of_lt hd, Nat.mod_eq_of_lt ha, Nat.mod_eq_of_lt hb]
    simp
  rw [BitVec.toNat_ofNat, ← hword, Nat.mod_eq_of_lt (BitVec.isLt _)]

/-! ### Formats and masks (R66, R69) -/

/-- The formats D, DA and DAB use PD (R66). -/
def Opcode.usesPd : Opcode → Bool
  | .pzero | .pmov | .pxor | .pmul | .sample | .loadp | .ccenc => true
  | .nop | .storep | .rmenc | .rmdec | .ccdec => false

/-- The formats A, DA and DAB use PA (R66). -/
def Opcode.usesPa : Opcode → Bool
  | .pmov | .pxor | .pmul | .storep | .ccdec => true
  | .nop | .pzero | .sample | .loadp | .rmenc | .rmdec | .ccenc => false

/-- The format DAB uses PB (R66). -/
def Opcode.usesPb : Opcode → Bool
  | .pxor | .pmul => true
  | .nop | .pzero | .pmov | .sample | .loadp | .storep | .rmenc | .rmdec | .ccenc | .ccdec => false

/-- A field's value where its format uses it, and 0 where not. -/
def usedOr0 (used : Bool) (f : BitVec 4) : BitVec 4 := if used then f else 0

/-- The mask column asks of a register field that it be 0 exactly where the format does not use it. -/
def fieldMask (used : Bool) : BitVec 4 := if used then 0 else 0xF#4

theorem eq_usedOr0 {used : Bool} {f : BitVec 4} (h : used = false → f = 0) : f = usedOr0 used f := by
  cases used
  · exact h rfl
  · rfl

theorem and_fieldMask_eq_zero_iff {used : Bool} {f : BitVec 4} : f &&& fieldMask used = 0 ↔ f = usedOr0 used f := by
  cases used
  · change f &&& BitVec.allOnes 4 = 0 ↔ f = 0
    rw [BitVec.and_allOnes]
  · exact iff_of_true BitVec.and_zero rfl

theorem fields_maskBits (o : Opcode) :
    opcField o.maskBits = BitVec.allOnes 8 ∧ pdField o.maskBits = fieldMask o.usesPd ∧
      paField o.maskBits = fieldMask o.usesPa ∧ pbField o.maskBits = fieldMask o.usesPb ∧
      rsvField o.maskBits = BitVec.allOnes 12 := by
  cases o <;> decide

theorem fields_matchBits (o : Opcode) :
    opcField o.matchBits = o.byte ∧ pdField o.matchBits = 0 ∧ paField o.matchBits = 0 ∧ pbField o.matchBits = 0 ∧
      rsvField o.matchBits = 0 := by
  cases o <;> decide

/-- A word passes an opcode's mask exactly if it has its OPC and every field the format does not use is 0. -/
theorem and_maskBits_eq_iff (o : Opcode) (w : Word) :
    w &&& o.maskBits = o.matchBits ↔
      opcField w = o.byte ∧ pdField w = usedOr0 o.usesPd (pdField w) ∧ paField w = usedOr0 o.usesPa (paField w) ∧
        pbField w = usedOr0 o.usesPb (pbField w) ∧ rsvField w = 0 := by
  obtain ⟨hopc, hpd, hpa, hpb, hrsv⟩ := fields_maskBits o
  obtain ⟨hopc', hpd', hpa', hpb', hrsv'⟩ := fields_matchBits o
  rw [word_eq_iff, hopc', hpd', hpa', hpb', hrsv', ← and_fieldMask_eq_zero_iff, ← and_fieldMask_eq_zero_iff,
    ← and_fieldMask_eq_zero_iff, ← hpd, ← hpa, ← hpb]
  unfold opcField pdField paField pbField rsvField at *
  simp only [BitVec.extractLsb'_and, hopc, hrsv, BitVec.and_allOnes]

/-- A word that passes an opcode's mask is the opcode's word of its used fields. -/
theorem eq_wordOf_of_mask {o : Opcode} {w : Word} (h : w &&& o.maskBits = o.matchBits) :
    w = wordOf o (usedOr0 o.usesPd (pdField w)).toNat (usedOr0 o.usesPa (paField w)).toNat
      (usedOr0 o.usesPb (pbField w)).toNat := by
  obtain ⟨hopc, hpd, hpa, hpb, hrsv⟩ := (and_maskBits_eq_iff o w).mp h
  obtain ⟨hopc', hpd', hpa', hpb', hrsv'⟩ := fields_wordOf o (usedOr0 o.usesPd (pdField w)).toNat
    (usedOr0 o.usesPa (paField w)).toNat (usedOr0 o.usesPb (pbField w)).toNat
  rw [word_eq_iff, hopc', hpd', hpa', hpb', hrsv']
  simp only [BitVec.ofNat_toNat, BitVec.setWidth_eq]
  exact ⟨hopc, hpd, hpa, hpb, hrsv⟩

/-! ### Operands (R67) -/

theorem regOf_map_eq_ok_iff {f : BitVec 4} {k : Reg → Instr} {i : Instr} :
    (regOf f).map k = .ok i ↔ ∃ h : f.toNat < 8, k ⟨f.toNat, h⟩ = i := by
  unfold regOf
  split <;> simp [Except.map, *]

theorem regOf_bind_eq_ok_iff {f : BitVec 4} {k : Reg → Except DecodeError Instr} {i : Instr} :
    (regOf f).bind k = .ok i ↔ ∃ h : f.toNat < 8, k ⟨f.toNat, h⟩ = .ok i := by
  unfold regOf
  split <;> simp [Except.bind, *]

/-- An opcode's operands are the command whose word has the opcode's used fields, and these are below 8. -/
theorem operands_eq_ok {o : Opcode} {d a b : BitVec 4} {i : Instr} (h : o.operands d a b = .ok i) :
    i.opcode = o ∧
      encode i = wordOf o (usedOr0 o.usesPd d).toNat (usedOr0 o.usesPa a).toNat (usedOr0 o.usesPb b).toNat ∧
      (o.usesPd = true → d.toNat < 8) ∧ (o.usesPa = true → a.toNat < 8) ∧ (o.usesPb = true → b.toNat < 8) := by
  cases o <;> simp only [Opcode.operands, regOf_map_eq_ok_iff, regOf_bind_eq_ok_iff, Except.ok.injEq] at h
  case nop | rmenc | rmdec =>
    subst h
    exact ⟨rfl, rfl, nofun, nofun, nofun⟩
  case pzero | sample | loadp | ccenc =>
    obtain ⟨hd, rfl⟩ := h
    exact ⟨rfl, rfl, fun _ => hd, nofun, nofun⟩
  case storep | ccdec =>
    obtain ⟨ha, rfl⟩ := h
    exact ⟨rfl, rfl, nofun, fun _ => ha, nofun⟩
  case pmov =>
    obtain ⟨hd, ha, rfl⟩ := h
    exact ⟨rfl, rfl, fun _ => hd, fun _ => ha, nofun⟩
  case pxor | pmul =>
    obtain ⟨hd, ha, hb, rfl⟩ := h
    exact ⟨rfl, rfl, fun _ => hd, fun _ => ha, fun _ => hb⟩

theorem regOf_map_ne_illegalEncoding {f : BitVec 4} {k : Reg → Instr} :
    (regOf f).map k ≠ .error .illegalEncoding := by
  unfold regOf
  split <;> simp [Except.map]

theorem regOf_bind_ne_illegalEncoding {f : BitVec 4} {k : Reg → Except DecodeError Instr}
    (hk : ∀ r, k r ≠ .error .illegalEncoding) : (regOf f).bind k ≠ .error .illegalEncoding := by
  unfold regOf
  split
  · exact hk _
  · nofun

/-- The register fields raise no error but ILLEGAL_OPERAND. -/
theorem operands_ne_illegalEncoding (o : Opcode) (d a b : BitVec 4) :
    o.operands d a b ≠ .error .illegalEncoding := by
  cases o
  case nop | rmenc | rmdec => nofun
  case pzero | sample | loadp | ccenc | storep | ccdec => exact regOf_map_ne_illegalEncoding
  case pmov => exact regOf_bind_ne_illegalEncoding fun _ => regOf_map_ne_illegalEncoding
  case pxor | pmul =>
    exact regOf_bind_ne_illegalEncoding fun _ => regOf_bind_ne_illegalEncoding fun _ => regOf_map_ne_illegalEncoding

theorem operands_of_high_field {o : Opcode} {d a b : BitVec 4}
    (h : o.usesPd = true ∧ 8 ≤ d.toNat ∨ o.usesPa = true ∧ 8 ≤ a.toNat ∨ o.usesPb = true ∧ 8 ≤ b.toNat) :
    o.operands d a b = .error .illegalOperand := by
  match hops : o.operands d a b with
  | .error .illegalOperand => rfl
  | .error .illegalEncoding => exact absurd hops (operands_ne_illegalEncoding o d a b)
  | .ok i =>
    obtain ⟨-, -, hd, ha, hb⟩ := operands_eq_ok hops
    rcases h with ⟨hu, h8⟩ | ⟨hu, h8⟩ | ⟨hu, h8⟩
    · exact absurd (hd hu) (by omega)
    · exact absurd (ha hu) (by omega)
    · exact absurd (hb hu) (by omega)

/-! ### The decoder (R70, R71) -/

theorem ofByte_eq_some_iff {b : Byte} {o : Opcode} : Opcode.ofByte b = some o ↔ b = o.byte := by
  constructor
  · intro h
    have hbyte := List.find?_some h
    exact (eq_of_beq hbyte).symm
  · rintro rfl
    cases o <;> rfl

/-- The decoder's answer on a word with a listed OPC. -/
theorem decode_of_opcField (p : Params) {o : Opcode} {w : Word} (h : opcField w = o.byte) :
    decode p w =
      if o.needsCc && !p.ccAvail then .error .illegalEncoding
      else if w &&& o.maskBits = o.matchBits then o.operands (pdField w) (paField w) (pbField w)
      else .error .illegalEncoding := by
  rw [decode, ofByte_eq_some_iff.mpr h]

theorem decode_of_unlisted (p : Params) {w : Word} (h : ∀ o : Opcode, opcField w ≠ o.byte) :
    decode p w = .error .illegalEncoding := by
  have hnone : Opcode.ofByte (opcField w) = none :=
    Option.eq_none_iff_forall_ne_some.mpr fun o ho => h o (ofByte_eq_some_iff.mp ho)
  rw [decode, hnone]

/-- Where CC_AVAIL = 0 the opcodes that need it are as unlisted (R70). -/
theorem decode_of_absent {p : Params} {o : Opcode} {w : Word} (havail : p.ccAvail = false) (hcc : o.needsCc = true)
    (h : opcField w = o.byte) : decode p w = .error .illegalEncoding := by
  rw [decode_of_opcField p h, hcc, havail]
  rfl

/-- Past the checks of OPC, CC_AVAIL and the mask, the answer is that of the register fields. -/
theorem decode_of_mask {p : Params} {o : Opcode} {w : Word} (hcc : o.needsCc = true → p.ccAvail = true)
    (hmask : w &&& o.maskBits = o.matchBits) :
    decode p w = o.operands (pdField w) (paField w) (pbField w) := by
  obtain ⟨hopc, -⟩ := (and_maskBits_eq_iff o w).mp hmask
  rw [decode_of_opcField p hopc, if_neg (by simpa using hcc), if_pos hmask]

/-- A word that decodes has passed every check. -/
theorem checks_of_decode {p : Params} {w : Word} {i : Instr} (h : decode p w = .ok i) :
    ∃ o : Opcode, (o.needsCc = true → p.ccAvail = true) ∧ w &&& o.maskBits = o.matchBits ∧
      o.operands (pdField w) (paField w) (pbField w) = .ok i := by
  by_cases hlisted : ∃ o : Opcode, opcField w = o.byte
  · obtain ⟨o, hopc⟩ := hlisted
    rw [decode_of_opcField p hopc] at h
    split at h
    · cases h
    next hcc =>
      split at h
      next hmask => exact ⟨o, by simpa using hcc, hmask, h⟩
      · cases h
  · rw [decode_of_unlisted p (not_exists.mp hlisted)] at h
    cases h

/-- A command is there exactly where its opcode is listed (R70). -/
theorem wellFormed_iff (p : Params) (i : Instr) :
    i.wellFormed p = true ↔ (i.opcode.needsCc = true → p.ccAvail = true) := by
  cases i <;> simp [Instr.wellFormed, Instr.opcode, Opcode.needsCc]

theorem encodingFitsTable (i : Instr) : Laws.EncodingFitsTable.Statement i := by
  cases i with
  | nop => exact Laws.EncodingFitsTable.nop
  | pzero d => exact Laws.EncodingFitsTable.pzero d
  | pmov d a => exact Laws.EncodingFitsTable.pmov d a
  | pxor d a b => exact Laws.EncodingFitsTable.pxor d a b
  | pmul d a b => exact Laws.EncodingFitsTable.pmul d a b
  | sample d => exact Laws.EncodingFitsTable.sample d
  | loadp d => exact Laws.EncodingFitsTable.loadp d
  | storep a => exact Laws.EncodingFitsTable.storep a
  | rmenc => exact Laws.EncodingFitsTable.rmenc
  | rmdec => exact Laws.EncodingFitsTable.rmdec
  | ccenc d => exact Laws.EncodingFitsTable.ccenc d
  | ccdec a => exact Laws.EncodingFitsTable.ccdec a

/-- Settles O1: the command's word passes its opcode's checks, and its fields are the command's operands. -/
theorem decodeOfEncodeIsTheCommand : Obligations.DecodeOfEncodeIsTheCommand := by
  unfold Obligations.DecodeOfEncodeIsTheCommand
  intro p i hwf
  obtain ⟨-, hmask, hoperands⟩ := encodingFitsTable i
  rw [decode_of_mask ((wellFormed_iff p i).mp hwf) hmask, hoperands]

/-- Settles O2: the mask leaves only the used fields free, and the command has them. -/
theorem decodedWordIsTheCommandsOnlyWord : Obligations.DecodedWordIsTheCommandsOnlyWord := by
  unfold Obligations.DecodedWordIsTheCommandsOnlyWord
  intro p w i h
  obtain ⟨o, hcc, hmask, hoperands⟩ := checks_of_decode h
  obtain ⟨hopcode, hencode, -⟩ := operands_eq_ok hoperands
  exact ⟨hencode.trans (eq_wordOf_of_mask hmask).symm, (wellFormed_iff p i).mpr (hopcode ▸ hcc)⟩

/-- Settles O3: each clause is one failing check of the decoder. -/
theorem reservedEncodingsAreIllegal : Obligations.ReservedEncodingsAreIllegal := by
  unfold Obligations.ReservedEncodingsAreIllegal
  intro p w
  rw [← toNat_opcField]
  have hopc : ∀ {o : Opcode}, (opcField w).toNat = o.byte.toNat → opcField w = o.byte := BitVec.eq_of_toNat_eq
  refine ⟨fun hlisted => ?_, fun o h hmask => ?_, fun havail h => ?_⟩
  · refine decode_of_unlisted p fun o h => hlisted ?_
    rw [h]
    cases o <;> decide
  · rw [decode_of_opcField p (hopc h), if_neg hmask, ite_self]
  · rcases h with h | h
    · exact decode_of_absent havail (o := .ccenc) rfl (hopc h)
    · exact decode_of_absent havail (o := .ccdec) rfl (hopc h)

/-- R67: a word of an opcode, its unused fields 0, is an illegal operand if a used field is 8 to 15. -/
theorem decode_of_high_field {p : Params} (o : Opcode) {w d a b : Nat}
    (hw : w = o.byte.toNat <<< 24 ||| d <<< 20 ||| a <<< 16 ||| b <<< 12) (hd : d < 16) (ha : a < 16) (hb : b < 16)
    (hcc : o.needsCc = true → p.ccAvail = true)
    (hunused : (o.usesPd = false → d = 0) ∧ (o.usesPa = false → a = 0) ∧ (o.usesPb = false → b = 0))
    (hhigh : o.usesPd = true ∧ 8 ≤ d ∨ o.usesPa = true ∧ 8 ≤ a ∨ o.usesPb = true ∧ 8 ≤ b) :
    decode p (BitVec.ofNat 32 w) = .error .illegalOperand := by
  obtain ⟨hd0, ha0, hb0⟩ := hunused
  obtain ⟨hopc, hpd, hpa, hpb, hrsv⟩ := fields_wordOf o d a b
  have hmask : wordOf o d a b &&& o.maskBits = o.matchBits := by
    rw [and_maskBits_eq_iff, hpd, hpa, hpb]
    exact ⟨hopc, eq_usedOr0 fun h => congrArg (BitVec.ofNat 4) (hd0 h),
      eq_usedOr0 fun h => congrArg (BitVec.ofNat 4) (ha0 h),
      eq_usedOr0 fun h => congrArg (BitVec.ofNat 4) (hb0 h), hrsv⟩
  rw [hw, ofNat_shifted_eq_wordOf o hd ha hb, decode_of_mask hcc hmask, hpd, hpa, hpb]
  apply operands_of_high_field
  rwa [BitVec.toNat_ofNat, BitVec.toNat_ofNat, BitVec.toNat_ofNat, Nat.mod_eq_of_lt hd, Nat.mod_eq_of_lt ha,
    Nat.mod_eq_of_lt hb]

/-- `decode_of_high_field` for the words of format D. -/
theorem decode_of_high_pd {p : Params} (o : Opcode) {d : Nat}
    (ho : o.usesPd = true ∧ o.usesPa = false ∧ o.usesPb = false) (hcc : o.needsCc = true → p.ccAvail = true)
    (hd : d < 16) (hhigh : 8 ≤ d) :
    decode p (BitVec.ofNat 32 (o.byte.toNat <<< 24 ||| d <<< 20)) = .error .illegalOperand :=
  decode_of_high_field o (a := 0) (b := 0) (by simp) hd (by decide) (by decide) hcc (by simp [ho]) (.inl ⟨ho.1, hhigh⟩)

/-- `decode_of_high_field` for the words of format A. -/
theorem decode_of_high_pa {p : Params} (o : Opcode) {a : Nat}
    (ho : o.usesPd = false ∧ o.usesPa = true ∧ o.usesPb = false) (hcc : o.needsCc = true → p.ccAvail = true)
    (ha : a < 16) (hhigh : 8 ≤ a) :
    decode p (BitVec.ofNat 32 (o.byte.toNat <<< 24 ||| a <<< 16)) = .error .illegalOperand :=
  decode_of_high_field o (d := 0) (b := 0) (by simp) (by decide) ha (by decide) hcc (by simp [ho])
    (.inr (.inl ⟨ho.2.1, hhigh⟩))

/-- Settles O4: the words of each format are words of their opcodes with the unused fields 0. -/
theorem registerFieldsAboveSevenAreIllegalOperands : Obligations.RegisterFieldsAboveSevenAreIllegalOperands := by
  unfold Obligations.RegisterFieldsAboveSevenAreIllegalOperands
  intro p d a b hd ha hb
  refine ⟨fun h opc hopc => ?_, fun h havail => decode_of_high_pd .ccenc ⟨rfl, rfl, rfl⟩ (fun _ => havail) hd h,
    decode_of_high_pa .storep ⟨rfl, rfl, rfl⟩ nofun ha,
    fun h havail => decode_of_high_pa .ccdec ⟨rfl, rfl, rfl⟩ (fun _ => havail) ha h, fun h => ?_,
    fun h opc hopc => ?_⟩
  · simp only [List.mem_cons, List.not_mem_nil, or_false] at hopc
    rcases hopc with rfl | rfl | rfl
    · exact decode_of_high_pd .pzero ⟨rfl, rfl, rfl⟩ nofun hd h
    · exact decode_of_high_pd .sample ⟨rfl, rfl, rfl⟩ nofun hd h
    · exact decode_of_high_pd .loadp ⟨rfl, rfl, rfl⟩ nofun hd h
  · refine decode_of_high_field .pmov (b := 0) (by simp [Opcode.byte]) hd ha (by decide) nofun
      ⟨nofun, nofun, fun _ => rfl⟩ ?_
    exact h.imp (.intro rfl) fun h => .inl ⟨rfl, h⟩
  · have hhigh : true = true ∧ 8 ≤ d ∨ true = true ∧ 8 ≤ a ∨ true = true ∧ 8 ≤ b := by simpa using h
    simp only [List.mem_cons, List.not_mem_nil, or_false] at hopc
    rcases hopc with rfl | rfl
    · exact decode_of_high_field .pxor rfl hd ha hb nofun ⟨nofun, nofun, nofun⟩ hhigh
    · exact decode_of_high_field .pmul rfl hd ha hb nofun ⟨nofun, nofun, nofun⟩ hhigh

/-- Settles O5: each example is the word the encoder gives the command. -/
theorem exampleWordsDecodeAsWritten : Obligations.ExampleWordsDecodeAsWritten := by
  unfold Obligations.ExampleWordsDecodeAsWritten
  intro p
  exact ⟨decodeOfEncodeIsTheCommand p (.pmul 2 0 1) rfl, decodeOfEncodeIsTheCommand p (.pxor 3 2 0) rfl,
    decodeOfEncodeIsTheCommand p (.sample 4) rfl, decodeOfEncodeIsTheCommand p (.storep 5) rfl,
    decodeOfEncodeIsTheCommand p (.ccdec 7)⟩

end Sys2Proof
end

section
/-! The words of the commands (R69, R72) as numbers, for the statements that say which word is a command's. -/

namespace Sys2Proof

/-- A command's encoded word decodes to it wherever the command exists (R70). -/
theorem wordIs_of_encode {i : Instr} {w : Nat} (h : encode i = BitVec.ofNat 32 w) : WordIs i w :=
  ⟨h, fun p hp => h ▸ decodeOfEncodeIsTheCommand p i hp⟩

/-- The fields of a command's word, shifted into their places, give the word. -/
theorem wordIs_of_fields {i : Instr} {w : Nat} (o : Opcode) (d a b : Reg) (h : encode i = wordOf o d a b)
    (hw : w = o.byte.toNat <<< 24 ||| d.val <<< 20 ||| a.val <<< 16 ||| b.val <<< 12) : WordIs i w :=
  wordIs_of_encode (by rw [h, hw, ofNat_shifted_eq_wordOf o (by omega) (by omega) (by omega)])

theorem wordIs_pzero (d : Reg) : WordIs (.pzero d) (0x01000000 ||| d.val <<< 20) :=
  wordIs_of_fields .pzero d 0 0 rfl (by simp [Opcode.byte])

theorem wordIs_pmov (d a : Reg) : WordIs (.pmov d a) (0x02000000 ||| d.val <<< 20 ||| a.val <<< 16) :=
  wordIs_of_fields .pmov d a 0 rfl (by simp [Opcode.byte])

theorem wordIs_pxor (d a b : Reg) :
    WordIs (.pxor d a b) (0x03000000 ||| d.val <<< 20 ||| a.val <<< 16 ||| b.val <<< 12) :=
  wordIs_of_fields .pxor d a b rfl rfl

theorem wordIs_pmul (d a b : Reg) :
    WordIs (.pmul d a b) (0x04000000 ||| d.val <<< 20 ||| a.val <<< 16 ||| b.val <<< 12) :=
  wordIs_of_fields .pmul d a b rfl rfl

theorem wordIs_loadp (d : Reg) : WordIs (.loadp d) (0x10000000 ||| d.val <<< 20) :=
  wordIs_of_fields .loadp d 0 0 rfl (by simp [Opcode.byte])

theorem wordIs_storep (a : Reg) : WordIs (.storep a) (0x11000000 ||| a.val <<< 16) :=
  wordIs_of_fields .storep 0 a 0 rfl (by simp [Opcode.byte])

end Sys2Proof
end

section
/-! The cyclic convolution (R77): its coefficients as parities (O18), and from them the laws of the ring product
(O19). -/

namespace Sys2Proof.Machine

/-! ### The loop's conditional XOR -/

/-- R77's loop over any list: `acc` with `f i` XORed in for every `i` that `p` picks. -/
def xorOver (p : Nat → Bool) (f : Nat → Nat) (l : List Nat) (acc : Nat) : Nat :=
  l.foldl (fun acc i => if p i then acc ^^^ f i else acc) acc

theorem cyclicMul_eq_xorOver (n b a : Nat) : cyclicMul n b a = xorOver a.testBit (rotlN n b) (List.range n) 0 := rfl

theorem xorOver_cons (p : Nat → Bool) (f : Nat → Nat) (i : Nat) (l : List Nat) (acc : Nat) :
    xorOver p f (i :: l) acc = xorOver p f l (if p i then acc ^^^ f i else acc) := rfl

theorem xorOver_append (p : Nat → Bool) (f : Nat → Nat) (l l' : List Nat) (acc : Nat) :
    xorOver p f (l ++ l') acc = xorOver p f l' (xorOver p f l acc) := List.foldl_append

theorem decide_succ_odd (m : Nat) : decide ((m + 1) % 2 = 1) = !decide (m % 2 = 1) := by
  rcases Nat.mod_two_eq_zero_or_one m with h | h <;> simp [Nat.add_mod, h]

/-- A bit of the XOR is the parity of the number of picked terms that have it. -/
theorem testBit_xorOver (p : Nat → Bool) (f : Nat → Nat) (l : List Nat) (acc k : Nat) :
    (xorOver p f l acc).testBit k =
      (acc.testBit k ^^ decide ((l.filter fun i => p i && (f i).testBit k).length % 2 = 1)) := by
  induction l generalizing acc with
  | nil => simp [xorOver]
  | cons i l ih =>
    rw [xorOver_cons, ih]
    cases hp : p i
    · simp [hp]
    · cases hf : (f i).testBit k
      · simp [hp, hf]
      · simp only [hp, hf, if_true, Nat.testBit_xor, List.filter_cons_of_pos, Bool.and_self, List.length_cons,
          decide_succ_odd, Bool.xor_true, Bool.not_xor, Bool.xor_not]

/-- The XOR is additive in what it picks. -/
theorem xorOver_xor (p q : Nat → Bool) (f : Nat → Nat) (l : List Nat) (x y : Nat) :
    xorOver (fun i => p i ^^ q i) f l (x ^^^ y) = xorOver p f l x ^^^ xorOver q f l y := by
  induction l generalizing x y with
  | nil => rfl
  | cons i l ih =>
    simp only [xorOver_cons, ← ih]
    congr 1
    cases p i <;> cases q i <;> simp [Nat.xor_comm, Nat.xor_left_comm]

/-- Where one index is picked, the XOR is its term. -/
theorem xorOver_single (f : Nat → Nat) (i m : Nat) :
    xorOver (fun j => decide (i = j)) f (List.range m) 0 = if i < m then f i else 0 := by
  induction m with
  | zero => rfl
  | succ m ih =>
    rw [List.range_succ, xorOver_append, ih, xorOver_cons]
    rcases lt_trichotomy i m with h | rfl | h
    · simp [xorOver, h, h.ne, Nat.lt_succ_of_lt h]
    · simp [xorOver]
    · simp [xorOver, h.ne', Nat.not_lt.mpr h.le, Nat.not_lt.mpr h]

/-! ### The index `(k - i) mod n` -/

theorem sub_mod_of_le {n k i : Nat} (hi : i ≤ k) (hk : k < n) : (k + (n - i)) % n = k - i := by
  rw [show k + (n - i) = k - i + n by omega, Nat.add_mod_right, Nat.mod_eq_of_lt (by omega)]

theorem sub_mod_of_lt {n k i : Nat} (hk : k < i) (hi : i ≤ n) : (k + (n - i)) % n = k + (n - i) :=
  Nat.mod_eq_of_lt (by omega)

/-- Subtraction from `k` modulo `n` is its own inverse. -/
theorem sub_mod_sub_mod {n k i : Nat} (hk : k < n) (hi : i < n) :
    (k + (n - (k + (n - i)) % n)) % n = i := by
  rcases Nat.lt_or_ge k i with h | h
  · rw [sub_mod_of_lt h hi.le, sub_mod_of_lt] <;> omega
  · rw [sub_mod_of_le h hk, sub_mod_of_le] <;> omega

/-- Coefficient `k` of `rotl_N(b, i)` (R12). -/
theorem testBit_rotlN {n b i k : Nat} (hb : b < 2 ^ n) (hi : i < n) (hk : k < n) :
    (rotlN n b i).testBit k = b.testBit ((k + (n - i)) % n) := by
  rw [rotlN, Nat.testBit_mod_two_pow, Nat.testBit_or, Nat.testBit_shiftLeft, Nat.testBit_shiftRight]
  rcases Nat.lt_or_ge k i with h | h
  · simp [sub_mod_of_lt h hi.le, hk, Nat.not_le.mpr h, Nat.add_comm]
  · have hzero : b.testBit (n - i + k) = false :=
      Nat.testBit_lt_two_pow (hb.trans_le (Nat.pow_le_pow_right (by decide) (by omega)))
    simp [sub_mod_of_le h hk, hk, h, hzero]

/-- R77's closed form: coefficient `k` of the product. -/
theorem testBit_cyclicMul {n b k : Nat} (a : Nat) (hb : b < 2 ^ n) (hk : k < n) :
    (cyclicMul n b a).testBit k = decide (((List.range n).filter fun i =>
      a.testBit i && b.testBit ((k + (n - i)) % n)).length % 2 = 1) := by
  rw [cyclicMul_eq_xorOver, testBit_xorOver, Nat.zero_testBit, Bool.false_xor,
    List.filter_congr fun i hi => by rw [testBit_rotlN hb (List.mem_range.mp hi) hk]]

theorem length_filter_range (n : Nat) (p : Nat → Bool) :
    ((List.range n).filter p).length = ((Finset.range n).filter fun i => p i = true).card := by
  show _ = (List.filter (fun i => decide (p i = true)) (List.range n)).length
  simp

/-- Pairing each index `i` with `(k - i) mod n` exchanges the two conditions. -/
theorem length_filter_sub_mod_comm (p q : Nat → Bool) {n k : Nat} (hk : k < n) :
    ((List.range n).filter fun i => p i && q ((k + (n - i)) % n)).length =
      ((List.range n).filter fun i => q i && p ((k + (n - i)) % n)).length := by
  rw [length_filter_range, length_filter_range]
  refine Finset.card_nbij' (fun i => (k + (n - i)) % n) (fun i => (k + (n - i)) % n) ?_ ?_ ?_ ?_
  all_goals
    intro i hi
    simp only [Finset.mem_coe, Finset.mem_filter, Finset.mem_range, Bool.and_eq_true] at hi ⊢
    obtain ⟨hlt, hleft, hright⟩ := hi
    rw [sub_mod_sub_mod hk hlt]
  · exact ⟨Nat.mod_lt _ (by omega), hright, hleft⟩
  · exact ⟨Nat.mod_lt _ (by omega), hright, hleft⟩

/-- Both products are below 2^N and agree in every coefficient. -/
theorem cyclicMul_comm {n a b : Nat} (ha : a < 2 ^ n) (hb : b < 2 ^ n) : cyclicMul n b a = cyclicMul n a b := by
  refine Nat.eq_of_testBit_eq fun k => ?_
  rcases Nat.lt_or_ge k n with hk | hk
  · rw [testBit_cyclicMul a hb hk, testBit_cyclicMul b ha hk, length_filter_sub_mod_comm _ _ hk]
  · have hpow : 2 ^ n ≤ 2 ^ k := Nat.pow_le_pow_right (by decide) hk
    rw [Nat.testBit_lt_two_pow ((cyclicMul_lt n b a).trans_le hpow),
      Nat.testBit_lt_two_pow ((cyclicMul_lt n a b).trans_le hpow)]

/-- The product by `x^i` is the rotation by `i`. -/
theorem cyclicMul_two_pow (b : Nat) {n i : Nat} (hi : i < n) : cyclicMul n b (2 ^ i) = rotlN n b i := by
  have hbit : (2 ^ i).testBit = fun j => decide (i = j) := funext fun _ => Nat.testBit_two_pow
  rw [cyclicMul_eq_xorOver, hbit, xorOver_single, if_pos hi]

theorem cyclicMul_one {n b : Nat} (hb : b < 2 ^ n) (hn : 0 < n) : cyclicMul n b 1 = b := by
  have h := cyclicMul_two_pow b hn
  simpa [rotlN, Nat.shiftRight_eq_div_pow, Nat.div_eq_of_lt hb, Nat.mod_eq_of_lt hb] using h

theorem cyclicMul_xor (n b a c : Nat) : cyclicMul n b (a ^^^ c) = cyclicMul n b a ^^^ cyclicMul n b c := by
  have hbit : (a ^^^ c).testBit = fun i => a.testBit i ^^ c.testBit i := funext fun _ => Nat.testBit_xor ..
  simp only [cyclicMul_eq_xorOver, hbit]
  exact xorOver_xor a.testBit c.testBit (rotlN n b) (List.range n) 0 0

/-- Settles O19: commutativity by pairing the indices, the unit and the rotation as products by one power of x, and
distributivity from the loop's additivity. -/
theorem convolutionIsTheRingProduct : Obligations.ConvolutionIsTheRingProduct := by
  unfold Obligations.ConvolutionIsTheRingProduct
  intro n a b c ha hb _
  exact ⟨cyclicMul_comm ha hb, cyclicMul_one hb, fun i hi => cyclicMul_two_pow b hi, cyclicMul_xor n b a c⟩

end Sys2Proof.Machine
end

section
/-! The commands between polynomial registers (O15, O16, O17, O18): each writes one register and completes, so its frame
is `wrotePoly_setPoly`'s, and what is left is the value written. -/

namespace Sys2Proof.Machine

variable (s : State)

theorem sameSampler_refl : s.SameSampler s := ⟨rfl, rfl, rfl, rfl⟩

theorem sameCode_refl : s.SameCode s := ⟨rfl, rfl, rfl⟩

theorem wrotePoly_runPzero (d : Reg) : s.WrotePoly d 0 (s.runPzero d) :=
  wrotePoly_setPoly d 0 rfl rfl rfl (sameControl_refl s) (sameErrors_refl s)

theorem wrotePoly_runPmov (d a : Reg) : s.WrotePoly d (s.poly a) (s.runPmov d a) :=
  wrotePoly_setPoly (m := s.notePoly a) d _ rfl rfl rfl (sameControl_refl s) (sameErrors_refl s)

theorem wrotePoly_runPxor (d a b : Reg) : s.WrotePoly d (s.poly a ^^^ s.poly b) (s.runPxor d a b) :=
  wrotePoly_setPoly (m := (s.notePoly a).notePoly b) d _ rfl rfl rfl (sameControl_refl s) (sameErrors_refl s)

theorem wrotePoly_runPmul (d a b : Reg) :
    s.WrotePoly d (cyclicMul s.params.n (s.poly a) (s.poly b)) (s.runPmul d a b) :=
  wrotePoly_setPoly (m := ((s.notePoly a).notePoly b).setMulAcc _) d _ rfl rfl rfl (sameControl_refl s)
    (sameErrors_refl s)

/-- Settles O15: the zero polynomial is written. -/
theorem pzeroClearsItsRegister : Obligations.PzeroClearsItsRegister := by
  unfold Obligations.PzeroClearsItsRegister
  intro d s
  exact ⟨wordIs_pzero d, _, rfl, wrotePoly_runPzero s d, sameSampler_refl s, sameCode_refl s, rfl, rfl, rfl⟩

/-- Settles O16: the source is noted, then copied. -/
theorem pmovCopiesARegister : Obligations.PmovCopiesARegister := by
  unfold Obligations.PmovCopiesARegister
  intro d a s
  exact ⟨wordIs_pmov d a, _, rfl, wrotePoly_runPmov s d a, sameSampler_refl s, sameCode_refl s, rfl, rfl, rfl⟩

/-- Settles O17: the facts about the sum are those of the bitwise XOR. -/
theorem pxorAddsTwoRegisters : Obligations.PxorAddsTwoRegisters := by
  unfold Obligations.PxorAddsTwoRegisters
  intro d a b s
  have hwrote := wrotePoly_runPxor s d a b
  have hsum : (s.runPxor d a b).poly d = s.poly a ^^^ s.poly b := hwrote.1
  refine ⟨wordIs_pxor d a b, _, rfl, ?_⟩
  rw [hsum]
  refine ⟨hwrote, fun k => Nat.testBit_xor .., ?_, Nat.xor_lt_two_pow, sameSampler_refl s, sameCode_refl s, rfl⟩
  rintro rfl
  exact Nat.xor_self _

/-- Settles O18: the loop's coefficients in closed form, under the registers' bound. -/
theorem pmulIsTheCyclicConvolution : Obligations.PmulIsTheCyclicConvolution := by
  unfold Obligations.PmulIsTheCyclicConvolution
  intro d a b s hbounded
  have hwrote := wrotePoly_runPmul s d a b
  have hproduct : (s.runPmul d a b).poly d = cyclicMul s.params.n (s.poly a) (s.poly b) := hwrote.1
  refine ⟨wordIs_pmul d a b, _, rfl, ?_⟩
  rw [hproduct]
  exact ⟨hwrote, cyclicMul_lt _ _ _, fun k hk => testBit_cyclicMul _ (hbounded a) hk, sameSampler_refl s,
    sameCode_refl s, rfl⟩

end Sys2Proof.Machine
end

section
/-! LOADP and STOREP (O20, O21): the ends a LOADP can come to, and the big-endian bytes of a register as a number. -/

namespace Sys2Proof.Machine

/-! ### Big-endian values (R11, R79) -/

theorem beValue_map_range (B : Nat → Byte) (len : Nat) : beValue ((List.range len).map B) = bigEndian len B := by
  induction len generalizing B with
  | zero => rfl
  | succ len ih =>
    rw [List.range_succ_eq_map, List.map_cons, List.map_map, beValue_cons, ih]
    simp [bigEndian, Finset.sum_range_succ', Nat.add_comm, Nat.sub_sub]

theorem getD_beBytes {len k : Nat} (hk : k < len) (v : Nat) :
    (beBytes len v).getD k 0 = BitVec.ofNat 8 (v / 256 ^ (len - 1 - k)) := by
  simp [beBytes, hk]

/-- The first byte is what stands above the others. -/
theorem bigEndian_succ_div (len : Nat) (B : Nat → Byte) : bigEndian (len + 1) B / 256 ^ len = (B 0).toNat := by
  have hlt : beValue ((List.range len).map (B ∘ Nat.succ)) < 256 ^ len := by
    simpa using beValue_lt ((List.range len).map (B ∘ Nat.succ))
  rw [← beValue_map_range, List.range_succ_eq_map, List.map_cons, List.map_map, beValue_cons, List.length_map,
    List.length_range, Nat.add_comm, Nat.add_mul_div_right _ _ (by positivity), Nat.div_eq_of_lt hlt, Nat.zero_add]

/-- 2^N as the place of bit N in N_BYTES bytes: above the last N div 8 of them, and the rest of N within the first. -/
theorem two_pow_eq_mul_pow_bytes (n : Nat) : 2 ^ n = 2 ^ (n - 8 * (n / 8)) * 256 ^ (n / 8) := by
  rw [show (256 : Nat) = 2 ^ 8 from rfl, ← pow_mul, ← pow_add]
  congr 1
  omega

/-- R79: N_BYTES bytes reach a bit at position N or above exactly if their first byte has one there. -/
theorem two_pow_le_bigEndian_iff (n : Nat) (B : Nat → Byte) :
    2 ^ n ≤ bigEndian (n / 8 + 1) B ↔ (B 0).toNat >>> (n - 8 * (n / 8)) ≠ 0 := by
  rw [two_pow_eq_mul_pow_bytes, ← Nat.le_div_iff_mul_le (by positivity), bigEndian_succ_div,
    Nat.shiftRight_eq_div_pow, ← Nat.pos_iff_ne_zero, Nat.div_pos_iff]
  simp

/-- A value below 2^N fits N_BYTES bytes. -/
theorem lt_pow_nBytes {p : Params} {v : Nat} (h : v < 2 ^ p.n) : v < 256 ^ p.nBytes := by
  refine h.trans_le ?_
  rw [show (256 : Nat) = 2 ^ 8 from rfl, ← pow_mul]
  exact Nat.pow_le_pow_right (by decide) (by unfold Params.nBytes; omega)

/-! ### LOADP (R79) -/

section Loadp

variable {s : State} (d : Reg)

theorem runLoadp_of_range (h : s.params.bufBytes < s.src + s.params.nBytes) :
    s.runLoadp d = s.fail .range := by
  simp [State.runLoadp, Params.inBuf, h]

theorem endedWith_runLoadp_serialization (h : s.src + s.params.nBytes ≤ s.params.bufBytes)
    (hv : 2 ^ s.params.n ≤ beValue (s.loadBytes s.src s.params.nBytes)) :
    s.EndedWith .serialization (s.runLoadp d) := by
  have hrun : s.runLoadp d = (s.noteLoad s.src s.params.nBytes).fail .serialization := by
    simp [State.runLoadp, Params.inBuf, h, hv]
  rw [hrun]
  exact endedWith_fail (s.noteLoad s.src s.params.nBytes) .serialization

theorem wrotePoly_runLoadp {v : Nat} (h : s.src + s.params.nBytes ≤ s.params.bufBytes)
    (hvalue : beValue (s.loadBytes s.src s.params.nBytes) = v) (hv : v < 2 ^ s.params.n) :
    s.WrotePoly d v (s.runLoadp d) := by
  have hrun : s.runLoadp d = ((s.noteLoad s.src s.params.nBytes).setPoly d v).complete := by
    simp [State.runLoadp, Params.inBuf, h, hvalue, hv]
  rw [hrun]
  exact wrotePoly_setPoly (m := s.noteLoad s.src s.params.nBytes) d v rfl rfl rfl (sameControl_refl s)
    (sameErrors_refl s)

/-- LOADP has no working state of its own. -/
theorem runLoadp_frame :
    s.SameSampler (s.runLoadp d) ∧ s.SameCode (s.runLoadp d) ∧ (s.runLoadp d).mulAcc = s.mulAcc := by
  simp only [State.runLoadp]
  (repeat' split) <;> exact ⟨sameSampler_refl s, sameCode_refl s, rfl⟩

end Loadp

/-- Settles O20: the two checks, and the bytes read as a number. -/
theorem loadpDeserializes : Obligations.LoadpDeserializes := by
  unfold Obligations.LoadpDeserializes
  intro d s
  refine ⟨wordIs_loadp d, fun hout => ?_, fun hin => ?_⟩
  · refine ⟨_, rfl, ?_⟩
    rw [runLoadp_of_range d hout]
    exact ⟨endedWith_fail s .range, sameSampler_refl s, sameCode_refl s, rfl, rfl, rfl⟩
  · have hvalue := beValue_map_range (fun k => s.bufByte (s.src + k) k) s.params.nBytes
    exact ⟨_, readsAs_bufByte s s.src s.params.nBytes, two_pow_le_bigEndian_iff _ _, _, rfl,
      fun hv => endedWith_runLoadp_serialization d hin (hv.trans_eq hvalue.symm),
      fun hv => wrotePoly_runLoadp d hin hvalue hv, runLoadp_frame d⟩

/-! ### STOREP (R80) -/

section Storep

variable {s : State} (a : Reg)

theorem runStorep_of_range (h : s.params.bufBytes < s.dst + s.params.nBytes) : s.runStorep a = s.fail .range := by
  simp [State.runStorep, Params.inBuf, h]

theorem runStorep_of_inside (h : s.dst + s.params.nBytes ≤ s.params.bufBytes) :
    s.runStorep a = ((s.notePoly a).storeBytes s.dst (beBytes s.params.nBytes (s.poly a))).complete := by
  simp [State.runStorep, Params.inBuf, h]

theorem wroteBuf_runStorep (h : s.dst + s.params.nBytes ≤ s.params.bufBytes) :
    s.WroteBuf s.dst s.params.nBytes (s.runStorep a) := by
  have hwrote := wroteBuf_storeBytes (m := s.notePoly a) s.dst (beBytes s.params.nBytes (s.poly a)) rfl rfl rfl
    (sameControl_refl s) (sameErrors_refl s)
  rwa [length_beBytes, ← runStorep_of_inside a h] at hwrote

theorem holdsBytes_runStorep (h : s.dst + s.params.nBytes ≤ s.params.bufBytes) :
    HoldsBytes (s.runStorep a) s.dst s.params.nBytes
      fun k => BitVec.ofNat 8 (s.poly a / 256 ^ (s.params.n / 8 - k)) := by
  intro k hk
  rw [runStorep_of_inside a h, read_storeBytes_complete _ _ _ k (by rwa [length_beBytes]), getD_beBytes hk]
  rfl

/-- The bytes stored read back as the register's value. -/
theorem beValue_loadBytes_runStorep (h : s.dst + s.params.nBytes ≤ s.params.bufBytes)
    (ha : s.poly a < 2 ^ s.params.n) :
    beValue ((s.runStorep a).loadBytes s.dst s.params.nBytes) = s.poly a := by
  have hload := loadBytes_storeBytes (s.notePoly a) s.dst (beBytes s.params.nBytes (s.poly a))
  rw [length_beBytes] at hload
  rw [runStorep_of_inside a h]
  exact (congrArg beValue hload).trans (beValue_beBytes_of_lt (lt_pow_nBytes ha))

/-- STOREP has no working state of its own. -/
theorem runStorep_frame :
    s.SameSampler (s.runStorep a) ∧ s.SameCode (s.runStorep a) ∧ (s.runStorep a).mulAcc = s.mulAcc := by
  unfold State.runStorep
  split <;> exact ⟨sameSampler_refl s, sameCode_refl s, rfl⟩

end Storep

/-- Settles O21: the range check, the bytes stored, and LOADP of them. -/
theorem storepSerializes : Obligations.StorepSerializes := by
  unfold Obligations.StorepSerializes
  intro a s
  refine ⟨wordIs_storep a, fun hout => ?_, fun hin => ?_⟩
  · refine ⟨_, rfl, ?_⟩
    rw [runStorep_of_range a hout]
    exact ⟨endedWith_fail s .range, sameSampler_refl s, sameCode_refl s, rfl⟩
  · obtain ⟨hsampler, hcode, hmul⟩ := runStorep_frame (s := s) a
    have hwrote := wroteBuf_runStorep a hin
    refine ⟨_, rfl, hwrote, holdsBytes_runStorep a hin, hsampler, hcode, hmul,
      fun hbounded harg d => ⟨_, rfl, ?_⟩⟩
    obtain ⟨-, -, ⟨hparams, _, _, _, _, _, _, hcur, _⟩, _⟩ := hwrote
    have hsrc : (s.runStorep a).src = s.dst := (src_congr hcur).trans (congrArg BitVec.toNat harg)
    apply wrotePoly_runLoadp <;> rw [hparams]
    · rwa [hsrc]
    · rw [hsrc, beValue_loadBytes_runStorep a hin (hbounded a)]
    · exact hbounded a

end Sys2Proof.Machine
end

section
/-! NOP (O9): its one word, and the step of its CMD write. -/

namespace Sys2Proof.Machine

/-- The host's write of CMD issues its word, with an OKAY response. -/
theorem step_of_cmdWrite {s : State} {rest : List Input} {w : Word} (h : s.Ready (.host (cmdWrite s.params w)) rest) :
    step s = issue w (({ s with inputs := rest } : State).okay 0) := by
  rw [step_of_host h]
  exact hostAccess_cmdWrite { s with inputs := rest } w

theorem issue_of_busy {s : State} {w : Word} (h : s.busy = true) :
    issue w s = .next (s.recordError .busy (opcField w)) := by
  simp [issue, h]

theorem issue_nop {s : State} (h : s.busy = false) : issue 0#32 s = .next (s.latch 0#32).signalDone := by
  have hdecode : decode s.params 0#32 = .ok .nop := decodeOfEncodeIsTheCommand s.params .nop rfl
  simp only [issue, h, hdecode, Bool.false_eq_true, if_false]
  rfl

/-- Settles O9: the mask leaves NOP one word, and issue answers it at once, or BUSY. -/
theorem nopCompletesInItsCommandWrite : Obligations.NopCompletesInItsCommandWrite := by
  unfold Obligations.NopCompletesInItsCommandWrite
  refine ⟨wordIs_of_encode rfl, fun p w hopc hw => ?_, fun s => rfl,
    fun s rest h => ⟨fun hbusy => ?_, fun hbusy => ?_⟩⟩
  · obtain ⟨-, hmask, -⟩ := reservedEncodingsAreIllegal p w
    refine hmask .nop hopc ?_
    rwa [show Opcode.nop.maskBits = BitVec.allOnes 32 from rfl, BitVec.and_allOnes]
  · exact (step_of_cmdWrite h).trans (issue_nop hbusy)
  · exact (step_of_cmdWrite h).trans (issue_of_busy hbusy)

end Sys2Proof.Machine
end

section
/-! The sampler's constants (O22): BN as the least exponent, by the bound that characterises it. -/

namespace Sys2Proof

/-- R82: `2^b` reaches N exactly from BN on. -/
theorem ceilLog2_le_iff (n b : Nat) : ceilLog2 n ≤ b ↔ n ≤ 2 ^ b := by
  unfold ceilLog2
  split
  next h => exact iff_of_true (Nat.zero_le b) (h.trans Nat.one_le_two_pow)
  next h =>
    rw [Nat.succ_le_iff, Nat.log2_lt (by omega)]
    omega

theorem bitsNeeded_le_iff (p : Params) (b : Nat) : p.bitsNeeded ≤ b ↔ p.n ≤ 2 ^ b := ceilLog2_le_iff p.n b

theorem bitsNeeded_eq_succ {p : Params} {b : Nat} (hlt : 2 ^ b < p.n) (hle : p.n ≤ 2 ^ (b + 1)) :
    p.bitsNeeded = b + 1 :=
  le_antisymm ((bitsNeeded_le_iff p _).mpr hle) (Nat.lt_of_not_le fun h => hlt.not_ge ((bitsNeeded_le_iff p b).mp h))

theorem bitsNeeded_of_two_pow {p : Params} {k : Nat} (h : p.n = 2 ^ k) : p.bitsNeeded = k := by
  refine le_antisymm ((bitsNeeded_le_iff p k).mpr h.le) ?_
  have hle := (bitsNeeded_le_iff p _).mp le_rfl
  rwa [h, Nat.pow_le_pow_iff_right (by omega)] at hle

theorem bitsNeeded_of_two_pow_succ {p : Params} {k : Nat} (h : p.n = 2 ^ k + 1) : p.bitsNeeded = k + 1 := by
  have hpos := Nat.two_pow_pos k
  exact bitsNeeded_eq_succ (by omega) (by rw [pow_succ]; omega)

theorem samplerConstants_of_bitsNeeded {p : Params} {b : Nat} (h : p.bitsNeeded = b) :
    (p.bitsNeeded, p.bytesNeeded, p.discard) = (b, (b + 7) / 8, 8 * ((b + 7) / 8) - b) := by
  rw [Params.discard, Params.bytesNeeded, h]

/-- Settles O22: BN by its bound, BY and DISC by division with remainder. -/
theorem samplerConstantsAreExact : Obligations.SamplerConstantsAreExact := by
  unfold Obligations.SamplerConstantsAreExact
  refine ⟨fun p => ⟨(bitsNeeded_le_iff p _).mp le_rfl, fun b => (bitsNeeded_le_iff p b).mpr, ?_, ?_⟩,
    fun p k => ⟨bitsNeeded_of_two_pow, bitsNeeded_of_two_pow_succ⟩, fun p => ⟨?_, ?_, ?_, ?_, ?_, ?_⟩⟩
  · unfold Params.discard Params.bytesNeeded
    omega
  · unfold Params.discard Params.bytesNeeded
    omega
  · exact fun h => samplerConstants_of_bitsNeeded (bitsNeeded_eq_succ (b := 3) (by omega) (by omega))
  · exact fun h => samplerConstants_of_bitsNeeded (bitsNeeded_eq_succ (b := 7) (by omega) (by omega))
  · exact fun h => samplerConstants_of_bitsNeeded (bitsNeeded_eq_succ (b := 8) (by omega) (by omega))
  · exact fun h => samplerConstants_of_bitsNeeded (bitsNeeded_eq_succ (b := 15) (by omega) (by omega))
  · exact fun h => samplerConstants_of_bitsNeeded (bitsNeeded_of_two_pow (k := 16) h)
  · exact fun h => samplerConstants_of_bitsNeeded (bitsNeeded_of_two_pow_succ (k := 16) h)

end Sys2Proof
end

section
/-! SAMPLE's turn (O23, O24, O26): its loop head, from a state that differs in the sampler's working state alone, and the
three ways the head goes on (R81). -/

namespace Sys2Proof

theorem wordIs_sample (d : Reg) : WordIs (.sample d) (0x08000000 ||| d.val <<< 20) :=
  wordIs_of_fields .sample d 0 0 rfl (by simp [Opcode.byte])

end Sys2Proof

namespace Sys2Proof.Machine

/-- `s` with other working state of the sampler (R38). -/
def State.withSampler (s : State) (candidate : Nat) (remaining draws : Word) : State :=
  { s with candidate := candidate, remaining := remaining, draws := draws }

/-- The sampler's budget is used up after `draws` draws (R34, R81). -/
def State.BudgetUsed (s : State) (draws : Word) : Prop := s.limit ≠ 0 ∧ draws = s.limit

section Turn

variable (s : State) (d : Reg) {c : Nat} {r n : Word}

theorem startSample_eq : s.startSample = s.withSampler 0 s.cur.arg1 0 := rfl

/-- A draw counts; accepted, it sets its bit and one less remains; rejected, it changes nothing else. -/
theorem takeDraw_eq_withSampler (bs : List Byte) (hr : s.remaining ≠ 0) :
    ∃ c r, s.takeDraw bs = s.withSampler c r (satSucc s.draws) ∧
      (s.accepts (drawValue s.params bs) = true →
        c = s.candidate ||| 2 ^ drawValue s.params bs ∧ r.toNat + 1 = s.remaining.toNat) ∧
      (¬s.accepts (drawValue s.params bs) = true → c = s.candidate ∧ r = s.remaining) := by
  by_cases h : s.accepts (drawValue s.params bs) = true
  · exact ⟨_, _, takeDraw_of_accepted s h, fun _ => ⟨rfl, by bv_omega⟩, absurd h⟩
  · exact ⟨_, _, takeDraw_of_rejected s h, fun h' => absurd h' h, fun _ => ⟨rfl, rfl⟩⟩

/-! ### The loop's head -/

theorem sampleTurn_of_done (h : s.remaining = 0) :
    s.sampleTurn d = (s.recordDraws.setPoly d s.candidate).complete :=
  if_pos h

theorem sampleTurn_of_budgetUsed (hr : s.remaining ≠ 0) (h : s.BudgetUsed s.draws) :
    s.sampleTurn d = s.recordDraws.fail .sampleBudget :=
  (if_neg hr).trans (if_pos h)

theorem sampleTurn_of_open (hr : s.remaining ≠ 0) (h : ¬s.BudgetUsed s.draws) :
    s.sampleTurn d = s.request (.drbgWait s.params.bytesNeeded) :=
  (if_neg hr).trans (if_neg h)

/-- With nothing remaining the vector is written. -/
theorem sampleTurn_writes_vector (h : r = 0) :
    s.WrotePoly d c ((s.withSampler c r n).sampleTurn d) ∧ ((s.withSampler c r n).sampleTurn d).sampleDraws = n := by
  rw [sampleTurn_of_done (s.withSampler c r n) d h]
  exact ⟨wrotePoly_setPoly (m := (s.withSampler c r n).recordDraws) d c rfl rfl rfl (sameControl_refl s)
    (sameErrors_refl s), rfl⟩

/-- With the budget used up the command ends with SAMPLE_BUDGET. -/
theorem sampleTurn_ends_with_budget (hr : r ≠ 0) (h : s.BudgetUsed n) :
    s.EndedWith .sampleBudget ((s.withSampler c r n).sampleTurn d) ∧
      ((s.withSampler c r n).sampleTurn d).sampleDraws = n := by
  rw [sampleTurn_of_budgetUsed (s.withSampler c r n) d hr h]
  exact ⟨endedWith_fail (s.withSampler c r n).recordDraws .sampleBudget, rfl⟩

/-- Otherwise one more draw is asked for. -/
theorem sampleTurn_asks_for_draw (hr : r ≠ 0) (h : ¬s.BudgetUsed n) :
    s.Waits ((s.withSampler c r n).sampleTurn d) ∧ ((s.withSampler c r n).sampleTurn d).fsm = s.fsm ∧
      ((s.withSampler c r n).sampleTurn d).drbgRequest = some s.params.bytesNeeded ∧
      ((s.withSampler c r n).sampleTurn d).candidate = c ∧ ((s.withSampler c r n).sampleTurn d).remaining = r := by
  rw [sampleTurn_of_open (s.withSampler c r n) d hr h]
  exact ⟨⟨samePolys_of_eq rfl rfl, sameBuf_of_eq rfl, sameControl_refl s, sameErrors_refl s, rfl, rfl, rfl⟩, rfl, rfl,
    rfl, rfl⟩

/-- However the head goes on, the rest of the working state and the recorded faults stay, and so does the count. -/
theorem sampleTurn_keeps :
    s.SameCode ((s.withSampler c r n).sampleTurn d) ∧ ((s.withSampler c r n).sampleTurn d).mulAcc = s.mulAcc ∧
      s.SameUninit ((s.withSampler c r n).sampleTurn d) ∧ ((s.withSampler c r n).sampleTurn d).draws = n := by
  rcases sampleTurn_cases (s.withSampler c r n) d with ⟨_, e⟩ | ⟨_, _, e⟩ | ⟨_, _, e⟩ <;> rw [e]
  all_goals exact ⟨sameCode_refl s, rfl, ⟨rfl, rfl⟩, rfl⟩

/-! ### The turn by its phase -/

theorem exec_sample_of_start (h : s.phase = .start) (hw : s.cur.arg1.toNat ≤ s.params.n) :
    exec (.sample d) s = .next ((s.withSampler 0 s.cur.arg1 0).sampleTurn d) := by
  have hweight : ¬s.params.n < s.count := Nat.not_lt.mpr hw
  rw [exec_eq_next, stepOf, State.runSample, h]
  simp only [if_neg hweight, startSample_eq]

theorem exec_sample_of_drbgGot {bs : List Byte} (h : s.phase = .drbgGot bs) :
    exec (.sample d) s = .next ((s.takeDraw bs).sampleTurn d) := by
  rw [exec_eq_next, stepOf, State.runSample, h]

end Turn

/-- Settles O23: the first loop head, at no draws, where no budget is used up. -/
theorem sampleStartsWithOneRequest : Obligations.SampleStartsWithOneRequest := by
  unfold Obligations.SampleStartsWithOneRequest
  intro d s hstart hw
  have hexec := exec_sample_of_start s d hstart hw
  obtain ⟨hcode, hacc, huninit, hdraws⟩ := sampleTurn_keeps s d (c := 0) (r := s.cur.arg1) (n := 0)
  refine ⟨wordIs_sample d, fun hzero => ?_, fun hpos => ?_⟩
  · have hr : s.cur.arg1 = 0 := BitVec.eq_of_toNat_eq hzero
    obtain ⟨hwrote, hcount⟩ := sampleTurn_writes_vector s d (c := 0) (n := 0) hr
    exact ⟨_, hexec, hwrote, hcount, hcode, hacc, huninit⟩
  · have hr : s.cur.arg1 ≠ 0 := fun e => hpos.ne' (congrArg BitVec.toNat e)
    have hopen : ¬s.BudgetUsed 0 := fun ⟨hlimit, he⟩ => hlimit he.symm
    obtain ⟨hwaits, hfsm, hrequest, hcandidate, hremaining⟩ := sampleTurn_asks_for_draw s d (c := 0) hr hopen
    exact ⟨_, hexec, hwaits, hfsm, hrequest, hcandidate, hremaining, hdraws, hcode, hacc, huninit⟩

/-- Settles O24: the loop head after the draw; nothing remains after it exactly where it was accepted for the last bit. -/
theorem sampleTakesOneDraw : Obligations.SampleTakesOneDraw := by
  unfold Obligations.SampleTakesOneDraw
  intro d s bs hphase hr v ok count budget
  have hexec := exec_sample_of_drbgGot s d hphase
  obtain ⟨c, r, hdraw, haccepted, hrejected⟩ := takeDraw_eq_withSampler s bs hr
  rw [accepts_iff] at haccepted hrejected
  change ok → _ at haccepted
  change ¬ok → _ at hrejected
  have hlast : r = 0 ↔ ok ∧ s.remaining = 1 := by
    by_cases hok : ok
    · obtain ⟨_, hless⟩ := haccepted hok
      simp only [hok, true_and]
      bv_omega
    · obtain ⟨_, rfl⟩ := hrejected hok
      exact iff_of_false hr fun h => hok h.1
  have hcount : (satSucc s.draws).toNat = count := toNat_satSucc s.draws
  have hbudget : budget ↔ s.BudgetUsed (satSucc s.draws) := by
    unfold State.BudgetUsed
    rw [← BitVec.toNat_inj, hcount]
  obtain ⟨hcode, hacc, huninit, hdraws⟩ := sampleTurn_keeps s d (c := c) (r := r) (n := satSucc s.draws)
  rw [hdraw] at hexec
  rw [hbudget, ← hlast]
  refine ⟨_, hexec, hcode, hacc, huninit, (congrArg BitVec.toNat hdraws).trans hcount, fun hok hone => ?_,
    fun hmore hused => ?_, fun hmore hopen => ?_⟩
  · rw [hdraws, Nat.one_shiftLeft]
    obtain ⟨rfl, _⟩ := haccepted hok
    exact sampleTurn_writes_vector s d (hlast.mpr ⟨hok, hone⟩)
  · rw [hdraws]
    exact sampleTurn_ends_with_budget s d hmore hused
  · obtain ⟨hwaits, hfsm, hrequest, hcandidate, hremaining⟩ := sampleTurn_asks_for_draw s d (c := c) hmore hopen
    rw [hcandidate, hremaining, Nat.one_shiftLeft]
    exact ⟨hwaits, hfsm, hrequest, haccepted, hrejected⟩

/-! ### The weight (R86) -/

/-- A loop head that ends the command has the whole weight in its vector, or has used up the budget. -/
theorem weight_of_sampleTurn {s : State} {d : Reg} {c : Nat} {r n : Word} (hbusy : s.busy = true)
    (hs : (s.withSampler c r n).SamplerOk) (hend : ((s.withSampler c r n).sampleTurn d).busy = false) :
    let t := (s.withSampler c r n).sampleTurn d
    (s.SameErrors t ∧ onesCount s.params.n (t.poly d) = s.cur.arg1.toNat ∧ t.poly d < 2 ^ s.params.n) ∨
      (s.EndedWith .sampleBudget t ∧ s.limit ≠ 0 ∧ t.sampleDraws = s.limit) := by
  obtain ⟨hlt, hweight⟩ := hs
  by_cases hr : r = 0
  · obtain ⟨hwrote, _⟩ := sampleTurn_writes_vector s d (c := c) (n := n) hr
    obtain ⟨hpoly, _, _, _, _, herrors, _⟩ := hwrote
    subst hr
    exact .inl ⟨herrors, by rw [hpoly]; exact hweight, by rw [hpoly]; exact hlt⟩
  · by_cases hused : s.BudgetUsed n
    · obtain ⟨hended, hcount⟩ := sampleTurn_ends_with_budget s d (c := c) hr hused
      exact .inr ⟨hended, hused.1, hcount.trans hused.2⟩
    · obtain ⟨⟨_, _, _, _, hruns, _⟩, _⟩ := sampleTurn_asks_for_draw s d (c := c) hr hused
      rw [hruns, hbusy] at hend
      cases hend

/-- Settles O26: at every loop head the vector's bits and the remaining count make up the weight, by the invariant. -/
theorem completedSampleHasItsWeight : Obligations.CompletedSampleHasItsWeight := by
  unfold Obligations.CompletedSampleHasItsWeight
  intro s t d hinv hbusy hdecode hexec hend
  obtain ⟨i, ⟨_, hruns, _, hweight⟩, hphaseOk⟩ := runs_of_inv hinv hbusy
  obtain rfl : i = .sample d := Except.ok.inj (hruns.symm.trans hdecode)
  unfold State.PhaseOk at hphaseOk
  cases hphase : s.phase <;> simp only [hphase] at hphaseOk
  case start =>
    have hw : s.cur.arg1.toNat ≤ s.params.n := Nat.not_lt.mp (of_decide_eq_false hweight)
    rw [exec_sample_of_start s d hphase hw] at hexec
    obtain rfl := Host.Outcome.next.inj hexec
    exact weight_of_sampleTurn hbusy (samplerOk_startSample s) hend
  case drbgWait k =>
    rw [exec_eq_next, stepOf, State.runSample, hphase] at hexec
    obtain rfl := Host.Outcome.next.inj hexec
    rw [hbusy] at hend
    cases hend
  case drbgGot bs =>
    obtain ⟨_, _, hs, hr⟩ := hphaseOk
    have hs' := samplerOk_takeDraw (bs := bs) hs hr
    rw [exec_sample_of_drbgGot s d hphase] at hexec
    obtain rfl := Host.Outcome.next.inj hexec
    obtain ⟨c, r, n, e⟩ := takeDraw_eq s bs
    rw [e] at hs' hend ⊢
    exact weight_of_sampleTurn (c := c) (r := r) (n := n) hbusy hs' hend

end Sys2Proof.Machine
end

section
/-! A run of SAMPLE (O25, O27): one answered draw is two steps, from one loop head to the next, so a run on a list of
answers is an induction over the loop heads. -/

namespace Sys2Proof.Machine

/-! ### The steps of the engine and of the DRBG port -/

/-- The engine's turn with `i` running. -/
theorem step_of_engine {s : State} {rest : List Input} {i : Instr} (h : s.Ready .engine rest) (hbusy : s.busy = true)
    (hdecode : decode s.params s.cur.word = .ok i) : step s = .next (stepOf i { s with inputs := rest }) := by
  obtain ⟨_, hrst, _⟩ := id h
  rw [step_of_ready h, ← exec_eq_next]
  simp [advance, engineTurn, hrst, hbusy, hdecode]

/-- The outstanding DRBG request is answered (R83). -/
theorem step_of_drbg {s : State} {rest : List Input} {bs : List Byte} (h : s.Ready (.drbg s.portReq bs) rest)
    (hphase : s.phase = .drbgWait bs.length) :
    step s = .next (({ s with inputs := rest } : State).setPhase (.drbgGot bs)) := by
  obtain ⟨_, hrst, _⟩ := id h
  rw [step_of_ready h]
  simp [advance, hrst, State.answerDrbg, State.drbgRequest, hphase]

/-- A run whose first step is known. -/
theorem run_succ_of_step {s m : State} (h : step s = .next m) (k : Nat) :
    Host.Core.run core (k + 1) s = Host.Core.run core k m := by
  have hstep : core.step s = .next m := h
  simp only [Host.Core.run]
  rw [hstep]

/-! ### One draw of a run -/

/-- SAMPLE runs, with parameters inside R8's bounds and `rst` not asserted. -/
structure State.Sampling (s : State) (d : Reg) : Prop where
  wf : s.params.wf = true
  rst : s.rst = false
  busy : s.busy = true
  decode : decode s.params s.cur.word = .ok (.sample d)

/-- The answers' share of `samplerSteps`: each answer, then the engine's turn on it. -/
def drawSteps (r : Nat) : List (List Byte) → List Input
  | [] => []
  | B :: more => .drbg r B :: .engine :: drawSteps (r + 1) more

theorem samplerSteps_eq_cons (r : Nat) (answers : List (List Byte)) :
    samplerSteps r answers = .engine :: drawSteps r answers := by
  induction answers generalizing r with
  | nil => rfl
  | cons B more ih => rw [samplerSteps, drawSteps, ih]

/-- The engine's turn on the answer `bs` comes up, and `rest` after it is to come. -/
def State.answered (s : State) (bs : List Byte) (rest : List Input) : State :=
  { s with portReq := s.portReq + 1, phase := .drbgGot bs, inputs := rest }

section Draw

variable {s : State} {d : Reg}

/-- A loop head that asks for a draw: the answer and the engine's turn on it are two steps, and lead to the loop head
after the draw. -/
theorem run_of_draw (h : s.Sampling d) {bs : List Byte} {rest : List Input} (hr : s.remaining ≠ 0)
    (hopen : ¬s.BudgetUsed s.draws) (hin : s.inputs = .drbg (s.portReq + 1) bs :: .engine :: rest)
    (hlen : bs.length = s.params.bytesNeeded) (k : Nat) :
    Host.Core.run core (k + 2) (s.sampleTurn d) =
      Host.Core.run core k (((s.answered bs rest).takeDraw bs).sampleTurn d) := by
  obtain ⟨hwf, hrst, hbusy, hdecode⟩ := h
  rw [sampleTurn_of_open s d hr hopen]
  have hanswer := step_of_drbg (s := s.request (.drbgWait s.params.bytesNeeded)) (bs := bs) ⟨hwf, hrst, hin⟩
    (congrArg Phase.drbgWait hlen.symm)
  have hturn := step_of_engine (rest := rest)
    (s := ({ s.request (.drbgWait s.params.bytesNeeded) with inputs := .engine :: rest } : State).setPhase (.drbgGot bs))
    ⟨hwf, hrst, rfl⟩ hbusy hdecode
  exact (run_succ_of_step hanswer (k + 1)).trans (run_succ_of_step hturn k)

/-- The loop head after a draw, in the words of the one before it. -/
theorem exists_next_loop_head (h : s.Sampling d) {bs : List Byte} {rest : List Input} (hr : s.remaining ≠ 0)
    (hopen : ¬s.BudgetUsed s.draws) (hin : s.inputs = .drbg (s.portReq + 1) bs :: .engine :: rest)
    (hlen : bs.length = s.params.bytesNeeded) :
    ∃ c r, ((s.answered bs rest).withSampler c r (satSucc s.draws)).Sampling d ∧
      (∀ k, Host.Core.run core (k + 2) (s.sampleTurn d) =
        Host.Core.run core k (((s.answered bs rest).withSampler c r (satSucc s.draws)).sampleTurn d)) ∧
      (s.accepts (drawValue s.params bs) = true →
        c = s.candidate ||| 2 ^ drawValue s.params bs ∧ r.toNat + 1 = s.remaining.toNat) ∧
      (¬s.accepts (drawValue s.params bs) = true → c = s.candidate ∧ r = s.remaining) := by
  have hrun := run_of_draw h hr hopen hin hlen
  obtain ⟨hwf, hrst, hbusy, hdecode⟩ := h
  obtain ⟨c, r, hdraw, hdrawn⟩ := takeDraw_eq_withSampler (s.answered bs rest) bs hr
  rw [hdraw] at hrun
  exact ⟨c, r, ⟨hwf, hrst, hbusy, hdecode⟩, hrun, hdrawn⟩

/-- From acceptance to the first loop head is one step, the engine's turn (R109). -/
theorem run_of_accepted_sample (h : s.Sampling d) {rest : List Input} (hin : s.inputs = .engine :: rest)
    (hstart : s.phase = .start) (hw : s.cur.arg1.toNat ≤ s.params.n) (k : Nat) :
    Host.Core.run core (k + 1) s =
      Host.Core.run core k ((({ s with inputs := rest } : State).withSampler 0 s.cur.arg1 0).sampleTurn d) := by
  obtain ⟨hwf, hrst, hbusy, hdecode⟩ := h
  have hturn := step_of_engine ⟨hwf, hrst, hin⟩ hbusy hdecode
  rw [run_succ_of_step hturn, ← Host.Outcome.next.inj ((exec_eq_next _ _).symm.trans
    (exec_sample_of_start { s with inputs := rest } d hstart hw))]

end Draw

/-! ### R81's loop (O25) -/

/-- The OPC that an error of SAMPLE records (R108). -/
theorem State.Sampling.opc {s : State} {d : Reg} (h : s.Sampling d) : s.cur.word.extractLsb' 24 8 = 0x08#8 := by
  obtain ⟨hencode, _⟩ := decodedWordIsTheCommandsOnlyWord _ _ _ h.decode
  obtain ⟨hopc, _⟩ := encodingFitsTable (.sample d)
  rw [hencode] at hopc
  exact hopc

/-- How a SAMPLE from `s` ends as R81's loop ends with `out` after `draws` draws, `rest` still to come. -/
def State.SampleEnds (s : State) (d : Reg) (rest : List Input) (out : Option Nat) (draws : Nat) (t : State) : Prop :=
  t.inputs = rest ∧ t.Completed ∧ t.sampleDraws.toNat = min draws 0xFFFFFFFF ∧ s.SamePolysBut d t ∧ s.SameBuf t ∧
    (∀ v, out = some v → t.poly d = v ∧ s.SameErrors t) ∧
    (out = none → t.poly d = s.poly d ∧ t.err = true ∧ t.errCode = .sampleBudget ∧ t.errOpc = 0x08#8)

/-- `k` is R81's unbounded count at the loop head `s`: the 32-bit one is it, held at 0xFFFF_FFFF (log entry 16), and a
budget has not been passed. -/
def State.CountsDraws (s : State) (k : Nat) : Prop :=
  s.draws.toNat = min k 0xFFFFFFFF ∧ (s.limit.toNat ≠ 0 → k ≤ s.limit.toNat)

theorem budgetUsed_iff {s : State} {k : Nat} (h : s.CountsDraws k) :
    s.BudgetUsed s.draws ↔ s.limit.toNat ≠ 0 ∧ k = s.limit.toNat := by
  obtain ⟨hdraws, hle⟩ := h
  have hlt := s.limit.isLt
  unfold State.BudgetUsed
  rw [← BitVec.toNat_inj, hdraws, ne_eq, ← BitVec.toNat_inj]
  refine and_congr_right fun hlimit => ?_
  have := hle hlimit
  omega

theorem inputs_of_sameControl {s t : State} (h : s.SameControl t) : t.inputs = s.inputs := by
  obtain ⟨_, _, _, _, _, _, _, _, _, _, _, hinputs, _⟩ := h
  exact hinputs

section Loop

variable {s : State} {d : Reg} {k : Nat}

theorem sampleEnds_of_done (hr : s.remaining = 0) (hcount : s.CountsDraws k) :
    s.SampleEnds d s.inputs (some s.candidate) k (s.sampleTurn d) := by
  obtain ⟨⟨hpoly, _, hpolys, hbuf, hcontrol, herrors, hcompleted⟩, hdraws⟩ :=
    sampleTurn_writes_vector s d (c := s.candidate) (n := s.draws) hr
  refine ⟨inputs_of_sameControl hcontrol, hcompleted, (congrArg BitVec.toNat hdraws).trans hcount.1, hpolys, hbuf,
    fun v hv => ?_, nofun⟩
  exact ⟨hpoly.trans (Option.some.inj hv), herrors⟩

theorem sampleEnds_of_budgetUsed (h : s.Sampling d) (hr : s.remaining ≠ 0) (hused : s.BudgetUsed s.draws)
    (hcount : s.CountsDraws k) : s.SampleEnds d s.inputs none k (s.sampleTurn d) := by
  obtain ⟨⟨herr, hcode, hopc, hpolys, hbuf, hcontrol, hcompleted⟩, hdraws⟩ :=
    sampleTurn_ends_with_budget s d (c := s.candidate) hr hused
  exact ⟨inputs_of_sameControl hcontrol, hcompleted, (congrArg BitVec.toNat hdraws).trans hcount.1,
    fun j _ => hpolys j, hbuf, nofun, fun _ => ⟨(hpolys d).1, herr, hcode, hopc.trans h.opc⟩⟩

theorem countsDraws_succ {c : Nat} {r : Word} (hcount : s.CountsDraws k) (hopen : ¬s.BudgetUsed s.draws) :
    (s.withSampler c r (satSucc s.draws)).CountsDraws (k + 1) := by
  rw [budgetUsed_iff hcount] at hopen
  obtain ⟨hdraws, hle⟩ := hcount
  refine ⟨?_, fun hlimit => ?_⟩
  · show (satSucc s.draws).toNat = _
    rw [toNat_satSucc, hdraws]
    omega
  · have hbelow : k ≤ s.limit.toNat := hle hlimit
    have hne : k ≠ s.limit.toNat := fun e => hopen ⟨hlimit, e⟩
    show k + 1 ≤ s.limit.toNat
    omega

/-- From a loop head the run ends as R81's loop on the answers to come ends. -/
theorem run_samplerLoop {answers : List (List Byte)} {rest : List Input} {out : Option Nat} {draws : Nat}
    (h : s.Sampling d) (hcount : s.CountsDraws k) (hin : s.inputs = drawSteps (s.portReq + 1) answers ++ rest)
    (hlen : ∀ B ∈ answers, B.length = s.params.bytesNeeded)
    (hloop : samplerLoop s.params s.limit.toNat answers s.candidate s.remaining.toNat k = some (out, draws)) :
    ∃ t, Host.Core.run core (2 * answers.length) (s.sampleTurn d) = .next t ∧ s.SampleEnds d rest out draws t := by
  induction answers generalizing s k with
  | nil =>
    refine ⟨_, rfl, ?_⟩
    obtain rfl : s.inputs = rest := hin
    rw [samplerLoop] at hloop
    split at hloop
    next hr =>
      obtain ⟨rfl, rfl⟩ := Prod.mk.inj (Option.some.inj hloop)
      exact sampleEnds_of_done (BitVec.eq_of_toNat_eq hr) hcount
    next hr =>
      split at hloop
      next hused =>
        obtain ⟨rfl, rfl⟩ := Prod.mk.inj (Option.some.inj hloop)
        exact sampleEnds_of_budgetUsed h (mt (congrArg BitVec.toNat) hr) ((budgetUsed_iff hcount).mpr hused) hcount
      · cases hloop
  | cons B more ih =>
    rw [samplerLoop] at hloop
    split at hloop
    · cases hloop
    next hgoes =>
      rw [← budgetUsed_iff hcount] at hgoes
      obtain ⟨hzero, hopen⟩ := not_or.mp hgoes
      have hr : s.remaining ≠ 0 := mt (congrArg BitVec.toNat) hzero
      obtain ⟨hB, hmore⟩ := List.forall_mem_cons.mp hlen
      obtain ⟨c, r, hsampling, hrun, haccepted, hrejected⟩ := exists_next_loop_head h hr hopen hin hB
      have hloop' : samplerLoop s.params s.limit.toNat more c r.toNat (k + 1) = some (out, draws) := by
        rw [accepts_iff] at haccepted hrejected
        split at hloop
        next hok =>
          obtain ⟨rfl, hless⟩ := haccepted hok
          rwa [Nat.one_shiftLeft, show s.remaining.toNat - 1 = r.toNat by omega] at hloop
        next hok =>
          obtain ⟨rfl, rfl⟩ := hrejected hok
          exact hloop
      obtain ⟨t, ht, hends⟩ := ih hsampling (countsDraws_succ hcount hopen) rfl hmore hloop'
      exact ⟨t, (hrun _).trans ht, hends⟩

end Loop

/-- Settles O25: the first loop head is that of R81's loop at no draws. -/
theorem sampleRunsAsItsPseudocode : Obligations.SampleRunsAsItsPseudocode := by
  unfold Obligations.SampleRunsAsItsPseudocode
  intro s d answers rest out draws hwf hrst hin hbusy hdecode hstart hw hlen hloop
  rw [samplerSteps_eq_cons] at hin
  rw [run_of_accepted_sample ⟨hwf, hrst, hbusy, hdecode⟩ hin hstart hw]
  exact run_samplerLoop ⟨hwf, hrst, hbusy, hdecode⟩ ⟨rfl, fun _ => Nat.zero_le _⟩ rfl hlen hloop

/-! ### Draws that never end a SAMPLE (O27) -/

/-- `k` draws of exactly BY zero bytes (R83). -/
def zeroDraws (p : Params) (k : Nat) : List (List Byte) := List.replicate k (List.replicate p.bytesNeeded 0#8)

theorem length_of_mem_zeroDraws {p : Params} {k : Nat} {B : List Byte} (h : B ∈ zeroDraws p k) :
    B.length = p.bytesNeeded := by
  rw [List.eq_of_mem_replicate h, List.length_replicate]

theorem beValue_replicate_zero (len : Nat) : beValue (List.replicate len 0#8) = 0 := by
  induction len with
  | zero => rfl
  | succ len ih => exact ih

theorem drawValue_replicate_zero (p : Params) (len : Nat) : drawValue p (List.replicate len 0#8) = 0 := by
  rw [drawValue, beValue_replicate_zero, Nat.zero_shiftRight]

/-- A zero draw is accepted exactly where bit 0 is not yet set. -/
theorem accepts_zero_draw {s : State} (hwf : s.params.wf = true) (len : Nat) :
    s.accepts (drawValue s.params (List.replicate len 0#8)) = true ↔ s.candidate.testBit 0 = false := by
  obtain ⟨hn, _⟩ := (params_wf_iff s.params).mp hwf
  rw [accepts_iff, drawValue_replicate_zero]
  exact and_iff_right (by omega)

/-- Zero draws cannot end the SAMPLE at this loop head: bits remain besides bit 0, and there is no budget. -/
def State.Stuck (s : State) : Prop :=
  s.limit = 0 ∧ s.remaining ≠ 0 ∧ (s.candidate.testBit 0 = false → s.remaining ≠ 1)

theorem not_budgetUsed_of_stuck {s : State} (h : s.Stuck) (n : Word) : ¬s.BudgetUsed n := fun hused => hused.1 h.1

theorem stuck_withSampler_of_accepted {s : State} {r : Word} (h : s.Stuck) (hclear : s.candidate.testBit 0 = false)
    (hless : r.toNat + 1 = s.remaining.toNat) (n : Word) : (s.withSampler (s.candidate ||| 2 ^ 0) r n).Stuck := by
  obtain ⟨hlimit, _, hbit⟩ := h
  have hmore := hbit hclear
  have hset : (s.candidate ||| 2 ^ 0).testBit 0 = true := by simp
  exact ⟨hlimit, show r ≠ 0 by bv_omega, fun hunset => absurd (hset.symm.trans hunset) (by decide)⟩

/-- After any number of zero draws the SAMPLE still runs. -/
theorem run_zeroDraws {s : State} {d : Reg} (k : Nat) (h : s.Sampling d) (hstuck : s.Stuck)
    (hin : s.inputs = drawSteps (s.portReq + 1) (zeroDraws s.params k)) :
    ∃ t, Host.Core.run core (2 * k) (s.sampleTurn d) = .next t ∧ t.busy = true := by
  induction k generalizing s with
  | zero =>
    obtain ⟨_, hr, _⟩ := id hstuck
    rw [sampleTurn_of_open s d hr (not_budgetUsed_of_stuck hstuck _)]
    exact ⟨_, rfl, h.busy⟩
  | succ k ih =>
    obtain ⟨_, hr, _⟩ := id hstuck
    obtain ⟨c, r, hsampling, hrun, haccepted, hrejected⟩ :=
      exists_next_loop_head h hr (not_budgetUsed_of_stuck hstuck _) hin List.length_replicate
    rw [accepts_zero_draw h.wf] at haccepted hrejected
    have hstuck' : (s.withSampler c r (satSucc s.draws)).Stuck := by
      by_cases hclear : s.candidate.testBit 0 = false
      · obtain ⟨rfl, hless⟩ := haccepted hclear
        rw [drawValue_replicate_zero]
        exact stuck_withSampler_of_accepted hstuck hclear hless _
      · obtain ⟨rfl, rfl⟩ := hrejected hclear
        exact hstuck
    obtain ⟨t, ht, hbusy⟩ := ih hsampling hstuck' rfl
    exact ⟨t, (hrun _).trans ht, hbusy⟩

/-- A SAMPLE accepted with weight 2 or more and no budget still runs after any number of zero draws. -/
theorem run_accepted_zeroDraws {s : State} {d : Reg} (k : Nat) (h : s.Sampling d) (hstart : s.phase = .start)
    (hlimit : s.limit = 0) (htwo : 2 ≤ s.cur.arg1.toNat) (hw : s.cur.arg1.toNat ≤ s.params.n)
    (hin : s.inputs = samplerSteps (s.portReq + 1) (zeroDraws s.params k)) :
    ∃ t, Host.Core.run core (2 * k + 1) s = .next t ∧ t.busy = true := by
  have hzero : s.cur.arg1 ≠ 0 := fun e => by simp [e] at htwo
  have hone : s.cur.arg1 ≠ 1 := fun e => by simp [e] at htwo
  rw [samplerSteps_eq_cons] at hin
  rw [run_of_accepted_sample h hin hstart hw]
  obtain ⟨hwf, hrst, hbusy, hdecode⟩ := h
  exact run_zeroDraws k ⟨hwf, hrst, hbusy, hdecode⟩ ⟨hlimit, hzero, fun _ => hone⟩ rfl

/-- Settles O27: `k` draws of zero bytes set bit 0 and nothing else. -/
theorem unboundedSampleNeedNotEnd : Obligations.UnboundedSampleNeedNotEnd := by
  unfold Obligations.UnboundedSampleNeedNotEnd
  intro s d k hwf hrst hbusy hdecode hstart hlimit htwo hw
  obtain ⟨t, hrun, hruns⟩ := run_accepted_zeroDraws k
    (s := { s with inputs := samplerSteps (s.portReq + 1) (zeroDraws s.params k) }) ⟨hwf, hrst, hbusy, hdecode⟩ hstart
    hlimit htwo hw rfl
  exact ⟨zeroDraws s.params k, t, List.length_replicate, fun _ => length_of_mem_zeroDraws, hrun, hruns⟩

end Sys2Proof.Machine
end

section
/-! The columns of a Reed-Muller block (O28): the codeword's bits as parities, their linearity, and the packing
bit by bit. -/

namespace Sys2Proof.Machine

/-! ### Parities (R12) -/

theorem onesCount_succ (n x : Nat) : onesCount (n + 1) x = onesCount n x + (x.testBit n).toNat := by
  cases h : x.testBit n <;> simp [onesCount, List.range_succ, h]

/-- Only the bits below `n` count. -/
theorem onesCount_congr {n x y : Nat} (h : ∀ i, i < n → x.testBit i = y.testBit i) : onesCount n x = onesCount n y :=
  congrArg List.length (List.filter_congr fun i hi => h i (List.mem_range.mp hi))

/-- The parity of the ones is additive. -/
theorem odd_onesCount_xor (n x y : Nat) :
    decide (onesCount n (x ^^^ y) % 2 = 1) =
      (decide (onesCount n x % 2 = 1) ^^ decide (onesCount n y % 2 = 1)) := by
  induction n with
  | zero => rfl
  | succ n ih =>
    simp only [onesCount_succ, Nat.testBit_xor]
    cases x.testBit n <;> cases y.testBit n <;>
      simp only [Bool.toNat_false, Bool.toNat_true, Nat.add_zero, Bool.xor_false, Bool.xor_true, Bool.not_true,
        Bool.not_false, decide_succ_odd, ih, Bool.not_xor, Bool.xor_not, Bool.not_not]

theorem oddOnes_xor (x y : Nat) : oddOnes (x ^^^ y) = (oddOnes x ^^ oddOnes y) := odd_onesCount_xor 7 x y

/-- A loop that flips at every index `p` holds at ends with their parity. -/
theorem foldl_bne_eq_odd (p : Nat → Bool) (l : List Nat) (acc : Bool) :
    l.foldl (fun acc i => acc != p i) acc = (acc ^^ decide ((l.filter p).length % 2 = 1)) := by
  induction l generalizing acc with
  | nil => simp
  | cons i l ih =>
    rw [List.foldl_cons, ih]
    cases hp : p i
    · simp [hp]
    · simp only [hp, List.filter_cons_of_pos, List.length_cons, decide_succ_odd, Bool.xor_true, Bool.not_xor,
        Bool.xor_not]

theorem parity7_eq_oddOnes (x : Nat) : parity7 x = oddOnes x := by
  rw [parity7, foldl_bne_eq_odd, Bool.false_xor]
  rfl

/-! ### The codeword's columns (R89) -/

theorem cwBit_eq_columnBit (b : Byte) (j : Nat) : cwBit b j = columnBit b j := by
  have hlow : b.toNat &&& 0x7F = b.toNat % 128 := Nat.and_two_pow_sub_one_eq_mod b.toNat 7
  rw [cwBit, parity7_eq_oddOnes, hlow]
  rfl

/-- R89 is a product by a matrix over GF(2): the code is linear. -/
theorem columnBit_xor (b c : Byte) (j : Nat) : columnBit (b ^^^ c) j = (columnBit b j ^^ columnBit c j) := by
  have hlow : (b ^^^ c).toNat % 128 = (b.toNat % 128) ^^^ (c.toNat % 128) := Nat.xor_mod_two_pow (n := 7)
  rw [columnBit, hlow, Nat.and_xor_distrib_right, oddOnes_xor, BitVec.getLsbD_xor]
  simp only [columnBit, Bool.xor_assoc, Bool.xor_left_comm]

/-- The all-ones row (R89). -/
theorem columnBit_ones_row (j : Nat) : columnBit 0x80#8 j = true := by
  have hlow : (0x80#8 : Byte).toNat % 128 &&& j = 0 := Nat.zero_and j
  rw [columnBit, hlow]
  rfl

theorem columnBit_or_ones_row (b : Byte) (j : Nat) : columnBit (b ||| 0x80#8) j = !columnBit (b &&& 0x7F#8) j := by
  have hsplit : b ||| 0x80#8 = (b &&& 0x7F#8) ^^^ 0x80#8 := by
    revert b
    decide
  rw [hsplit, columnBit_xor, columnBit_ones_row, Bool.xor_true]

/-! ### Packing (R90) -/

/-- The value of `n` bits, the first one the highest. -/
theorem testBit_foldl_bits (f : Nat → Bool) {n i : Nat} (h : i < n) :
    ((List.range n).foldl (fun v p => 2 * v + (f p).toNat) 0).testBit (n - 1 - i) = f i := by
  induction n with
  | zero => omega
  | succ n ih =>
    rw [List.range_succ, List.foldl_append, List.foldl_cons, List.foldl_nil, ← Nat.bit_val, Nat.add_sub_cancel]
    rcases Nat.lt_succ_iff_lt_or_eq.mp h with hlt | rfl
    · rw [show n - i = n - 1 - i + 1 by omega, Nat.testBit_bit_succ, ih hlt]
    · rw [Nat.sub_self, Nat.testBit_bit_zero]

theorem getLsbD_packByte (f : Nat → Bool) {i : Nat} (h : i < 8) : (packByte f).getLsbD (7 - i) = f i := by
  rw [packByte, BitVec.getLsbD_ofNat, decide_eq_true (by omega : 7 - i < 8), Bool.true_and]
  exact testBit_foldl_bits f h

theorem packByte_not (f : Nat → Bool) : packByte (fun i => !f i) = ~~~packByte f := by
  refine BitVec.eq_of_getLsbD_eq fun i hi => ?_
  have hflip : 7 - (7 - i) = i := by omega
  have hbit := fun g => getLsbD_packByte g (show 7 - i < 8 by omega)
  rw [hflip] at hbit
  rw [BitVec.getLsbD_not, hbit, hbit, decide_eq_true hi, Bool.true_and]

theorem packedBit_rmBlock (b : Byte) {j : Nat} (h : j < 128) : packedBit (rmBlock b) j = columnBit b j := by
  have hbyte : (rmBlock b).getD (j / 8) 0 = packByte fun p => cwBit b (8 * (j / 8) + p) := by
    simp [rmBlock, show j / 8 < 16 by omega]
  rw [packedBit, hbyte, getLsbD_packByte _ (Nat.mod_lt j (by decide)), cwBit_eq_columnBit, Nat.div_add_mod]

theorem rmBlock_or_ones_row (b : Byte) : rmBlock (b ||| 0x80#8) = (rmBlock (b &&& 0x7F#8)).map fun x => ~~~x := by
  simp only [rmBlock, cwBit_eq_columnBit, columnBit_or_ones_row, packByte_not, List.map_map, Function.comp_def]

/-- Settles O28: the packing undone bit by bit, and the all-ones row by linearity. -/
theorem blockIsThePackedCodeword : Obligations.BlockIsThePackedCodeword := by
  unfold Obligations.BlockIsThePackedCodeword
  exact fun b => ⟨length_rmBlock b, fun _ => packedBit_rmBlock b, rmBlock_or_ones_row b⟩

end Sys2Proof.Machine
end

section
/-! The Hadamard matrix (O29): its entries by the doubling, the product, and the sums of its rows. -/

namespace Sys2Proof.Machine

/-! ### The entries by the doubling (R92) -/

theorem hadamardEntry_succ_of_lt {m j : Nat} (k : Nat) (h : j < 2 ^ m) :
    hadamardEntry (m + 1) k j = hadamardEntry m k j := by
  simp [hadamardEntry, onesCount_succ, Nat.testBit_lt_two_pow h]

/-- A column of the right half: negated in the rows of the lower half. -/
theorem hadamardEntry_succ_add {m j : Nat} (k : Nat) (h : j < 2 ^ m) :
    hadamardEntry (m + 1) k (2 ^ m + j) = (if k.testBit m then -1 else 1) * hadamardEntry m k j := by
  have hlow : onesCount m (k &&& (2 ^ m + j)) = onesCount m (k &&& j) :=
    onesCount_congr fun i hi => by rw [Nat.testBit_and, Nat.testBit_and, Nat.testBit_two_pow_add_gt hi]
  have htop : (k &&& (2 ^ m + j)).testBit m = k.testBit m := by
    rw [Nat.testBit_and, Nat.testBit_two_pow_add_eq, Nat.testBit_lt_two_pow h, Bool.not_false, Bool.and_true]
  rw [hadamardEntry, onesCount_succ, hlow, htop, pow_add, mul_comm]
  cases k.testBit m <;> rfl

/-- A row of the lower half repeats the entries of the row above it within a half. -/
theorem hadamardEntry_add (m k j : Nat) : hadamardEntry m (2 ^ m + k) j = hadamardEntry m k j := by
  have hlow : onesCount m ((2 ^ m + k) &&& j) = onesCount m (k &&& j) :=
    onesCount_congr fun i hi => by rw [Nat.testBit_and, Nat.testBit_and, Nat.testBit_two_pow_add_gt hi]
  rw [hadamardEntry, hlow, hadamardEntry]

/-- A sum along a row, by halves. -/
theorem sum_hadamardEntry_succ (m k : Nat) (v : Nat → Int) :
    ∑ j ∈ Finset.range (2 ^ (m + 1)), hadamardEntry (m + 1) k j * v j =
      ∑ j ∈ Finset.range (2 ^ m), hadamardEntry m k j * (v j + (if k.testBit m then -1 else 1) * v (2 ^ m + j)) := by
  rw [pow_succ, mul_two, Finset.sum_range_add, ← Finset.sum_add_distrib]
  refine Finset.sum_congr rfl fun j hj => ?_
  have hj := Finset.mem_range.mp hj
  rw [hadamardEntry_succ_of_lt k hj, hadamardEntry_succ_add k hj]
  ring

/-! ### The product -/

theorem getD_zipWith_halves {m j : Nat} {v : List Int} (hv : v.length = 2 ^ (m + 1)) (hj : j < 2 ^ m)
    (f : Int → Int → Int) :
    (List.zipWith f (v.take (2 ^ m)) (v.drop (2 ^ m))).getD j 0 = f (v.getD j 0) (v.getD (2 ^ m + j) 0) := by
  have hleft : j < v.length := by rw [hv, pow_succ]; omega
  have hright : 2 ^ m + j < v.length := by rw [hv, pow_succ]; omega
  simp [List.getD_eq_getElem?_getD, List.getElem?_zipWith, List.getElem?_drop, hj, hleft, hright]

theorem getD_hadamard {m : Nat} : ∀ {v : List Int}, v.length = 2 ^ m → ∀ {k : Nat}, k < 2 ^ m →
    (hadamard m v).getD k 0 = ∑ j ∈ Finset.range (2 ^ m), hadamardEntry m k j * v.getD j 0 := by
  induction m with
  | zero =>
    intro v _ k hk
    obtain rfl : k = 0 := by omega
    simp [hadamard, hadamardEntry, onesCount]
  | succ m ih =>
    intro v hv k hk
    have hhalf := fun f => length_hadamard (length_halves hv f)
    rw [sum_hadamardEntry_succ, hadamard]
    rcases Nat.lt_or_ge k (2 ^ m) with hlt | hge
    · rw [List.getD_append _ _ _ _ ((hhalf _).symm ▸ hlt), ih (length_halves hv _) hlt]
      refine Finset.sum_congr rfl fun j hj => ?_
      rw [getD_zipWith_halves hv (Finset.mem_range.mp hj), Nat.testBit_lt_two_pow hlt]
      simp
    · obtain ⟨k, rfl⟩ := Nat.exists_eq_add_of_le hge
      have hlt : k < 2 ^ m := by rw [pow_succ] at hk; omega
      rw [List.getD_append_right _ _ _ _ ((hhalf _).symm ▸ hge), hhalf, Nat.add_sub_cancel_left,
        ih (length_halves hv _) hlt]
      refine Finset.sum_congr rfl fun j hj => ?_
      rw [getD_zipWith_halves hv (Finset.mem_range.mp hj), hadamardEntry_add, Nat.testBit_two_pow_add_eq,
        Nat.testBit_lt_two_pow hlt]
      simp [sub_eq_add_neg]

/-- Settles O29: by induction on the doubling. -/
theorem hadamardProductHasItsEntries : Obligations.HadamardProductHasItsEntries := by
  unfold Obligations.HadamardProductHasItsEntries
  exact fun m v hv => ⟨length_hadamard hv, fun _ => getD_hadamard hv⟩

/-! ### The sums of the rows -/

/-- Every row but the first has as many entries -1 as +1. -/
theorem sum_hadamardEntry {m : Nat} : ∀ {k : Nat}, k < 2 ^ m →
    ∑ j ∈ Finset.range (2 ^ m), hadamardEntry m k j = if k = 0 then 2 ^ m else 0 := by
  induction m with
  | zero =>
    intro k hk
    obtain rfl : k = 0 := by omega
    rfl
  | succ m ih =>
    intro k hk
    have hhalves := sum_hadamardEntry_succ m k fun _ => 1
    simp only [mul_one] at hhalves
    rw [hhalves, ← Finset.sum_mul]
    rcases Nat.lt_or_ge k (2 ^ m) with hlt | hge
    · rw [ih hlt, Nat.testBit_lt_two_pow hlt, pow_succ]
      split <;> simp
    · obtain ⟨k, rfl⟩ := Nat.exists_eq_add_of_le hge
      have hlt : k < 2 ^ m := by rw [pow_succ] at hk; omega
      rw [Nat.testBit_two_pow_add_eq, Nat.testBit_lt_two_pow hlt]
      simp

end Sys2Proof.Machine
end

section
/-! Distances (O31, O32): how far a received block is from a repeated codeword, as a correlation, and how far two
codewords are from each other (R94). -/

namespace Sys2Proof.Machine

/-! ### Blocks of a string of equal blocks -/

theorem getD_blockAt {len q : Nat} (t : Nat) (x : List Byte) (h : q < len) :
    (blockAt len t x).getD q 0 = x.getD (t * len + q) 0 := by
  simp [blockAt, List.getD_eq_getElem?_getD, List.getElem?_drop, h]

/-- Block `t` of a concatenation of blocks of one length. -/
theorem blockAt_flatten {len : Nat} {L : List (List Byte)} (hL : ∀ l ∈ L, l.length = len) (t : Nat) :
    blockAt len t L.flatten = L.getD t [] := by
  induction L generalizing t with
  | nil => simp [blockAt]
  | cons l L ih =>
    have hl : l.length = len := hL l List.mem_cons_self
    cases t with
    | zero => simp [blockAt, ← hl]
    | succ t =>
      rw [List.getD_cons_succ, ← ih (fun l hl => hL l (List.mem_cons_of_mem _ hl)) t, blockAt, blockAt,
        List.flatten_cons, Nat.succ_mul, Nat.add_comm, ← List.drop_drop, List.drop_left' hl]

theorem blockAt_rmCopies {mult r : Nat} (b : Byte) (h : r < mult) : blockAt 16 r (rmCopies mult b) = rmBlock b := by
  rw [rmCopies, blockAt_flatten fun l hl => by rw [List.eq_of_mem_replicate hl, length_rmBlock]]
  simp [h]

/-- Block `t` of an encoding. -/
theorem blockAt_rmEncode (mult : Nat) {bs : List Byte} {t : Nat} (h : t < bs.length) :
    blockAt (mult * 16) t (rmEncode mult bs) = rmCopies mult bs[t] := by
  have hlen : ∀ l ∈ bs.map (rmCopies mult), l.length = mult * 16 := by simp
  rw [rmEncode, List.flatMap_def, blockAt_flatten hlen]
  simp [h]

/-- A column of copy `r` in a string of blocks, as the statements count columns on (R90). -/
theorem packedBit_add {j : Nat} (x : List Byte) (r : Nat) (h : j < 128) :
    packedBit x (128 * r + j) = packedBit (blockAt 16 r x) j := by
  rw [packedBit, packedBit, getD_blockAt r x (by omega : j / 8 < 16), show (128 * r + j) / 8 = r * 16 + j / 8 by omega,
    show (128 * r + j) % 8 = j % 8 by omega]

theorem packedBit_rmCopies {mult r j : Nat} (b : Byte) (hr : r < mult) (hj : j < 128) :
    packedBit (rmCopies mult b) (128 * r + j) = columnBit b j := by
  rw [packedBit_add _ r hj, blockAt_rmCopies b hr, packedBit_rmBlock b hj]

/-! ### Bits as signs -/

/-- A bit as a sign: `(-1)^p`. -/
def signOf (p : Bool) : Int := if p then -1 else 1

theorem signOf_xor (p q : Bool) : signOf (p ^^ q) = signOf p * signOf q := by cases p <;> cases q <;> rfl

theorem signOf_eq (p : Bool) : signOf p = 1 - 2 * if p then 1 else 0 := by cases p <;> rfl

theorem signOf_odd (n : Nat) : signOf (decide (n % 2 = 1)) = (-1) ^ n := by
  induction n with
  | zero => rfl
  | succ n ih => rw [decide_succ_odd, ← Bool.xor_true, signOf_xor, ih, pow_succ]; rfl

/-- A codeword as a signed row of the Hadamard matrix (R89, R92). -/
theorem signOf_columnBit (c : Byte) (j : Nat) :
    signOf (columnBit c j) = signOf (c.getLsbD 7) * hadamardEntry 7 (c.toNat % 128) j := by
  rw [columnBit, signOf_xor]
  exact congrArg _ (signOf_odd _)

/-- Only the bytes 0x00 and 0x80 give an unbalanced codeword. -/
theorem sum_signOf_columnBit (c : Byte) :
    ∑ j ∈ Finset.range 128, signOf (columnBit c j) =
      signOf (c.getLsbD 7) * if c.toNat % 128 = 0 then 128 else 0 := by
  simp only [signOf_columnBit, ← Finset.mul_sum]
  exact congrArg _ (sum_hadamardEntry (m := 7) (Nat.mod_lt _ (by decide)))

theorem getLsbD_seven (b : Byte) : b.getLsbD 7 = decide (b.toNat / 128 = 1) := by
  have hlt := b.isLt
  rw [BitVec.getLsbD, Nat.testBit_eq_decide_div_mod_eq, Nat.mod_eq_of_lt (by omega)]

/-- No codeword but the zero byte's has more columns 0 than 1. -/
theorem sum_signOf_columnBit_nonpos {a : Byte} (h : a ≠ 0) : ∑ j ∈ Finset.range 128, signOf (columnBit a j) ≤ 0 := by
  rw [sum_signOf_columnBit]
  split
  next hlow =>
    have hpos : a.toNat ≠ 0 := fun e => h (BitVec.eq_of_toNat_eq e)
    have hlt := a.isLt
    rw [getLsbD_seven, decide_eq_true (by omega : a.toNat / 128 = 1)]
    decide
  next => rw [mul_zero]

/-! ### The distance as a sum of signs -/

theorem two_mul_bitsDiffering (n : Nat) (x y : List Byte) :
    2 * (bitsDiffering n x y : Int) =
      n - ∑ i ∈ Finset.range n, signOf (packedBit x i) * signOf (packedBit y i) := by
  induction n with
  | zero => rfl
  | succ n ih =>
    have hsucc : (bitsDiffering (n + 1) x y : Int) =
        bitsDiffering n x y + if packedBit x n ^^ packedBit y n then 1 else 0 := by
      cases h : packedBit x n ^^ packedBit y n <;> simp [bitsDiffering, List.range_succ, h]
    have hsign := signOf_eq (packedBit x n ^^ packedBit y n)
    rw [signOf_xor] at hsign
    rw [Finset.sum_range_succ, hsucc, hsign]
    push_cast
    linarith

theorem sum_range_mul_blocks (len m : Nat) (f : Nat → Int) :
    ∑ i ∈ Finset.range (len * m), f i = ∑ r ∈ Finset.range m, ∑ j ∈ Finset.range len, f (len * r + j) := by
  induction m with
  | zero => rfl
  | succ m ih => rw [Nat.mul_succ, Finset.sum_range_add, ih, Finset.sum_range_succ]

/-- The distance from a repeated codeword, the copies summed up column by column. -/
theorem two_mul_bitsDiffering_rmCopies (mult : Nat) (x : List Byte) (c : Byte) :
    2 * (bitsDiffering (128 * mult) x (rmCopies mult c) : Int) =
      128 * mult - ∑ j ∈ Finset.range 128,
        (∑ r ∈ Finset.range mult, signOf (packedBit x (128 * r + j))) * signOf (columnBit c j) := by
  rw [two_mul_bitsDiffering, sum_range_mul_blocks, Finset.sum_comm]
  push_cast
  congr 1
  refine Finset.sum_congr rfl fun j hj => ?_
  rw [Finset.sum_mul]
  refine Finset.sum_congr rfl fun r hr => ?_
  rw [packedBit_rmCopies c (Finset.mem_range.mp hr) (Finset.mem_range.mp hj)]

/-! ### From a received block (R94) -/

theorem sum_signOf_packedBit (mult : Nat) (x : List Byte) (j : Nat) :
    ∑ r ∈ Finset.range mult, signOf (packedBit x (128 * r + j)) = mult - 2 * softSum mult x j := by
  simp only [signOf_eq, Finset.sum_sub_distrib, ← Finset.mul_sum]
  simp [softSum]

/-- R94: the distance from the repeated codeword of `c` is `64*MULT` plus or minus the correlation at `c`'s low bits. -/
theorem bitsDiffering_eq_correlation (mult : Nat) (x : List Byte) (c : Byte) :
    (bitsDiffering (128 * mult) x (rmCopies mult c) : Int) =
      64 * mult + signOf (c.getLsbD 7) * correlation mult x (c.toNat % 128) := by
  have hdist := two_mul_bitsDiffering_rmCopies mult x c
  have hrow : ∑ j ∈ Finset.range 128, ((mult : Int) - 2 * softSum mult x j) * signOf (columnBit c j) =
      mult * (signOf (c.getLsbD 7) * if c.toNat % 128 = 0 then 128 else 0) -
        2 * (signOf (c.getLsbD 7) * ∑ j ∈ Finset.range 128, hadamardEntry 7 (c.toNat % 128) j * softSum mult x j) := by
    rw [← sum_signOf_columnBit]
    simp only [sub_mul, Finset.sum_sub_distrib, Finset.mul_sum, signOf_columnBit]
    congr 1
    exact Finset.sum_congr rfl fun j _ => by ring
  simp only [sum_signOf_packedBit, hrow] at hdist
  rw [correlation]
  by_cases hk : c.toNat % 128 = 0 <;> simp only [hk, if_true, if_false] at hdist ⊢ <;> linarith

/-- R93's bound, since no distance is below 0 or above the length. -/
theorem natAbs_correlation_le {k : Nat} (mult : Nat) (x : List Byte) (h : k < 128) :
    (correlation mult x k).natAbs ≤ 64 * mult := by
  have hdist := bitsDiffering_eq_correlation mult x (BitVec.ofNat 8 k)
  have hle : bitsDiffering (128 * mult) x (rmCopies mult (BitVec.ofNat 8 k)) ≤ 128 * mult :=
    (List.length_filter_le _ _).trans_eq List.length_range
  have hbyte : (BitVec.ofNat 8 k).toNat % 128 = k ∧ (BitVec.ofNat 8 k).getLsbD 7 = false := by
    have hlt : k < 2 ^ 7 := h
    rw [BitVec.toNat_ofNat, BitVec.getLsbD_ofNat, Nat.testBit_lt_two_pow hlt]
    exact ⟨by omega, rfl⟩
  obtain ⟨hlow, hhigh⟩ := hbyte
  rw [hlow, hhigh, signOf, if_neg Bool.false_ne_true] at hdist
  omega

/-! ### Between two codewords (R88) -/

theorem bitsDiffering_eq_hammingDist (n : Nat) (x y : List Byte) :
    bitsDiffering n x y = hammingDist (fun i : Fin n => packedBit x i) fun i : Fin n => packedBit y i := by
  rw [bitsDiffering, length_filter_range, hammingDist, Finset.card_filter, Finset.card_filter, Finset.sum_range]
  simp

theorem bitsDiffering_self (n : Nat) (x : List Byte) : bitsDiffering n x x = 0 := by
  rw [bitsDiffering_eq_hammingDist, hammingDist_self]

theorem bitsDiffering_triangle_right (n : Nat) (x y z : List Byte) :
    bitsDiffering n x y ≤ bitsDiffering n z x + bitsDiffering n z y := by
  simp only [bitsDiffering_eq_hammingDist]
  exact hammingDist_triangle_left _ _ _

/-- R88: the repeated code has minimum distance `64 * MULT`. -/
theorem bitsDiffering_rmCopies_ge (mult : Nat) {b c : Byte} (h : b ≠ c) :
    64 * mult ≤ bitsDiffering (128 * mult) (rmCopies mult b) (rmCopies mult c) := by
  have hdist := two_mul_bitsDiffering_rmCopies mult (rmCopies mult b) c
  have hcols : ∑ j ∈ Finset.range 128,
      (∑ r ∈ Finset.range mult, signOf (packedBit (rmCopies mult b) (128 * r + j))) * signOf (columnBit c j) =
        mult * ∑ j ∈ Finset.range 128, signOf (columnBit (b ^^^ c) j) := by
    rw [Finset.mul_sum]
    refine Finset.sum_congr rfl fun j hj => ?_
    rw [Finset.sum_congr rfl fun r hr => by
      rw [packedBit_rmCopies b (Finset.mem_range.mp hr) (Finset.mem_range.mp hj)]]
    simp [columnBit_xor, signOf_xor, mul_assoc]
  have hweight := sum_signOf_columnBit_nonpos fun e => h (BitVec.xor_eq_zero_iff.mp e)
  have hnonpos := mul_nonpos_of_nonneg_of_nonpos (Int.natCast_nonneg mult) hweight
  rw [hcols] at hdist
  omega

end Sys2Proof.Machine
end

section
/-! The decoder (O30 to O33): the correlator's array as R93's sums, the scan for its peak, and from the distances that
the peak is a nearest codeword. -/

namespace Sys2Proof.Machine

/-! ### The correlation array (R93) -/

theorem blockBit_eq_packedBit (x : List Byte) (r j : Nat) :
    blockBit x r j = packedBit x (128 * r + j) := by
  rw [packedBit, show (128 * r + j) / 8 = 16 * r + j / 8 by omega, show (128 * r + j) % 8 = j % 8 by omega]
  rfl

theorem softCount_eq_softSum (mult : Nat) (x : List Byte) (j : Nat) :
    (softCount mult x j : Int) = softSum mult x j := by
  induction mult with
  | zero => rfl
  | succ mult ih =>
    have hcount : softCount (mult + 1) x j = softCount mult x j + (blockBit x mult j).toNat := by
      simp [softCount, List.range_succ]
    rw [hcount, softSum, Finset.sum_range_succ, ← softSum, ← ih, blockBit_eq_packedBit x mult j]
    cases packedBit x (128 * mult + j) <;> rfl

theorem getD_subtractFirst (c : Int) {t : List Int} {k : Nat} (h : k < t.length) :
    (subtractFirst c t).getD k 0 = t.getD k 0 - if k = 0 then c else 0 := by
  cases t with
  | nil => cases h
  | cons a t => cases k <;> simp [subtractFirst]

theorem length_correlate_softVector (mult : Nat) (x : List Byte) :
    (correlate mult (softVector mult x)).length = 128 := by
  have hlen : (hadamard 7 ((softVector mult x).map Int.ofNat)).length = 128 := length_hadamard (by simp)
  rw [correlate, ← hlen]
  cases hadamard 7 ((softVector mult x).map Int.ofNat) <;> rfl

/-- The correlator computes R93's T. -/
theorem getD_correlate_softVector {k : Nat} (mult : Nat) (x : List Byte) (h : k < 128) :
    (correlate mult (softVector mult x)).getD k 0 = correlation mult x k := by
  have hlen : ((softVector mult x).map Int.ofNat).length = 2 ^ 7 := by simp
  have hk : k < (hadamard 7 ((softVector mult x).map Int.ofNat)).length := by rw [length_hadamard hlen]; exact h
  rw [correlate, getD_subtractFirst _ hk, getD_hadamard hlen h, correlation]
  congr 1
  refine Finset.sum_congr rfl fun j hj => ?_
  have hj : j < 128 := Finset.mem_range.mp hj
  rw [← softCount_eq_softSum mult x j]
  simp [softVector, hj]

/-! ### The scan for the peak (R93, D27) -/

/-- The peak magnitude is the magnitude of an entry, and no entry exceeds it. -/
theorem peakMagnitude_spec {t : List Int} (h : t ≠ []) :
    (∃ a ∈ t, a.natAbs = peakMagnitude t) ∧ ∀ a ∈ t, a.natAbs ≤ peakMagnitude t := by
  have hmap : t.map Int.natAbs ≠ [] := by simpa using h
  obtain ⟨m, hm⟩ := Option.isSome_iff_exists.mp (List.isSome_max?_of_ne_nil hmap)
  have hpeak : peakMagnitude t = m := by
    rw [peakMagnitude, ← List.foldl_map (f := Int.natAbs) (g := max), List.foldl_max, hm, Option.getD_some,
      Nat.zero_max]
  obtain ⟨hmem, hle⟩ := List.max?_eq_some_iff.mp hm
  rw [hpeak]
  exact ⟨List.mem_map.mp hmem, fun a ha => hle _ (List.mem_map_of_mem ha)⟩

/-- The peak is the first entry of largest magnitude. -/
theorem peakIndex_spec {t : List Int} (h : t ≠ []) :
    peakIndex t < t.length ∧ (t.getD (peakIndex t) 0).natAbs = peakMagnitude t ∧
      ∀ i, i < peakIndex t → (t.getD i 0).natAbs < peakMagnitude t := by
  obtain ⟨⟨a, ha, hpeak⟩, hle⟩ := peakMagnitude_spec h
  have hlt : peakIndex t < t.length := List.findIdx_lt_length_of_exists ⟨a, ha, beq_iff_eq.mpr hpeak⟩
  refine ⟨hlt, ?_, fun i hi => ?_⟩
  · rw [List.getD_eq_getElem _ _ hlt]
    exact beq_iff_eq.mp (List.findIdx_getElem (w := hlt))
  · have hilt := hi.trans hlt
    have hne := ne_of_beq_false (List.not_of_lt_findIdx hi)
    rw [List.getD_eq_getElem _ _ hilt]
    exact (hle _ (List.getElem_mem hilt)).lt_of_ne hne

/-- The decoded byte: the peak's index in its low 7 bits, and bit 7 for a positive peak. -/
theorem peakByte_fields {t : List Int} (h : t.length = 128) :
    (peakByte t).toNat % 128 = peakIndex t ∧ ((peakByte t).toNat / 128 = 1 ↔ 0 < t.getD (peakIndex t) 0) := by
  obtain ⟨hlt, -⟩ := peakIndex_spec (List.ne_nil_of_length_pos (by omega : 0 < t.length))
  rw [peakByte, BitVec.toNat_ofNat]
  split
  next hpos => exact ⟨by omega, iff_of_true (by omega) hpos⟩
  next hpos => exact ⟨by omega, iff_of_false (by omega) hpos⟩

/-- Settles O30: the scan finds the peak of the array, whose entries are R93's T; the bound is that of the distances. -/
theorem blockDecodesToItsCorrelationPeak : Obligations.BlockDecodesToItsCorrelationPeak := by
  unfold Obligations.BlockDecodesToItsCorrelationPeak
  intro mult x _ k
  have hlen := length_correlate_softVector mult x
  have hentry := fun i => getD_correlate_softVector (k := i) mult x
  have hne : correlate mult (softVector mult x) ≠ [] := List.ne_nil_of_length_pos (by omega)
  obtain ⟨hlow, hsign⟩ := peakByte_fields hlen
  obtain ⟨hlt, hpeak, hbefore⟩ := peakIndex_spec hne
  obtain ⟨-, hle⟩ := peakMagnitude_spec hne
  have hk : k = peakIndex (correlate mult (softVector mult x)) := hlow
  rw [hlen, ← hk] at hlt
  rw [← hk, hentry k hlt] at hpeak hsign
  rw [← hk] at hbefore
  refine ⟨fun i hi => ⟨?_, natAbs_correlation_le mult x hi⟩, fun i hi => ?_, hsign⟩
  · rw [← hentry i hi, hpeak, List.getD_eq_getElem _ _ (hlen.symm ▸ hi)]
    exact hle _ (List.getElem_mem _)
  · rw [← hentry i (hi.trans hlt), hpeak]
    exact hbefore i hi

/-! ### Nearest codewords (R94) -/

/-- The decoded byte's codeword is as near as the peak is high. -/
theorem bitsDiffering_rmDecodeBlock {mult : Nat} {x : List Byte} (h : x.length = mult * 16) :
    (bitsDiffering (128 * mult) x (rmCopies mult (rmDecodeBlock mult x)) : Int) =
      64 * mult - |correlation mult x ((rmDecodeBlock mult x).toNat % 128)| := by
  obtain ⟨-, -, hsign⟩ := blockDecodesToItsCorrelationPeak mult x h
  rw [bitsDiffering_eq_correlation, getLsbD_seven, decide_eq_decide.mpr hsign, signOf]
  split
  next hpos => rw [abs_of_pos (of_decide_eq_true hpos)]; ring
  next hpos => rw [abs_of_nonpos (not_lt.mp fun hlt => hpos (decide_eq_true hlt))]; ring

theorem sub_abs_le_signOf_mul (p : Bool) (a : Int) : -|a| ≤ signOf p * a := by
  cases p
  · simpa [signOf] using neg_abs_le a
  · simpa [signOf] using le_abs_self a

/-- Settles O31: no correlation is higher than the peak. -/
theorem blockDecodesToANearestCodeword : Obligations.BlockDecodesToANearestCodeword := by
  unfold Obligations.BlockDecodesToANearestCodeword
  intro mult x c h
  obtain ⟨hpeak, -, -⟩ := blockDecodesToItsCorrelationPeak mult x h
  have hdecoded := bitsDiffering_rmDecodeBlock h
  have hc := bitsDiffering_eq_correlation mult x c
  have hsign := sub_abs_le_signOf_mul (c.getLsbD 7) (correlation mult x (c.toNat % 128))
  obtain ⟨hle, -⟩ := hpeak (c.toNat % 128) (Nat.mod_lt _ (by decide))
  rw [Int.abs_eq_natAbs] at hdecoded hsign
  omega

/-- Settles O32: two codewords this near to one block are too near to each other. -/
theorem blockErrorsBelowTheRadiusAreCorrected : Obligations.BlockErrorsBelowTheRadiusAreCorrected := by
  unfold Obligations.BlockErrorsBelowTheRadiusAreCorrected
  intro mult x b h hnear
  by_contra hne
  have hnearest := blockDecodesToANearestCodeword mult x b h
  have htriangle := bitsDiffering_triangle_right (128 * mult) (rmCopies mult (rmDecodeBlock mult x)) (rmCopies mult b) x
  have hapart := bitsDiffering_rmCopies_ge mult hne
  omega

/-- Settles O33: each block of the encoding decodes without a flipped bit. -/
theorem reedMullerRoundTrip : Obligations.ReedMullerRoundTrip := by
  unfold Obligations.ReedMullerRoundTrip
  intro mult bs hmult _
  have hblock : ∀ b, rmDecodeBlock mult (rmCopies mult b) = b := fun b =>
    blockErrorsBelowTheRadiusAreCorrected mult _ b (length_rmCopies mult b) (by rw [bitsDiffering_self]; omega)
  refine List.ext_getElem (length_rmDecode _ _ _) fun t _ ht => ?_
  simp only [rmDecode, List.getElem_map, List.getElem_range, blockAt_rmEncode mult ht, hblock]

end Sys2Proof.Machine
end

section
/-! RMENC and RMDEC (O34, O35): their range checks in the statements' words, and the bytes they store. -/

namespace Sys2Proof

theorem wordIs_rmenc : WordIs .rmenc 0x18000000 := wordIs_of_encode rfl

theorem wordIs_rmdec : WordIs .rmdec 0x19000000 := wordIs_of_encode rfl

end Sys2Proof

namespace Sys2Proof.Machine

/-! ### The range checks (R91, R95) -/

theorem codeLen_eq (s : State) : s.codeLen = s.cur.arg1.toNat * s.params.mult * 16 := (Nat.mul_assoc ..).symm

theorem rmRangesOk_iff (s : State) (srcLen dstLen : Nat) :
    s.rmRangesOk srcLen dstLen = true ↔
      s.src + srcLen ≤ s.params.bufBytes ∧ s.dst + dstLen ≤ s.params.bufBytes ∧
        (0 < s.count → s.src + srcLen ≤ s.dst ∨ s.dst + dstLen ≤ s.src) := by
  simp only [State.rmRangesOk, Params.inBuf, rangesMeet, Bool.and_eq_true, Bool.not_eq_true', Bool.and_eq_false_iff,
    decide_eq_true_eq, decide_eq_false_iff_not, and_assoc]
  omega

section Commands

variable {s : State}

/-! ### RMENC (R91) -/

theorem runRmenc_of_range (h : ¬s.rmRangesOk s.count s.codeLen = true) : s.runRmenc = s.fail .range := by
  simp [State.runRmenc, h]

theorem runRmenc_of_legal (h : s.rmRangesOk s.count s.codeLen = true) :
    s.runRmenc = ((s.noteLoad s.src s.count).storeBytes s.dst
      (rmEncode s.params.mult (s.loadBytes s.src s.count))).complete := by
  simp [State.runRmenc, h]

theorem length_rmEncode_loadBytes : (rmEncode s.params.mult (s.loadBytes s.src s.count)).length = s.codeLen := by
  rw [length_rmEncode, length_loadBytes]
  rfl

theorem wroteBuf_runRmenc (h : s.rmRangesOk s.count s.codeLen = true) : s.WroteBuf s.dst s.codeLen s.runRmenc := by
  rw [runRmenc_of_legal h, ← length_rmEncode_loadBytes]
  exact wroteBuf_storeBytes (m := s.noteLoad s.src s.count) s.dst _ rfl rfl rfl (sameControl_refl s) (sameErrors_refl s)

/-- Copy `r` of the block of byte `k`, in an encoding. -/
theorem getD_rmEncode {mult k r q : Nat} {bs : List Byte} (hk : k < bs.length) (hr : r < mult) (hq : q < 16) :
    (rmEncode mult bs).getD (k * (mult * 16) + (r * 16 + q)) 0 = (rmBlock bs[k]).getD q 0 := by
  rw [← getD_blockAt k _ (by omega), blockAt_rmEncode mult hk, ← getD_blockAt r _ hq, blockAt_rmCopies _ hr]

theorem read_runRmenc {k r q : Nat} (h : s.rmRangesOk s.count s.codeLen = true) (hk : k < s.count)
    (hr : r < s.params.mult) (hq : q < 16) :
    Memory.read s.runRmenc.buf (s.dst + k * s.params.mult * 16 + r * 16 + q) =
      some ((rmBlock (s.bufByte (s.src + k) k)).getD q 0) := by
  have hload : k < (s.loadBytes s.src s.count).length := by rwa [length_loadBytes]
  have hinside : k * (s.params.mult * 16) + (r * 16 + q) < s.codeLen :=
    calc k * (s.params.mult * 16) + (r * 16 + q) < k * (s.params.mult * 16) + s.params.mult * 16 := by omega
      _ = (k + 1) * (s.params.mult * 16) := (Nat.succ_mul ..).symm
      _ ≤ s.codeLen := Nat.mul_le_mul_right _ hk
  rw [show s.dst + k * s.params.mult * 16 + r * 16 + q = s.dst + (k * (s.params.mult * 16) + (r * 16 + q)) by ring,
    runRmenc_of_legal h, read_storeBytes_complete _ _ _ _ (by rwa [length_rmEncode_loadBytes]),
    getD_rmEncode hload hr hq]
  simp [State.loadBytes]

/-- RMENC has no working state of its own. -/
theorem runRmenc_frame : s.SameSampler s.runRmenc ∧ s.SameCode s.runRmenc ∧ s.runRmenc.mulAcc = s.mulAcc := by
  unfold State.runRmenc
  split <;> exact ⟨sameSampler_refl s, sameCode_refl s, rfl⟩

/-! ### RMDEC (R95) -/

theorem runRmdec_of_range (h : ¬s.rmRangesOk s.codeLen s.count = true) : s.runRmdec = s.fail .range := by
  simp [State.runRmdec, h]

theorem runRmdec_of_legal (h : s.rmRangesOk s.codeLen s.count = true) :
    s.runRmdec = (((s.noteLoad s.src s.codeLen).noteCorrelation s.count (s.loadBytes s.src s.codeLen)).storeBytes s.dst
      (rmDecode s.params.mult s.count (s.loadBytes s.src s.codeLen))).complete := by
  simp [State.runRmdec, h]

/-- What a legal RMDEC leaves of the state. -/
theorem runRmdec_frame (h : s.rmRangesOk s.codeLen s.count = true) :
    s.WroteBuf s.dst s.count s.runRmdec ∧ s.SameSampler s.runRmdec ∧ s.runRmdec.staging = s.staging ∧
      s.runRmdec.mulAcc = s.mulAcc := by
  obtain ⟨sv, t, hnote⟩ := noteCorrelation_eq (s.noteLoad s.src s.codeLen) s.count (s.loadBytes s.src s.codeLen)
  have hwrote := wroteBuf_storeBytes (m := { s.noteLoad s.src s.codeLen with soft := sv, corr := t }) s.dst
    (rmDecode s.params.mult s.count (s.loadBytes s.src s.codeLen)) rfl rfl rfl (sameControl_refl s) (sameErrors_refl s)
  rw [length_rmDecode] at hwrote
  rw [runRmdec_of_legal h, hnote]
  exact ⟨hwrote, sameSampler_refl s, rfl, rfl⟩

/-- A block of bytes given by their places. -/
theorem blockAt_map_range (B : Nat → Byte) {len cnt k : Nat} (h : k < cnt) :
    blockAt len k ((List.range (cnt * len)).map B) = (List.range len).map fun q => B (k * len + q) := by
  have hlen : (k + 1) * len ≤ cnt * len := Nat.mul_le_mul_right len h
  rw [Nat.succ_mul] at hlen
  refine List.ext_getElem ?_ fun q _ _ => by simp [blockAt]
  simp only [blockAt, List.length_take, List.length_drop, List.length_map, List.length_range]
  omega

theorem getD_rmDecode {mult cnt k : Nat} {x : List Byte} (h : k < cnt) :
    (rmDecode mult cnt x).getD k 0 = rmDecodeBlock mult (blockAt (mult * 16) k x) := by
  simp [rmDecode, h]

theorem holdsBytes_runRmdec (h : s.rmRangesOk s.codeLen s.count = true) :
    HoldsBytes s.runRmdec s.dst s.count fun k =>
      rmDecodeBlock s.params.mult ((List.range (s.params.mult * 16)).map fun q =>
        s.bufByte (s.src + (k * (s.params.mult * 16) + q)) (k * (s.params.mult * 16) + q)) := by
  intro k hk
  have hblock := blockAt_map_range (fun q => s.bufByte (s.src + q) q) (len := s.params.mult * 16) hk
  dsimp only
  rw [runRmdec_of_legal h, read_storeBytes_complete _ _ _ k (by rwa [length_rmDecode]), ← hblock]
  exact congrArg some (getD_rmDecode hk)

end Commands

/-- Settles O34: the range check, and each stored byte as a byte of a block. -/
theorem rmencEncodes : Obligations.RmencEncodes := by
  unfold Obligations.RmencEncodes
  intro s src cnt dst olen legal
  have holen : olen = s.codeLen := (codeLen_eq s).symm
  have hlegal : legal ↔ s.rmRangesOk s.count s.codeLen = true := by
    rw [rmRangesOk_iff, ← holen]
    rfl
  rw [hlegal, holen]
  refine ⟨wordIs_rmenc, fun hbad => ?_, fun hok => ?_⟩
  · refine ⟨_, rfl, ?_⟩
    rw [runRmenc_of_range hbad]
    exact ⟨endedWith_fail s .range, sameSampler_refl s, sameCode_refl s, rfl, rfl, rfl⟩
  · obtain ⟨hsampler, hcode, hmul⟩ := runRmenc_frame (s := s)
    exact ⟨_, readsAs_bufByte s s.src s.count, _, rfl, wroteBuf_runRmenc hok, hsampler, hcode, hmul,
      fun k r j hk hr hj => ⟨_, read_runRmenc hok hk hr (by omega), packedBit_rmBlock _ hj⟩⟩

/-- Settles O35: the range check, and each stored byte as the decoding of a block. -/
theorem rmdecDecodes : Obligations.RmdecDecodes := by
  unfold Obligations.RmdecDecodes
  intro s src cnt dst ilen legal
  have hilen : ilen = s.codeLen := (codeLen_eq s).symm
  have hlegal : legal ↔ s.rmRangesOk s.codeLen s.count = true := by
    rw [rmRangesOk_iff, ← hilen]
    rfl
  rw [hlegal, hilen]
  refine ⟨wordIs_rmdec, fun hbad => ?_, fun hok => ?_⟩
  · refine ⟨_, rfl, ?_⟩
    rw [runRmdec_of_range hbad]
    exact ⟨endedWith_fail s .range, sameSampler_refl s, sameCode_refl s, rfl, rfl, rfl⟩
  · obtain ⟨hwrote, hsampler, hstaging, hmul⟩ := runRmdec_frame hok
    exact ⟨_, readsAs_bufByte s s.src s.codeLen, _, rfl, hwrote, hsampler, hstaging, hmul, holdsBytes_runRmdec hok⟩

end Sys2Proof.Machine
end

section
/-! The turns of CCENC and CCDEC (O36, O37, O39, O40): what each phase's turn leads to, one equation per case, with the
bytes that cross the inner-codec port. -/

namespace Sys2Proof

theorem wordIs_ccenc (d : Reg) : WordIs (.ccenc d) (0x20000000 ||| d.val <<< 20) :=
  wordIs_of_fields .ccenc d 0 0 rfl (by simp [Opcode.byte])

theorem wordIs_ccdec (a : Reg) : WordIs (.ccdec a) (0x21000000 ||| a.val <<< 16) :=
  wordIs_of_fields .ccdec 0 a 0 rfl (by simp [Opcode.byte])

end Sys2Proof

namespace Sys2Proof.Machine

/-- A command that ends with an error leaves the working state and the recorded faults too. -/
theorem fail_frame (s : State) (e : ErrCode) :
    s.EndedWith e (s.fail e) ∧ s.SameSampler (s.fail e) ∧ s.SameCode (s.fail e) ∧ (s.fail e).mulAcc = s.mulAcc ∧
      s.SameUninit (s.fail e) :=
  ⟨endedWith_fail s e, sameSampler_refl s, sameCode_refl s, rfl, rfl, rfl⟩

/-- Asking the inner codec, from a state `m` that differs from `s` in working state only. -/
theorem waits_askCodec {s m : State} (f : Fsm) (staged : List Byte) (r : CodecRequest) (hp : m.polys = s.polys)
    (hw : m.polyWritten = s.polyWritten) (hb : m.buf = s.buf) (hc : s.SameControl m) (he : s.SameErrors m)
    (hbusy : m.busy = s.busy) (hdone : m.done = s.done) (hdraws : m.sampleDraws = s.sampleDraws) :
    s.Waits (m.askCodec f staged r) :=
  ⟨samePolys_of_eq hp hw, sameBuf_of_eq hb, hc, he, hbusy, hdone, hdraws⟩

theorem waits_enterRmEncode (s : State) (codeword : List Byte) : s.Waits (s.enterRmEncode codeword) :=
  ⟨samePolys_of_eq rfl rfl, sameBuf_of_eq rfl, sameControl_refl s, sameErrors_refl s, rfl, rfl, rfl⟩

section Turns

variable {s : State}

/-! ### CCENC (R101) -/

theorem runCcenc_of_range (d : Reg) (havail : s.params.ccAvail = true) (hstart : s.phase = .start)
    (h : s.params.bufBytes < s.src + s.params.ccK) : s.runCcenc d = s.fail .range := by
  simp [State.runCcenc, hstart, havail, Params.inBuf, h]

theorem runCcenc_of_inside (d : Reg) (havail : s.params.ccAvail = true) (hstart : s.phase = .start)
    (h : s.src + s.params.ccK ≤ s.params.bufBytes) :
    s.runCcenc d = (s.noteLoad s.src s.params.ccK).askCodec .ccInnerEnc (s.loadBytes s.src s.params.ccK)
      (.enc (s.loadBytes s.src s.params.ccK)) := by
  simp [State.runCcenc, hstart, havail, Params.inBuf, h]

theorem runCcenc_of_codeword (d : Reg) {I : List Byte} (hphase : s.phase = .codecGot (.ok I))
    (hlen : I.length = s.params.ccN1) : s.runCcenc d = s.enterRmEncode I := by
  simp [State.runCcenc, hphase, hlen]

theorem runCcenc_of_protocol (d : Reg) {ans : CodecAnswer} (hphase : s.phase = .codecGot ans)
    (hbad : ¬∃ I, ans = .ok I ∧ I.length = s.params.ccN1) : s.runCcenc d = s.fail .innerProtocol := by
  cases ans with
  | ok I =>
    have hlen : I.length ≠ s.params.ccN1 := fun h => hbad ⟨I, rfl, h⟩
    simp [State.runCcenc, hphase, hlen]
  | uncorrectable => simp [State.runCcenc, hphase]

theorem runCcenc_of_rmEncode (d : Reg) (hphase : s.phase = .rmEncode) :
    s.runCcenc d = (s.setPoly d (beValue (rmEncode s.params.mult s.stagedCodeword))).complete := by
  simp [State.runCcenc, hphase]

/-! ### CCDEC (R102) -/

theorem runCcdec_of_range (a : Reg) (havail : s.params.ccAvail = true) (hstart : s.phase = .start)
    (h : s.params.bufBytes < s.dst + s.params.ccK) : s.runCcdec a = s.fail .range := by
  simp [State.runCcdec, hstart, havail, Params.inBuf, h]

/-- The Reed-Muller decoding of the codeword in `P[a]` (R102). -/
def State.decodedCodeword (s : State) (a : Reg) : List Byte :=
  rmDecode s.params.mult s.params.ccN1 (codewordOf s.params (s.poly a))

theorem runCcdec_of_inside (a : Reg) (havail : s.params.ccAvail = true) (hstart : s.phase = .start)
    (h : s.dst + s.params.ccK ≤ s.params.bufBytes) :
    s.runCcdec a = ((s.notePoly a).noteCorrelation s.params.ccN1 (codewordOf s.params (s.poly a))).askCodec .ccInnerDec
      (s.decodedCodeword a) (.dec (s.decodedCodeword a)) := by
  simp [State.runCcdec, State.decodedCodeword, hstart, havail, Params.inBuf, h]

theorem runCcdec_of_uncorrectable (a : Reg) (hphase : s.phase = .codecGot .uncorrectable) :
    s.runCcdec a = s.fail .uncorrectable := by
  simp [State.runCcdec, hphase]

theorem runCcdec_of_protocol (a : Reg) {D : List Byte} (hphase : s.phase = .codecGot (.ok D))
    (hlen : D.length ≠ s.params.ccK) : s.runCcdec a = s.fail .innerProtocol := by
  simp [State.runCcdec, hphase, hlen]

theorem runCcdec_of_message (a : Reg) {D : List Byte} (hphase : s.phase = .codecGot (.ok D))
    (hlen : D.length = s.params.ccK) : s.runCcdec a = ((s.stage D).storeBytes s.dst D).complete := by
  simp [State.runCcdec, hphase, hlen]

/-- The first turn of CCDEC changes the correlator's working state and the staging, and asks. -/
theorem runCcdec_asks (a : Reg) (havail : s.params.ccAvail = true) (hstart : s.phase = .start)
    (h : s.dst + s.params.ccK ≤ s.params.bufBytes) :
    s.Waits (s.runCcdec a) ∧ (s.runCcdec a).fsm = .ccInnerDec ∧ s.SameSampler (s.runCcdec a) ∧
      (s.runCcdec a).mulAcc = s.mulAcc ∧ (s.runCcdec a).codecRequest = some (.dec (s.decodedCodeword a)) := by
  obtain ⟨sv, t, hnote⟩ := noteCorrelation_eq (s.notePoly a) s.params.ccN1 (codewordOf s.params (s.poly a))
  have hwaits := waits_askCodec (m := { s.notePoly a with soft := sv, corr := t }) .ccInnerDec (s.decodedCodeword a)
    (.dec (s.decodedCodeword a)) rfl rfl rfl (sameControl_refl s) (sameErrors_refl s) rfl rfl rfl
  rw [runCcdec_of_inside a havail hstart h, hnote]
  exact ⟨hwaits, rfl, sameSampler_refl s, rfl, rfl⟩

/-- What the inner decoder is asked for: each block's decoding, from the big-endian bytes of the register. -/
theorem decodedCodeword_eq (a : Reg) :
    s.decodedCodeword a = (List.range s.params.ccN1).map fun k =>
      rmDecodeBlock s.params.mult ((List.range (s.params.mult * 16)).map fun q =>
        BitVec.ofNat 8 (s.poly a % 2 ^ (8 * (s.params.ccN1 * s.params.mult * 16)) /
          256 ^ (s.params.ccN1 * s.params.mult * 16 - 1 - (k * (s.params.mult * 16) + q)))) := by
  rw [Nat.mul_assoc]
  exact List.map_congr_left fun k hk => congrArg _ (blockAt_map_range _ (List.mem_range.mp hk))

end Turns

/-- Settles O36: the range check, and the message as the bytes read. -/
theorem ccencAsksTheInnerEncoder : Obligations.CcencAsksTheInnerEncoder := by
  unfold Obligations.CcencAsksTheInnerEncoder
  intro d s havail hstart
  refine ⟨wordIs_ccenc d, fun hout => ⟨_, rfl, ?_⟩, fun hin =>
    ⟨_, readsAs_bufByte s s.src s.params.ccK, _, rfl, ?_⟩⟩
  · rw [runCcenc_of_range d havail hstart hout]
    exact fail_frame s .range
  · rw [runCcenc_of_inside d havail hstart hin]
    have hwaits := waits_askCodec (m := s.noteLoad s.src s.params.ccK) .ccInnerEnc (s.loadBytes s.src s.params.ccK)
      (.enc (s.loadBytes s.src s.params.ccK)) rfl rfl rfl (sameControl_refl s) (sameErrors_refl s) rfl rfl rfl
    exact ⟨hwaits, rfl, rfl, sameSampler_refl s, rfl, rfl, rfl⟩

/-- Settles O37: an inner codeword of the right length is staged, and every other answer is a protocol error. -/
theorem ccencChecksTheInnerAnswer : Obligations.CcencChecksTheInnerAnswer := by
  unfold Obligations.CcencChecksTheInnerAnswer
  intro d s ans hphase
  refine ⟨fun ⟨I, hans, hlen⟩ => ⟨_, rfl, ?_⟩, fun hbad => ⟨_, rfl, ?_⟩⟩
  · subst hans
    have hstaged : (s.enterRmEncode I).staging.take s.params.ccN1 = I := stagedCodeword_enterRmEncode s hlen
    rw [runCcenc_of_codeword d hphase hlen, hstaged]
    exact ⟨waits_enterRmEncode s I, rfl, rfl, rfl, sameSampler_refl s, rfl, rfl, rfl, rfl, rfl⟩
  · rw [runCcenc_of_protocol d hphase hbad]
    exact fail_frame s .innerProtocol

/-- Settles O39: the range check, and the decoded blocks as the request. -/
theorem ccdecAsksTheInnerDecoder : Obligations.CcdecAsksTheInnerDecoder := by
  unfold Obligations.CcdecAsksTheInnerDecoder
  intro a s havail hstart
  refine ⟨wordIs_ccdec a, fun hout => ⟨_, rfl, ?_⟩, fun hin => ⟨_, rfl, ?_⟩⟩
  · rw [runCcdec_of_range a havail hstart hout]
    exact fail_frame s .range
  · obtain ⟨hwaits, hfsm, hsampler, hmul, hrequest⟩ := runCcdec_asks a havail hstart hin
    exact ⟨hwaits, hfsm, hsampler, hmul, hrequest.trans (by rw [decodedCodeword_eq])⟩

/-- Settles O40: the decoder's answer as one of its three ends. -/
theorem ccdecStoresTheMessageOrReports : Obligations.CcdecStoresTheMessageOrReports := by
  unfold Obligations.CcdecStoresTheMessageOrReports
  intro a s ans hphase
  refine ⟨fun hans => ⟨_, rfl, ?_⟩, fun D hans => ⟨fun hlen => ⟨_, rfl, ?_⟩, fun hlen => ⟨_, rfl, ?_⟩⟩⟩ <;> subst hans
  · rw [runCcdec_of_uncorrectable a hphase]
    exact fail_frame s .uncorrectable
  · rw [runCcdec_of_protocol a hphase hlen]
    exact fail_frame s .innerProtocol
  · have hwrote := wroteBuf_storeBytes (m := s.stage D) s.dst D rfl rfl rfl (sameControl_refl s) (sameErrors_refl s)
    rw [runCcdec_of_message a hphase hlen, ← hlen]
    exact ⟨hwrote, fun k hk => read_storeBytes_complete _ _ _ k hk, sameSampler_refl s, rfl, rfl, rfl, rfl, rfl⟩

end Sys2Proof.Machine
end

section
/-! The concatenated codeword in a register (O38, O41): a number's coefficients as the columns of its big-endian bytes,
so that the blocks of a changed register are the codeword's blocks with the error's bits flipped. -/

namespace Sys2Proof.Machine

/-! ### Coefficients and columns (R47, R90) -/

/-- Column `i` of packed bytes is the coefficient of a big-endian number that has `i` columns above it. -/
theorem testBit_beValue {bs : List Byte} {i : Nat} (h : i < 8 * bs.length) :
    (beValue bs).testBit (8 * bs.length - 1 - i) = packedBit bs i := by
  induction bs generalizing i with
  | nil => cases h
  | cons b bs ih =>
    have hpow : (256 : Nat) ^ bs.length = 2 ^ (8 * bs.length) := (pow_mul 2 8 bs.length).symm
    have hlt := beValue_lt bs
    rw [List.length_cons] at h ⊢
    rw [hpow] at hlt
    rw [beValue_cons, hpow, Nat.mul_comm b.toNat, Nat.testBit_two_pow_mul_add _ hlt]
    rcases Nat.lt_or_ge i 8 with hfirst | hrest
    · rw [if_neg (by omega), packedBit, Nat.div_eq_of_lt hfirst, List.getD_cons_zero, Nat.mod_eq_of_lt hfirst,
        BitVec.getLsbD]
      congr 1
      omega
    · obtain ⟨i, rfl⟩ := Nat.exists_eq_add_of_le' hrest
      rw [if_pos (by omega), show 8 * (bs.length + 1) - 1 - (i + 8) = 8 * bs.length - 1 - i by omega, ih (by omega),
        packedBit, packedBit, Nat.add_div_right _ (by decide), List.getD_cons_succ, Nat.add_mod_right]

/-- Column `j` of copy `r` of the block of byte `k`, in an encoding. -/
theorem packedBit_rmEncode {mult k r j : Nat} {bs : List Byte} (hk : k < bs.length) (hr : r < mult) (hj : j < 128) :
    packedBit (rmEncode mult bs) ((k * mult + r) * 128 + j) = columnBit bs[k] j := by
  have hbyte : ((k * mult + r) * 128 + j) / 8 = k * (mult * 16) + (r * 16 + j / 8) := by
    rw [← Nat.mul_assoc]
    omega
  rw [packedBit, hbyte, getD_rmEncode hk hr (by omega), show ((k * mult + r) * 128 + j) % 8 = j % 8 by omega,
    ← packedBit, packedBit_rmBlock _ hj]

/-- The columns of `n` blocks of `mult` copies, counted on through them. -/
theorem column_lt_bits {n mult k r j : Nat} (hk : k < n) (hr : r < mult) (hj : j < 128) :
    (k * mult + r) * 128 + j < 8 * (n * mult * 16) := by
  have hcopy : k * mult + r < n * mult :=
    calc k * mult + r < k * mult + mult := by omega
      _ = (k + 1) * mult := (Nat.succ_mul ..).symm
      _ ≤ n * mult := Nat.mul_le_mul_right _ hk
  omega

/-- Settles O38: the codeword staged, as a number. -/
theorem ccencPlacesTheCodeword : Obligations.CcencPlacesTheCodeword := by
  unfold Obligations.CcencPlacesTheCodeword
  intro d s hphase hstaged
  have hlen : s.stagedCodeword.length = s.params.ccN1 := List.length_take_of_le hstaged
  have hbytes : (rmEncode s.params.mult s.stagedCodeword).length = s.params.ccN1 * s.params.mult * 16 := by
    rw [length_rmEncode, hlen, Nat.mul_assoc]
  have hwrote := wrotePoly_setPoly (m := s) d (beValue (rmEncode s.params.mult s.stagedCodeword)) rfl rfl rfl
    (sameControl_refl s) (sameErrors_refl s)
  rw [← runCcenc_of_rmEncode d hphase] at hwrote
  have hvalue : (s.runCcenc d).poly d = beValue (rmEncode s.params.mult s.stagedCodeword) := hwrote.1
  refine ⟨_, rfl, ?_⟩
  rw [hvalue, ← hbytes]
  refine ⟨hwrote, ?_, fun k r j hk hr hj => ?_, ?_⟩
  · rw [pow_mul]
    exact beValue_lt _
  · have hinside : (k * s.params.mult + r) * 128 + j < 8 * (rmEncode s.params.mult s.stagedCodeword).length :=
      hbytes ▸ column_lt_bits hk hr hj
    rw [testBit_beValue hinside, packedBit_rmEncode (hlen.symm ▸ hk) hr hj]
    simp [State.stagedCodeword, hk.trans_le hstaged]
  · rw [runCcenc_of_rmEncode d hphase]
    exact ⟨sameSampler_refl s, sameCode_refl s, rfl, rfl, rfl⟩

/-! ### Errors in a register (R104) -/

/-- The codeword's bytes have the columns of the number (R47, R102). -/
theorem packedBit_codewordOf {p : Params} {i : Nat} (v : Nat) (h : i < 8 * p.ccL) :
    packedBit (codewordOf p v) i = v.testBit (8 * p.ccL - 1 - i) := by
  have hlen : (codewordOf p v).length = p.ccL := length_beBytes _ _
  have hvalue : beValue (codewordOf p v) = v % 2 ^ (8 * p.ccL) := by
    rw [codewordOf, beValue_beBytes, show (256 : Nat) = 2 ^ 8 from rfl, ← pow_mul, Nat.mod_mod]
  have hbit := testBit_beValue (hlen.symm ▸ h)
  rw [← hbit, hlen, hvalue, Nat.testBit_mod_two_pow, decide_eq_true (by omega), Bool.true_and]

/-- A register that holds `bs` and is changed by `E` has the columns of `bs`, flipped where `E` has a coefficient. -/
theorem packedBit_codewordOf_xor {p : Params} {i : Nat} (v E : Nat) (h : i < 8 * p.ccL) :
    packedBit (codewordOf p (v ^^^ E)) i = (packedBit (codewordOf p v) i ^^ E.testBit (8 * p.ccL - 1 - i)) := by
  rw [packedBit_codewordOf _ h, packedBit_codewordOf _ h, Nat.testBit_xor]

theorem packedBit_blockAt {len j : Nat} (k : Nat) (x : List Byte) (h : j < 8 * len) :
    packedBit (blockAt len k x) j = packedBit x (8 * (k * len) + j) := by
  rw [packedBit, packedBit, getD_blockAt k x (by omega : j / 8 < len),
    show (8 * (k * len) + j) / 8 = k * len + j / 8 by omega, show (8 * (k * len) + j) % 8 = j % 8 by omega]

/-- The codeword's bits: the blocks before block `k`, those after it, and its own. -/
theorem bits_around_block {p : Params} {k : Nat} (hk : k < p.ccN1) :
    8 * p.ccL = 8 * (k * (p.mult * 16)) + 128 * p.mult * (p.ccN1 - 1 - k) + 128 * p.mult := by
  obtain ⟨later, hlater⟩ := Nat.exists_eq_add_of_lt hk
  rw [show p.ccN1 - 1 - k = later by omega, Params.ccL, Params.n2Bytes, rmBlockBytes, hlater]
  ring

theorem length_filter_range_reflect (n : Nat) (p : Nat → Bool) :
    ((List.range n).filter fun i => p (n - 1 - i)).length = ((List.range n).filter p).length := by
  simp only [length_filter_range, Finset.card_filter]
  exact Finset.sum_range_reflect (fun i => if p i = true then 1 else 0) n

/-- A block of the changed register differs from the block that was there in as many bits as its share of `E` has
ones. -/
theorem bitsDiffering_blockAt_codewordOf_xor {p : Params} {k : Nat} (v E : Nat) (hk : k < p.ccN1) :
    bitsDiffering (128 * p.mult) (blockAt (p.mult * 16) k (codewordOf p (v ^^^ E)))
        (blockAt (p.mult * 16) k (codewordOf p v)) =
      onesCount (128 * p.mult) (E / 2 ^ (128 * p.mult * (p.ccN1 - 1 - k))) := by
  rw [bitsDiffering, onesCount, ← length_filter_range_reflect _ (E / _).testBit]
  refine congrArg List.length (List.filter_congr fun j hj => ?_)
  have hj : j < 128 * p.mult := List.mem_range.mp hj
  have hbits := bits_around_block hk
  have hplace : 8 * p.ccL - 1 - (8 * (k * (p.mult * 16)) + j) =
      128 * p.mult - 1 - j + 128 * p.mult * (p.ccN1 - 1 - k) := by omega
  rw [packedBit_blockAt k _ (by omega), packedBit_blockAt k _ (by omega), packedBit_codewordOf_xor v E (by omega),
    hplace, Nat.testBit_div_two_pow]
  cases packedBit (codewordOf p v) (8 * (k * (p.mult * 16)) + j) <;> simp

theorem length_blockAt_codewordOf {p : Params} {k : Nat} (v : Nat) (hk : k < p.ccN1) :
    (blockAt (p.mult * 16) k (codewordOf p v)).length = p.mult * 16 :=
  (congrArg List.length (blockAt_map_range _ hk)).trans (by simp)

/-- `codewordOf` gives back the bytes whose value a register holds (R11, R102). -/
theorem codewordOf_beValue {p : Params} {bs : List Byte} (h : bs.length = p.ccL) : codewordOf p (beValue bs) = bs := by
  have hlt := beValue_lt bs
  rw [h, show (256 : Nat) = 2 ^ 8 from rfl, ← pow_mul] at hlt
  rw [codewordOf, Nat.mod_eq_of_lt hlt, ← h, beBytes_beValue]

theorem length_rmEncode_eq_ccL {p : Params} {I : List Byte} (h : I.length = p.ccN1) :
    (rmEncode p.mult I).length = p.ccL := by
  rw [length_rmEncode, h]
  rfl

/-- Settles O41: the block is as far from its byte's codeword as its share of the error has ones. -/
theorem concatenatedCodeCorrectsBlockErrors : Obligations.ConcatenatedCodeCorrectsBlockErrors := by
  unfold Obligations.ConcatenatedCodeCorrectsBlockErrors
  intro p I E k hI hk herrors
  have hdist := bitsDiffering_blockAt_codewordOf_xor (beValue (rmEncode p.mult I)) E hk
  rw [codewordOf_beValue (length_rmEncode_eq_ccL hI), blockAt_rmEncode p.mult (hI.symm ▸ hk)] at hdist
  rw [getD_rmDecode hk, List.getD_eq_getElem _ _ (hI.symm ▸ hk)]
  exact blockErrorsBelowTheRadiusAreCorrected p.mult _ _ (length_blockAt_codewordOf _ hk) (hdist ▸ herrors)

end Sys2Proof.Machine
end

section
/-! The round trip as a run (O42): issue, the first turn and the turns on the answer, for CCENC and then for CCDEC of
the register it wrote. Each part of the run says what the next one needs of the state it leads to. -/

namespace Sys2Proof.Machine

/-! ### Issue, answers of the inner codec, and runs in parts -/

/-- R106: a command that passes its issue checks is accepted. -/
theorem issue_of_accepted {s : State} {w : Word} {i : Instr} (hbusy : s.busy = false)
    (hdecode : decode s.params w = .ok i) (hnop : i ≠ .nop) (hweight : (s.latch w).weightTooBig i = false) :
    issue w s = .next ((s.latch w).accept i) := by
  simp [issue, hbusy, hdecode, hnop, hweight]

/-- The outstanding inner-codec request is answered (R99). -/
theorem step_of_codec {s : State} {rest : List Input} {r : CodecRequest} {ans : CodecAnswer}
    (h : s.Ready (.codec s.portReq ans) rest) (hphase : s.phase = .codecWait r) :
    step s = .next (({ s with inputs := rest } : State).setPhase (.codecGot ans)) := by
  obtain ⟨_, hrst, _⟩ := id h
  rw [step_of_ready h]
  simp [advance, hrst, State.answerCodec, State.codecRequest, hphase]

/-- A run whose first `m` steps are known. -/
theorem run_add_of_run {m : Nat} {s t : State} (h : Host.Core.run core m s = .next t) (k : Nat) :
    Host.Core.run core (k + m) s = Host.Core.run core k t := by
  induction m generalizing s with
  | zero => rw [← Host.Outcome.next.inj h]; rfl
  | succ m ih =>
    obtain ⟨u, hstep, hrun⟩ := (run_succ_eq_next_iff m s t).mp h
    exact (run_succ_of_step hstep (k + m)).trans (ih hrun)

/-- Where a run from `s` in the instance `p` of R8 stands at `t`: `n` port requests made, no error recorded since `s`,
`rst` not asserted, `rest` to come. -/
structure State.Along (s : State) (p : Params) (n : Nat) (rest : List Input) (t : State) : Prop where
  wf : p.wf = true
  params : t.params = p
  rst : t.rst = false
  portReq : t.portReq = n
  errors : s.SameErrors t
  inputs : t.inputs = rest

/-- What CCDEC decodes of a register that holds an encoding (R104). -/
theorem decodedCodeword_of_encoding {s : State} {a : Reg} {I : List Byte} (hwf : s.params.wf = true)
    (hI : I.length = s.params.ccN1) (hpoly : s.poly a = beValue (rmEncode s.params.mult I)) :
    s.decodedCodeword a = I := by
  obtain ⟨_, _, hmult, hle, _⟩ := (params_wf_iff s.params).mp hwf
  rw [State.decodedCodeword, hpoly, codewordOf_beValue (length_rmEncode_eq_ccL hI), ← hI]
  exact reedMullerRoundTrip _ I hmult hle

/-- What a read of BUF finds where `M` stands. -/
theorem loadBytes_of_holdsBytes {s : State} {a : Nat} {M : List Byte}
    (h : HoldsBytes s a M.length fun k => M.getD k 0) : s.loadBytes a M.length = M := by
  rw [loadBytes_of_written s h]
  exact List.ext_getElem (by simp) fun k _ hk => by simp [hk]

section Parts

variable {s t : State} {p : Params} {n : Nat} {rest : List Input}

theorem State.Along.ready {i : Input} (h : s.Along p n (i :: rest) t) : t.Ready i rest :=
  ⟨h.params ▸ h.wf, h.rst, h.inputs⟩

/-- The engine's turn with `i` running. -/
theorem State.Along.turn {i : Instr} (h : s.Along p n (.engine :: rest) t) (hruns : t.Runs i) :
    step t = .next (stepOf i { t with inputs := rest }) := by
  obtain ⟨hbusy, hdecode, _⟩ := hruns
  exact step_of_engine h.ready hbusy hdecode

/-! ### The steps of the run -/

/-- The CMD write of a command other than NOP and SAMPLE starts it, with the operands of ARG0 and ARG2. -/
theorem step_accepts {w : Word} {i : Instr} (h : s.Along p n (.host (cmdWrite p w) :: rest) t) (hbusy : t.busy = false)
    (hdecode : decode p w = .ok i) (hnop : i ≠ .nop) (hsample : i.opcode ≠ .sample) :
    ∃ u, step t = .next u ∧ s.Along p n rest u ∧ u.Runs i ∧ u.phase = .start ∧ u.src = t.arg0.toNat ∧
      u.dst = t.arg2.toNat ∧ u.buf = t.buf ∧ u.polys = t.polys := by
  obtain ⟨hwf, rfl, hrst, rfl, herrors, _⟩ := id h
  have hweight : ∀ m : State, m.weightTooBig i = false := fun m => by simp [State.weightTooBig, hsample]
  have hissue := issue_of_accepted (s := ({ t with inputs := rest } : State).okay 0) hbusy hdecode hnop (hweight _)
  exact ⟨_, (step_of_cmdWrite h.ready).trans hissue, ⟨hwf, rfl, hrst, rfl, herrors, rfl⟩,
    ⟨rfl, hdecode, hnop, hweight _⟩, rfl, rfl, rfl, rfl, rfl⟩

theorem step_writes_arg2 {v : Word} (h : s.Along p n (.host ⟨p.base + 0x30#32, .b32, .write v⟩ :: rest) t) :
    ∃ u, step t = .next u ∧ s.Along p n rest u ∧ u.busy = t.busy ∧ u.arg2 = v ∧ u.polys = t.polys := by
  obtain ⟨hwf, rfl, hrst, rfl, herrors, _⟩ := id h
  exact ⟨_, step_csr_write .arg2 h.ready, ⟨hwf, rfl, hrst, rfl, herrors, rfl⟩, rfl, rfl, rfl⟩

/-- The inner codec answers the running command. -/
theorem step_answers {i : Instr} {r : CodecRequest} {ans : CodecAnswer} (h : s.Along p n (.codec n ans :: rest) t)
    (hruns : t.Runs i) (hphase : t.phase = .codecWait r) :
    ∃ u, step t = .next u ∧ s.Along p n rest u ∧ u.Runs i ∧ u.phase = .codecGot ans ∧ u.dst = t.dst := by
  obtain ⟨hwf, rfl, hrst, rfl, herrors, _⟩ := id h
  exact ⟨_, step_of_codec h.ready hphase, ⟨hwf, rfl, hrst, rfl, herrors, rfl⟩, hruns, rfl, rfl⟩

theorem step_ccenc_asks {d : Reg} {M : List Byte} (h : s.Along p n (.engine :: rest) t) (havail : p.ccAvail = true)
    (hruns : t.Runs (.ccenc d)) (hstart : t.phase = .start) (hM : M.length = p.ccK)
    (hrange : t.src + p.ccK ≤ p.bufBytes) (hbytes : HoldsBytes t t.src p.ccK fun k => M.getD k 0) :
    ∃ u, step t = .next u ∧ s.Along p (n + 1) rest u ∧ u.Runs (.ccenc d) ∧ u.phase = .codecWait (.enc M) := by
  obtain ⟨hwf, rfl, hrst, rfl, herrors, _⟩ := id h
  have hload : t.loadBytes t.src t.params.ccK = M := by
    rw [← hM] at hbytes ⊢
    exact loadBytes_of_holdsBytes hbytes
  exact ⟨_, (h.turn hruns).trans (congrArg _ (runCcenc_of_inside d havail hstart hrange)),
    ⟨hwf, rfl, hrst, rfl, herrors, rfl⟩, hruns, congrArg (fun m => Phase.codecWait (.enc m)) hload⟩

theorem step_ccenc_stages {d : Reg} {I : List Byte} (h : s.Along p n (.engine :: rest) t) (hruns : t.Runs (.ccenc d))
    (hphase : t.phase = .codecGot (.ok I)) (hI : I.length = p.ccN1) :
    ∃ u, step t = .next u ∧ s.Along p n rest u ∧ u.Runs (.ccenc d) ∧ u.phase = .rmEncode ∧ u.stagedCodeword = I := by
  obtain ⟨hwf, rfl, hrst, rfl, herrors, _⟩ := id h
  exact ⟨_, (h.turn hruns).trans (congrArg _ (runCcenc_of_codeword d hphase hI)),
    ⟨hwf, rfl, hrst, rfl, herrors, rfl⟩, hruns, rfl, stagedCodeword_enterRmEncode t hI⟩

theorem step_ccenc_completes {d : Reg} (h : s.Along p n (.engine :: rest) t) (hruns : t.Runs (.ccenc d))
    (hphase : t.phase = .rmEncode) :
    ∃ u, step t = .next u ∧ s.Along p n rest u ∧ u.busy = false ∧
      u.poly d = beValue (rmEncode p.mult t.stagedCodeword) := by
  obtain ⟨hwf, rfl, hrst, rfl, herrors, _⟩ := id h
  exact ⟨_, (h.turn hruns).trans (congrArg _ (runCcenc_of_rmEncode d hphase)),
    ⟨hwf, rfl, hrst, rfl, herrors, rfl⟩, rfl, poly_setPoly_self _ d _⟩

theorem step_ccdec_asks {d : Reg} (h : s.Along p n (.engine :: rest) t) (havail : p.ccAvail = true)
    (hruns : t.Runs (.ccdec d)) (hstart : t.phase = .start) (hrange : t.dst + p.ccK ≤ p.bufBytes) :
    ∃ u, step t = .next u ∧ s.Along p (n + 1) rest u ∧ u.Runs (.ccdec d) ∧
      u.phase = .codecWait (.dec (t.decodedCodeword d)) ∧ u.dst = t.dst := by
  obtain ⟨hwf, rfl, hrst, rfl, herrors, _⟩ := id h
  obtain ⟨sv, c, hnote⟩ := noteCorrelation_eq (({ t with inputs := rest } : State).notePoly d) t.params.ccN1
    (codewordOf t.params (t.poly d))
  have hasks := runCcdec_of_inside (s := { t with inputs := rest }) d havail hstart hrange
  exact ⟨_, (h.turn hruns).trans (congrArg _ (hasks.trans (congrArg (State.askCodec · _ _ _) hnote))),
    ⟨hwf, rfl, hrst, rfl, herrors, rfl⟩, hruns, rfl, rfl⟩

theorem step_ccdec_stores {d : Reg} {D : List Byte} (h : s.Along p n (.engine :: rest) t) (hruns : t.Runs (.ccdec d))
    (hphase : t.phase = .codecGot (.ok D)) (hD : D.length = p.ccK) :
    ∃ u, step t = .next u ∧ s.Along p n rest u ∧ u.Completed ∧ HoldsBytes u t.dst p.ccK fun k => D.getD k 0 := by
  obtain ⟨hwf, rfl, hrst, rfl, herrors, _⟩ := id h
  exact ⟨_, (h.turn hruns).trans (congrArg _ (runCcdec_of_message d hphase hD)),
    ⟨hwf, rfl, hrst, rfl, herrors, rfl⟩, completed_complete _,
    fun k hk => read_storeBytes_complete _ _ _ k (hk.trans_eq hD.symm)⟩

/-! ### The two commands -/

/-- CCENC up to its request: the inner encoder is asked for the message at ARG0. -/
theorem run_ccenc_asks {d : Reg} {M : List Byte}
    (h : s.Along p n (.host (cmdWrite p (BitVec.ofNat 32 (0x20000000 ||| d.val <<< 20))) :: .engine :: rest) t)
    (havail : p.ccAvail = true) (hbusy : t.busy = false) (hM : M.length = p.ccK)
    (hrange : t.arg0.toNat + p.ccK ≤ p.bufBytes) (hbytes : HoldsBytes t t.arg0.toNat p.ccK fun k => M.getD k 0) :
    ∃ u, Host.Core.run core 2 t = .next u ∧ s.Along p (n + 1) rest u ∧ u.Runs (.ccenc d) ∧
      u.phase = .codecWait (.enc M) := by
  obtain ⟨_, hdecode⟩ := wordIs_ccenc d
  obtain ⟨u, hissue, halong, hruns, hstart, hsrc, _, hbuf, _⟩ :=
    step_accepts h hbusy (hdecode p havail) nofun nofun
  rw [← hsrc] at hrange hbytes
  obtain ⟨v, hturn, hasked⟩ := step_ccenc_asks halong havail hruns hstart hM hrange
    fun k hk => (congrArg (Memory.read · _) hbuf).trans (hbytes k hk)
  exact ⟨v, (run_succ_of_step hissue 1).trans (run_succ_of_step hturn 0), hasked⟩

/-- CCENC from its request on: the answer's encoding is put in the register. -/
theorem run_ccenc_encodes {d : Reg} {r : CodecRequest} {I : List Byte}
    (h : s.Along p n (.codec n (.ok I) :: .engine :: .engine :: rest) t) (hruns : t.Runs (.ccenc d))
    (hphase : t.phase = .codecWait r) (hI : I.length = p.ccN1) :
    ∃ u, Host.Core.run core 3 t = .next u ∧ s.Along p n rest u ∧ u.busy = false ∧
      u.poly d = beValue (rmEncode p.mult I) := by
  obtain ⟨u, hanswer, halong, hruns, hgot, _⟩ := step_answers h hruns hphase
  obtain ⟨v, hstage, halong, hruns, hencode, rfl⟩ := step_ccenc_stages halong hruns hgot hI
  obtain ⟨w, hcomplete, hencoded⟩ := step_ccenc_completes halong hruns hencode
  exact ⟨w, (run_succ_of_step hanswer 2).trans ((run_succ_of_step hstage 1).trans (run_succ_of_step hcomplete 0)),
    hencoded⟩

/-- CCDEC up to its request, the destination in ARG2 written first: the inner decoder is asked for the inner codeword
whose encoding the register holds. -/
theorem run_ccdec_asks {d : Reg} {dst : Word} {I : List Byte}
    (h : s.Along p n (.host ⟨p.base + 0x30#32, .b32, .write dst⟩ ::
      .host (cmdWrite p (BitVec.ofNat 32 (0x21000000 ||| d.val <<< 16))) :: .engine :: rest) t)
    (havail : p.ccAvail = true) (hbusy : t.busy = false) (hI : I.length = p.ccN1)
    (hpoly : t.poly d = beValue (rmEncode p.mult I)) (hrange : dst.toNat + p.ccK ≤ p.bufBytes) :
    ∃ u, Host.Core.run core 3 t = .next u ∧ s.Along p (n + 1) rest u ∧ u.Runs (.ccdec d) ∧
      u.phase = .codecWait (.dec I) ∧ u.dst = dst.toNat := by
  obtain ⟨_, hdecode⟩ := wordIs_ccdec d
  obtain ⟨u, hwrite, halong, hidle, harg, hpolys⟩ := step_writes_arg2 h
  obtain ⟨v, hissue, halong, hruns, hstart, _, hdst, _, hpolys'⟩ :=
    step_accepts halong (hidle.trans hbusy) (hdecode p havail) nofun nofun
  rw [harg] at hdst
  rw [← poly_congr (hpolys'.trans hpolys)] at hpoly
  obtain ⟨w, hturn, halong', hruns', hwaits, hdst'⟩ :=
    step_ccdec_asks halong havail hruns hstart (hdst.symm ▸ hrange)
  obtain ⟨hwf, rfl, _⟩ := halong
  rw [decodedCodeword_of_encoding hwf hI hpoly] at hwaits
  exact ⟨w, (run_succ_of_step hwrite 2).trans ((run_succ_of_step hissue 1).trans (run_succ_of_step hturn 0)), halong',
    hruns', hwaits, hdst'.trans hdst⟩

/-- CCDEC from its request on: the answer is stored. -/
theorem run_ccdec_stores {d : Reg} {r : CodecRequest} {D : List Byte}
    (h : s.Along p n (.codec n (.ok D) :: .engine :: rest) t) (hruns : t.Runs (.ccdec d))
    (hphase : t.phase = .codecWait r) (hD : D.length = p.ccK) :
    ∃ u, Host.Core.run core 2 t = .next u ∧ s.Along p n rest u ∧ u.Completed ∧
      HoldsBytes u t.dst p.ccK fun k => D.getD k 0 := by
  obtain ⟨u, hanswer, halong, hruns, hgot, hdst⟩ := step_answers h hruns hphase
  obtain ⟨v, hstore, hstored⟩ := step_ccdec_stores halong hruns hgot hD
  rw [hdst] at hstored
  exact ⟨v, (run_succ_of_step hanswer 1).trans (run_succ_of_step hstore 0), hstored⟩

end Parts

/-- Settles O42: the four parts of the run, one after the other. -/
theorem concatenatedRoundTrip : Obligations.ConcatenatedRoundTrip := by
  unfold Obligations.ConcatenatedRoundTrip
  intro s d dst M I rest hwf hrst havail hbusy hM hI hsrc hdst hbytes hin
  have hbegin : s.Along s.params s.portReq (roundTripSteps s.params (s.portReq + 1) d dst M I ++ rest) s :=
    ⟨hwf, rfl, hrst, rfl, sameErrors_refl s, hin⟩
  obtain ⟨t, hasks, halong, hruns, hphase⟩ := run_ccenc_asks hbegin havail hbusy hM hsrc hbytes
  obtain ⟨u, hencodes, halong, hidle, hpoly⟩ := run_ccenc_encodes halong hruns hphase hI
  obtain ⟨v, hasks', halong, hruns, hphase', hdst'⟩ := run_ccdec_asks halong havail hidle hI hpoly hdst
  obtain ⟨w, hstores, halong, hcompleted, hstored⟩ := run_ccdec_stores halong hruns hphase' hM
  have hrun : Host.Core.run core 8 s = .next v :=
    (run_add_of_run hasks 6).trans ((run_add_of_run hencodes 3).trans hasks')
  refine ⟨⟨t, hasks, ?_⟩, ⟨v, hrun, ?_⟩, w, (run_add_of_run hrun 2).trans hstores, halong.inputs, hcompleted,
    halong.errors, hdst' ▸ hstored⟩
  · simp [State.codecRequest, hphase]
  · simp [State.codecRequest, hphase']

end Sys2Proof.Machine
end

section
/-! Issue and the engine's turn (O6, O7, O8, O10), and the all-or-nothing rule (O11): the arms of a CMD write, each with
the answer of issue, and the frames of a command's step. -/

namespace Sys2Proof.Machine

/-! ### The arms of a CMD write (R106) -/

/-- Settles O6: issue asks for BUSY before it latches anything. -/
theorem commandWriteWhileBusyRecordsBusy : Obligations.CommandWriteWhileBusyRecordsBusy := by
  unfold Obligations.CommandWriteWhileBusyRecordsBusy
  intro s rest w h hbusy
  exact (step_of_cmdWrite h).trans (issue_of_busy hbusy)

/-- The state in which a CMD write issues its word: the write taken from what is to come and answered OKAY. -/
def State.issuing (s : State) (rest : List Input) : State := ({ s with inputs := rest } : State).okay 0

/-- SAMPLE's weight is the one weight that is checked (R81). -/
theorem weightTooBig_iff (s : State) (i : Instr) :
    s.weightTooBig i = true ↔ (∃ d, i = .sample d) ∧ s.params.n < s.count := by
  cases i <;> simp [State.weightTooBig, Instr.opcode]

/-- A word that is no command is rejected with the error decoding finds. -/
theorem issue_of_decodeError {s : State} {w : Word} {e : DecodeError} (hbusy : s.busy = false)
    (hdecode : decode s.params w = .error e) : issue w s = .next ((s.latch w).reject (decodeErrCode e) w) := by
  simp [issue, hbusy, hdecode]

theorem issue_of_weightTooBig {s : State} {w : Word} {i : Instr} (hbusy : s.busy = false)
    (hdecode : decode s.params w = .ok i) (hweight : (s.latch w).weightTooBig i = true) :
    issue w s = .next ((s.latch w).reject .illegalOperand w) := by
  simp [issue, hbusy, hdecode, hweight]

/-- What a rejection leaves, on the state the write came to. -/
theorem step_of_rejected {s : State} {rest : List Input} {w : Word} {code : ErrCode}
    (h : s.Ready (.host (cmdWrite s.params w)) rest)
    (hissue : issue w (s.issuing rest) = .next (((s.issuing rest).latch w).reject code w)) :
    step s = .next { s with
      inputs := rest, resp := some ⟨false, 0⟩, cur := ⟨w, s.arg0, s.arg1, s.arg2⟩
      err := true, errCode := code, errOpc := w.extractLsb' 24 8, done := true } := by
  refine (step_of_cmdWrite h).trans (hissue.trans ?_)
  simp only [State.reject, State.signalDone, State.recordError, State.latch, State.issuing, State.okay, opcField]

/-- Settles O7: the two errors of decoding and SAMPLE's weight check all end in the same rejection. -/
theorem rejectedWordRecordsItsErrorOnly : Obligations.RejectedWordRecordsItsErrorOnly := by
  unfold Obligations.RejectedWordRecordsItsErrorOnly
  intro s rest w h hbusy
  refine ⟨fun hdecode => ?_, fun hdecode => ?_, fun d hdecode hweight => ?_⟩
  · exact step_of_rejected h (issue_of_decodeError (s := s.issuing rest) hbusy hdecode)
  · exact step_of_rejected h (issue_of_decodeError (s := s.issuing rest) hbusy hdecode)
  · have htooBig := (weightTooBig_iff ((s.issuing rest).latch w) (.sample d)).mpr ⟨⟨d, rfl⟩, hweight⟩
    exact step_of_rejected h (issue_of_weightTooBig hbusy hdecode htooBig)

/-- Settles O8: with every check passed issue accepts, and each command's first state is the one R30 gives. -/
theorem acceptedCommandIsLatched : Obligations.AcceptedCommandIsLatched := by
  unfold Obligations.AcceptedCommandIsLatched
  intro s rest w i h hbusy hdecode hnop hfits
  have hweight : ((s.issuing rest).latch w).weightTooBig i = false := Bool.eq_false_of_not_eq_true fun htooBig => by
    obtain ⟨⟨d, hsample⟩, hlt⟩ := (weightTooBig_iff _ _).mp htooBig
    exact absurd (hfits d hsample) (Nat.not_le.mpr hlt)
  have hissue := issue_of_accepted (s := s.issuing rest) hbusy hdecode hnop hweight
  refine (step_of_cmdWrite h).trans (hissue.trans ?_)
  cases i <;> rfl

/-! ### The engine's turn (R109) -/

/-- Settles O10: the turn looks at BUSY and then at the latch. -/
theorem engineTurnRunsTheLatchedCommand : Obligations.EngineTurnRunsTheLatchedCommand := by
  unfold Obligations.EngineTurnRunsTheLatchedCommand
  intro s rest h
  refine ⟨fun i hbusy hdecode => ?_, fun hbusy => ?_⟩
  · rw [step_of_engine h hbusy hdecode, exec_eq_next]
  · obtain ⟨_, hrst, _⟩ := id h
    rw [step_of_ready h]
    simp [advance, engineTurn, hrst, hbusy]

/-! ### All or nothing (R107) -/

/-- Settles O11: a step that writes a destination completes the command without error. -/
theorem resultsAreWrittenOnlyByErrorFreeCompletion : Obligations.ResultsAreWrittenOnlyByErrorFreeCompletion := by
  unfold Obligations.ResultsAreWrittenOnlyByErrorFreeCompletion
  intro i s t h hchanged
  obtain rfl := (exec_next_iff s i t).mp h
  rcases stepOf_cases s i with ⟨hpolys, hbuf, _⟩ | ⟨_, _, _, _, _, _, _, _, herrors, hcompleted⟩ |
    ⟨_, _, _, _, herrors, hcompleted⟩
  · exact absurd ⟨hpolys, hbuf⟩ hchanged
  · exact ⟨hcompleted, herrors⟩
  · exact ⟨hcompleted, herrors⟩

end Sys2Proof.Machine
end

section
/-! Waiting and fairness (O43). At an outstanding request the running command's turn leaves the state as it is. An
engine that has a step keeps it through the other agents' steps, unless the command is aborted or `rst` is asserted; the
listed steps run out, and then the wait's bound does (log entry 17), so its turn comes up. -/

namespace Sys2Proof.Machine

/-! ### Waiting for a port (R83, R99, R130) -/

/-- A turn while a request is outstanding, of a command at a phase it can stand at (U6, U8). -/
theorem stepOf_of_outstanding {s : State} {i : Instr} (h : s.PhaseOk i)
    (hwait : s.drbgRequest.isSome = true ∨ s.codecRequest.isSome = true) : stepOf i s = s := by
  have hphase : (∃ k, s.phase = .drbgWait k) ∨ ∃ q, s.phase = .codecWait q :=
    hwait.imp (fun hd => (Option.isSome_iff_exists.mp hd).imp fun _ => phase_of_drbgRequest) phase_of_codecRequest
  rcases hphase with ⟨k, hk⟩ | ⟨q, hq⟩
  · cases i <;> simp only [State.PhaseOk, hk] at h
    simp only [stepOf, State.runSample, hk]
  · cases i <;> simp only [State.PhaseOk, hq] at h
    · simp only [stepOf, State.runCcenc, hq]
    · simp only [stepOf, State.runCcdec, hq]

theorem engineTurn_of_outstanding {s : State} (h : s.Inv)
    (hwait : s.drbgRequest.isSome = true ∨ s.codecRequest.isSome = true) : engineTurn s = .next s := by
  unfold engineTurn
  split
  next hbusy =>
    obtain ⟨i, hruns, hphase⟩ := runs_of_inv h hbusy
    rw [hruns.decode_eq]
    exact (exec_eq_next s i).trans (congrArg _ (stepOf_of_outstanding hphase hwait))
  · rfl

/-! ### The other agents' steps (R109) -/

/-- The running command stands where it stood, with the same steps to come and the same bound on its wait. -/
def State.SameTurn (s t : State) : Prop :=
  t.params = s.params ∧ t.cur = s.cur ∧ t.busy = s.busy ∧ t.rst = s.rst ∧ t.phase = s.phase ∧ t.inputs = s.inputs ∧
    t.patience = s.patience

theorem sameTurn_refl (s : State) : s.SameTurn s := ⟨rfl, rfl, rfl, rfl, rfl, rfl, rfl⟩

/-- An answer that leaves the running command where it stood, or aborts it, or asserts `rst`. -/
def PassesTurn (s : State) (o : Host.Outcome State Fault Refusal) : Prop :=
  ∃ t, o = .next t ∧ (t.busy = false ∨ t.rst = true ∨ s.SameTurn t)

theorem passesTurn_next {s t : State} (h : s.SameTurn t) : PassesTurn s (.next t) := ⟨t, rfl, .inr (.inr h)⟩

section Agents

variable {s : State}

/-- With a command running, only a soft reset among the CSR writes ends it. -/
theorem passesTurn_writeCsr (h : s.busy = true) (c : Csr) (v : Word) : PassesTurn s (writeCsr c v s) := by
  cases c
  case ctrl =>
    show PassesTurn s (.next (s.writeCtrl v))
    unfold State.writeCtrl
    split
    · exact ⟨_, rfl, .inl rfl⟩
    · exact passesTurn_next (sameTurn_refl s)
  case status =>
    show PassesTurn s (.next (s.writeStatus v))
    rw [writeStatus_eq]
    exact passesTurn_next (sameTurn_refl s)
  case cmd =>
    show PassesTurn s (issue v s)
    rw [issue_of_busy h]
    exact passesTurn_next (sameTurn_refl s)
  all_goals exact passesTurn_next (sameTurn_refl s)

theorem passesTurn_hostAccess (h : s.busy = true) (a : Access) : PassesTurn s (hostAccess a s) := by
  unfold hostAccess csrAccess
  split
  · split
    · exact passesTurn_next (sameTurn_refl s)
    · split
      · exact passesTurn_next (sameTurn_refl s)
      · exact passesTurn_writeCsr (s := s.okay 0) h _ _
  · have hrefused : s.bufAccess a.size a.kind (s.params.offsetOf a.addr - bufWindow) = s.slverr := by
      simp [State.bufAccess, State.bufAdmits, h]
    rw [hrefused]
    exact passesTurn_next (sameTurn_refl s)

/-- No agent but the engine changes where an engine that has a step stands, but for an abort or `rst`. -/
theorem passesTurn_advance (h : s.engineEnabled = true) {i : Input} (hi : i ≠ .engine) : PassesTurn s (advance i s) := by
  obtain ⟨hbusy, hrst, hdrbg, hcodec⟩ := (engineEnabled_iff s).mp h
  cases i with
  | engine => exact absurd rfl hi
  | host a => simpa [advance, hrst] using passesTurn_hostAccess hbusy a
  | drbg r bs => simpa [advance, hrst, State.answerDrbg, hdrbg] using passesTurn_next (sameTurn_refl s)
  | codec r ans => simpa [advance, hrst, State.answerCodec, hcodec] using passesTurn_next (sameTurn_refl s)
  | rst b =>
    cases b with
    | true => exact ⟨_, rfl, .inr (.inl rfl)⟩
    | false => simpa [advance, State.driveRst, hrst] using passesTurn_next (sameTurn_refl s)

end Agents

/-! ### The engine's turn comes up (R109) -/

/-- In the instance `p` of R8 the command latched as `c` has a step to take. -/
structure State.HasTurn (s : State) (p : Params) (c : Latch) : Prop where
  wf : p.wf = true
  params : s.params = p
  cur : s.cur = c
  enabled : s.engineEnabled = true

/-- The run from `s` comes to the engine's turn on the command latched as `c`, unless the command is aborted or `rst` is
asserted first. -/
def State.TurnComes (s : State) (p : Params) (c : Latch) : Prop :=
  ∃ (j : Nat) (u : State), Host.Core.run core j s = .next u ∧
    (u.busy = false ∨ u.rst = true ∨ (u.nextInput = .engine ∧ u.HasTurn p c))

section Turn

variable {s t : State} {p : Params} {c : Latch}

theorem State.HasTurn.of_sameTurn (h : s.HasTurn p c) (hsame : s.SameTurn t) : t.HasTurn p c := by
  obtain ⟨hparams, hcur, hbusy, hrst, hphase, _⟩ := hsame
  refine ⟨h.wf, hparams.trans h.params, hcur.trans h.cur, ?_⟩
  rw [← h.enabled]
  simp only [State.engineEnabled, State.drbgRequest, State.codecRequest, hbusy, hrst, hphase]

theorem State.HasTurn.dropInput (h : s.HasTurn p c) : s.dropInput.HasTurn p c := by
  unfold State.dropInput
  split
  · exact ⟨h.wf, h.params, h.cur, h.enabled⟩
  · exact ⟨h.wf, h.params, h.cur, h.enabled⟩

theorem turnComes_of_step (hstep : step s = .next t) (h : t.TurnComes p c) : s.TurnComes p c := by
  obtain ⟨j, u, hrun, hends⟩ := h
  exact ⟨j + 1, u, (run_succ_of_step hstep j).trans hrun, hends⟩

/-- One step of the wait: it is over, or another agent's step has been taken from what is to come. -/
theorem turnComes_of_passed (h : s.HasTurn p c)
    (hnext : s.nextInput ≠ .engine → ∀ t : State, t.HasTurn p c → t.inputs = s.dropInput.inputs →
      t.patience = s.dropInput.patience → t.TurnComes p c) : s.TurnComes p c := by
  by_cases hengine : s.nextInput = .engine
  · exact ⟨0, s, rfl, .inr (.inr ⟨hengine, h⟩)⟩
  · obtain ⟨t, hanswer, hends⟩ := passesTurn_advance h.dropInput.enabled hengine
    have hstep : step s = .next t := (if_pos (h.params ▸ h.wf)).trans hanswer
    rcases hends with hidle | hrst | hsame
    · exact turnComes_of_step hstep ⟨0, t, rfl, .inl hidle⟩
    · exact turnComes_of_step hstep ⟨0, t, rfl, .inr (.inl hrst)⟩
    · obtain ⟨_, _, _, _, _, hinputs, hpatience⟩ := id hsame
      exact turnComes_of_step hstep (hnext hengine t (h.dropInput.of_sameTurn hsame) hinputs hpatience)

/-- A free step that passes the engine over. -/
theorem turnComes_of_free (h : s.HasTurn p c) (hnil : s.inputs = [])
    (hnext : s.freeStep ≠ .engine → ∀ t : State, t.HasTurn p c → t.inputs = [] → t.patience = s.nextPatience →
      t.TurnComes p c) : s.TurnComes p c := by
  refine turnComes_of_passed h fun hengine t ht hinputs hpatience => ?_
  rw [nextInput_of_nil hnil] at hengine
  rw [dropInput_of_nil hnil] at hinputs hpatience
  exact hnext hengine t ht (hinputs.trans hnil) hpatience

/-- Free steps pass the engine over at most as often as the wait's bound allows. -/
theorem turnComes_of_patience {k : Nat} (h : s.HasTurn p c) (hnil : s.inputs = []) (hpatience : s.patience = some k) :
    s.TurnComes p c := by
  induction k generalizing s with
  | zero =>
    exact turnComes_of_free h hnil fun hpassed => absurd (freeStep_of_patience_zero h.enabled hpatience) hpassed
  | succ k ih =>
    refine turnComes_of_free h hnil fun hpassed t ht hinputs hleft => ih ht hinputs (hleft.trans ?_)
    obtain ⟨hnone, _⟩ | ⟨m, hsome, hless⟩ := nextPatience_of_passed_over h.enabled hpassed
    · rw [hpatience] at hnone; cases hnone
    · rw [hpatience] at hsome
      rw [hless, Nat.succ.inj (Option.some.inj hsome)]

/-- With no steps listed the wait begins, if it has not begun, and its bound is used up. -/
theorem turnComes_of_nil (h : s.HasTurn p c) (hnil : s.inputs = []) : s.TurnComes p c := by
  cases hpatience : s.patience with
  | some k => exact turnComes_of_patience h hnil hpatience
  | none =>
    refine turnComes_of_free h hnil fun hpassed t ht hinputs hleft => ?_
    obtain ⟨_, hbegun⟩ | ⟨m, hsome, _⟩ := nextPatience_of_passed_over h.enabled hpassed
    · exact turnComes_of_patience ht hinputs (hleft.trans hbegun)
    · rw [hpatience] at hsome; cases hsome

/-- R109's weak fairness: the listed steps run out, one in each step. -/
theorem State.HasTurn.turnComes (h : s.HasTurn p c) : s.TurnComes p c := by
  generalize hlisted : s.inputs = listed
  induction listed generalizing s with
  | nil => exact turnComes_of_nil h hlisted
  | cons i rest ih =>
    obtain ⟨_, hrst, _⟩ := (engineEnabled_iff s).mp h.enabled
    refine turnComes_of_passed h fun _ t ht hinputs _ => ih ht (hinputs.trans ?_)
    simp [State.dropInput, hrst, hlisted, firstEnabled]

end Turn

/-! ### The commands without port exchanges -/

/-- A command that asks no port for anything. -/
def PortFree (i : Instr) : Prop := (∀ d, i ≠ .sample d) ∧ (∀ d, i ≠ .ccenc d) ∧ ∀ a, i ≠ .ccdec a

/-- It stands at its start until it ends. -/
theorem phase_of_portFree {s : State} {i : Instr} (hi : PortFree i) (h : s.PhaseOk i) : s.phase = .start := by
  obtain ⟨hsample, hccenc, hccdec⟩ := hi
  cases i with
  | sample d => exact absurd rfl (hsample d)
  | ccenc d => exact absurd rfl (hccenc d)
  | ccdec a => exact absurd rfl (hccdec a)
  | nop | pzero | pmov | pxor | pmul | loadp | storep | rmenc | rmdec =>
    cases hphase : s.phase <;> simp only [State.PhaseOk, hphase] at h ⊢

/-- Its one turn completes it, with or without an error (R108). -/
theorem busy_stepOf_of_portFree {s : State} {i : Instr} (hi : PortFree i) (hnop : i ≠ .nop) :
    (stepOf i s).busy = false := by
  obtain ⟨hsample, hccenc, hccdec⟩ := hi
  cases i with
  | nop => exact absurd rfl hnop
  | sample d => exact absurd rfl (hsample d)
  | ccenc d => exact absurd rfl (hccenc d)
  | ccdec a => exact absurd rfl (hccdec a)
  | pzero | pmov | pxor | pmul => rfl
  | loadp d => simp only [stepOf, State.runLoadp]; (repeat' split) <;> rfl
  | storep a => simp only [stepOf, State.runStorep]; split <;> rfl
  | rmenc => simp only [stepOf, State.runRmenc]; split <;> rfl
  | rmdec => simp only [stepOf, State.runRmdec]; split <;> rfl

/-- The engine's turn, when it comes up. -/
theorem step_of_turn {s : State} {p : Params} {c : Latch} {i : Instr} (h : s.HasTurn p c) (hnext : s.nextInput = .engine)
    (hdecode : decode p c.word = .ok i) : step s = .next (stepOf i s.dropInput) := by
  obtain ⟨hwf, _, hcur, henabled⟩ := h.dropInput
  obtain ⟨hbusy, hrst, _⟩ := (engineEnabled_iff _).mp henabled
  have hstep : step s = advance .engine s.dropInput := hnext ▸ if_pos (h.params ▸ hwf)
  rw [hstep, ← exec_eq_next]
  simp [advance, engineTurn, hrst, hbusy, h.params, hcur, hdecode]

/-- Settles O43: a waiting turn changes nothing; the turn comes up as the listed steps and then the wait's bound run out;
and the one turn of a command without port exchanges ends it. -/
theorem engineWaitsForOutstandingRequests : Obligations.EngineWaitsForOutstandingRequests := by
  unfold Obligations.EngineWaitsForOutstandingRequests
  refine ⟨fun s rest hinv hready hwait => ?_, fun s hwf hbusy hrst hdrbg hcodec => ?_,
    fun s i hinv hbusy hrst hdecode hsample hccenc hccdec => ?_⟩
  · obtain ⟨_, hrst, _⟩ := id hready
    rw [step_of_ready hready]
    have hturn := engineTurn_of_outstanding (s := { s with inputs := rest }) hinv hwait
    simpa [advance, hrst] using hturn
  · have hturn : s.HasTurn s.params s.cur := ⟨hwf, rfl, rfl, (engineEnabled_iff s).mpr ⟨hbusy, hrst, hdrbg, hcodec⟩⟩
    obtain ⟨j, u, hrun, hends⟩ := hturn.turnComes
    refine ⟨j, u, hrun, hends.imp_right (Or.imp_right fun ⟨hnext, hturn'⟩ => ?_)⟩
    obtain ⟨_, hrst', hdrbg', hcodec'⟩ := (engineEnabled_iff u).mp hturn'.enabled
    exact ⟨hnext, hrst', hdrbg', hcodec', hturn'.cur⟩
  · have hfree : PortFree i := ⟨hsample, hccenc, hccdec⟩
    obtain ⟨i', ⟨_, hdecode', hnop, _⟩, hphase⟩ := runs_of_inv hinv hbusy
    obtain rfl := Except.ok.inj (hdecode.symm.trans hdecode')
    have hstart := phase_of_portFree hfree hphase
    have hturn : s.HasTurn s.params s.cur := ⟨wf_of_inv hinv, rfl, rfl, by
      simp [engineEnabled_iff, hbusy, hrst, State.drbgRequest, State.codecRequest, hstart]⟩
    obtain ⟨j, u, hrun, hidle | hasserted | ⟨hnext, hturn'⟩⟩ := hturn.turnComes
    · exact ⟨j, u, hrun, .inl hidle⟩
    · exact ⟨j, u, hrun, .inr hasserted⟩
    · have hlast := run_succ_of_step (step_of_turn hturn' hnext hdecode) 0
      exact ⟨1 + j, _, (run_add_of_run hrun 1).trans hlast, .inl (busy_stepOf_of_portFree hfree hnop)⟩

end Sys2Proof.Machine
end

section
/-! Soft reset and `rst` (O54, O56): what the abort of a command spoils, the CSRs a soft reset leaves, and the step of a
machine held in reset. -/

namespace Sys2Proof.Machine

/-! ### The abort (R128) -/

/-- The frame of the abort of `i`: its register takes some value of a register's width, its BUF range takes some bytes,
and every other register and byte is as it was. -/
def State.SpoilsOnly (s : State) (i : Instr) (t : State) : Prop :=
  (∀ j : Reg, destReg i ≠ some j → t.poly j = s.poly j ∧ t.polyWritten.get j = s.polyWritten.get j) ∧
    (∀ d : Reg, destReg i = some d → t.poly d < 2 ^ s.params.n) ∧ s.SameBufOutside s.destAddr (s.destLen i) t

section Abort

variable (s : State)

theorem poly_drawPoly_lt (d : Reg) : (s.drawPoly d).poly d < 2 ^ s.params.n := by
  have hdrawn : (s.drawPoly d).poly d = Config.freeValue s.freeCtr % 2 ^ s.params.n := poly_setPoly_self s d _
  rw [hdrawn]
  exact Nat.mod_lt _ (Nat.two_pow_pos _)

theorem samePolysBut_drawPoly (d : Reg) : s.SamePolysBut d (s.drawPoly d) := by
  intro j hj
  have hwritten := written_setPoly s d j (Config.freeValue s.freeCtr % 2 ^ s.params.n)
  rw [if_neg hj] at hwritten
  exact ⟨poly_setPoly_of_ne s _ hj, hwritten⟩

theorem sameBufOutside_drawRange (a len : Nat) : s.SameBufOutside a len (s.drawRange a len) := by
  intro x hx
  have hlen : (freeBytes s.freeCtr len).length = len := by simp [freeBytes]
  exact read_writeBytes_outside s.buf _ (by rwa [hlen])

theorem spoilsOnly_drawPoly {i : Instr} {d : Reg} (h : destReg i = some d) : s.SpoilsOnly i (s.drawPoly d) := by
  refine ⟨fun j hj => samePolysBut_drawPoly s d j fun e => hj (e ▸ h), fun e he => ?_, fun _ _ => rfl⟩
  obtain rfl := Option.some.inj (h.symm.trans he)
  exact poly_drawPoly_lt s d

/-- A command without a destination register: its BUF range at most is spoiled, and only where its range checks pass. -/
theorem spoilsOnly_drawRange {i : Instr} (h : destReg i = none) (c : Bool) :
    s.SpoilsOnly i (if c then s.drawRange s.dst (s.destLen i) else s) := by
  refine ⟨fun j _ => ?_, fun d hd => by simp [h] at hd, ?_⟩
  · split
    · exact ⟨rfl, rfl⟩
    · exact ⟨rfl, rfl⟩
  · split
    · exact sameBufOutside_drawRange s _ _
    · exact fun _ _ => rfl

theorem spoilsOnly_spoilDestination (i : Instr) : s.SpoilsOnly i (s.spoilDestination i) := by
  cases i with
  | nop => exact spoilsOnly_drawRange s rfl false
  | pzero d | pmov d | pxor d | pmul d | sample d | loadp d | ccenc d => exact spoilsOnly_drawPoly s rfl
  | storep a => exact spoilsOnly_drawRange s rfl _
  | rmenc =>
    have hlen : s.codeLen = s.destLen .rmenc := codeLen_eq s
    simp only [State.spoilDestination]
    rw [hlen]
    exact spoilsOnly_drawRange s rfl _
  | rmdec => exact spoilsOnly_drawRange s rfl _
  | ccdec a => exact spoilsOnly_drawRange s rfl _

theorem abort_of_running {i : Instr} (hbusy : s.busy = true) (hdecode : decode s.params s.cur.word = .ok i) :
    s.abort = s.spoilDestination i := by
  simp [State.abort, hbusy, hdecode]

end Abort

/-! ### Soft reset (R127) -/

theorem writeCtrl_of_srst {s : State} {v : Word} (h : v.getLsbD 0 = true) : s.writeCtrl v = s.softReset := if_pos h

/-- With no command running a soft reset keeps the registers and BUF. -/
theorem softReset_keeps_of_idle {s : State} (h : s.busy = false) :
    s.SamePolys s.softReset ∧ s.SameBuf s.softReset := by
  unfold State.softReset
  rw [abort_of_idle h]
  exact ⟨samePolys_of_eq rfl rfl, sameBuf_of_eq rfl⟩

theorem spoilsOnly_softReset {s : State} {i : Instr} (hbusy : s.busy = true)
    (hdecode : decode s.params s.cur.word = .ok i) : s.SpoilsOnly i s.softReset := by
  unfold State.softReset
  rw [abort_of_running s hbusy hdecode]
  exact spoilsOnly_spoilDestination s i

/-- Settles O54: the CSRs as the reset writes them, and the registers and BUF as the abort leaves them. -/
theorem softResetResetsTheCsrs : Obligations.SoftResetResetsTheCsrs := by
  unfold Obligations.SoftResetResetsTheCsrs
  intro s rest v h hsrst
  have hstep : step s = .next (s.issuing rest).softReset :=
    (step_csr_write .ctrl h).trans (congrArg Host.Outcome.next (writeCtrl_of_srst hsrst))
  exact ⟨_, hstep, rfl, rfl, rfl, rfl, rfl, rfl, rfl, rfl, rfl, rfl, rfl, rfl, rfl, rfl,
    softReset_params (s.issuing rest), rfl, rfl, softReset_keeps_of_idle (s := s.issuing rest),
    fun _ => spoilsOnly_softReset (s := s.issuing rest)⟩

/-! ### The machine held in reset (R129, U16) -/

/-- While `rst` is asserted no host access is taken from what is to come. -/
theorem filter_isHost_of_firstEnabled {pending others : List Input} {i : Input}
    (h : firstEnabled true pending = some (i, others)) :
    others.filter Input.isHost = pending.filter Input.isHost := by
  induction pending generalizing others with
  | nil => cases h
  | cons j rest ih =>
    simp only [firstEnabled, Bool.true_and] at h
    split at h
    next hhost =>
      obtain ⟨⟨i', others'⟩, htaken, heq⟩ := Option.map_eq_some_iff.mp h
      obtain ⟨rfl, rfl⟩ := Prod.mk.inj heq
      simp [hhost, ih htaken]
    next hhost =>
      obtain ⟨rfl, rfl⟩ := Prod.mk.inj (Option.some.inj h)
      simp [hhost]

theorem filter_isHost_dropInput {s : State} (h : s.rst = true) :
    s.dropInput.inputs.filter Input.isHost = s.inputs.filter Input.isHost := by
  unfold State.dropInput
  rw [h]
  split
  next htaken => exact filter_isHost_of_firstEnabled htaken
  · rfl

/-- Taking a step from what is to come changes nothing of HQCCA. -/
theorem dropInput_frame (s : State) :
    { s.dropInput with inputs := s.inputs, freeCtr := s.freeCtr, patience := s.patience } = s := by
  unfold State.dropInput
  split
  · rfl
  · rfl

/-- Held in reset, no agent's step but the release of `rst` changes the state. -/
theorem advance_of_held {s t : State} {i : Input} (h : s.rst = true) (ht : advance i s = .next t)
    (hheld : t.rst = true) : t = s := by
  cases i with
  | host a => simpa [advance, h] using ht.symm
  | engine => simpa [advance, h] using ht.symm
  | drbg r bs => simpa [advance, h] using ht.symm
  | codec r ans => simpa [advance, h] using ht.symm
  | rst asserted =>
    obtain rfl := Host.Outcome.next.inj ht
    cases asserted with
    | true =>
      show { s with rst := true } = s
      rw [← h]
    | false =>
      have hreleased : s.driveRst false = s.powerOn := by simp [State.driveRst, h]
      rw [hreleased] at hheld
      cases hheld

/-- Settles O56: the step taken changes nothing of the state it is taken from, and it is no host access. -/
theorem resetHoldsTheMachine : Obligations.ResetHoldsTheMachine := by
  unfold Obligations.ResetHoldsTheMachine
  intro s t hrst hstep hheld
  obtain ⟨_, hanswer⟩ := step_inv hstep
  have hrst' : s.dropInput.rst = s.rst := (congrArg State.rst (dropInput_frame s) :)
  obtain rfl := advance_of_held (hrst'.trans hrst) hanswer hheld
  exact ⟨dropInput_frame s, filter_isHost_dropInput hrst⟩

end Sys2Proof.Machine
end

section
/-! The ports' answers (O44): what becomes of an answer, by its request's number, and how each layer of a step numbers
the requests it makes. -/

namespace Sys2Proof.Machine

/-! ### Answers (R126, R128, V7) -/

section Answers

variable {s : State} {rest : List Input} {r : Nat}

theorem step_of_drbg_answer {bs : List Byte} (h : s.Ready (.drbg r bs) rest) :
    step s = .next (({ s with inputs := rest } : State).answerDrbg r bs) := by
  obtain ⟨_, hrst, _⟩ := id h
  rw [step_of_ready h]
  simp [advance, hrst]

theorem step_of_codec_answer {ans : CodecAnswer} (h : s.Ready (.codec r ans) rest) :
    step s = .next (({ s with inputs := rest } : State).answerCodec r ans) := by
  obtain ⟨_, hrst, _⟩ := id h
  rw [step_of_ready h]
  simp [advance, hrst]

/-- With no request outstanding, or another one, the answer is discarded. -/
theorem answerDrbg_of_stale (bs : List Byte) (h : s.drbgRequest = none ∨ r ≠ s.portReq) : s.answerDrbg r bs = s :=
  if_neg fun ⟨hnumber, houtstanding⟩ =>
    h.elim (fun hnone => by simp [hnone] at houtstanding) fun hother => hother hnumber

theorem answerCodec_of_stale (ans : CodecAnswer) (h : s.codecRequest = none ∨ r ≠ s.portReq) :
    s.answerCodec r ans = s :=
  if_neg fun ⟨hnumber, houtstanding⟩ =>
    h.elim (fun hnone => by simp [hnone] at houtstanding) fun hother => hother hnumber

end Answers

/-! ### The numbers of the requests (log entry 12) -/

/-- From a state at phase `p` with `n` requests made, an answer that makes the request numbered `n + 1`, or makes none
and leaves the phase as it was or no request outstanding. -/
def NumbersRequests (p : Phase) (n : Nat) : Host.Outcome State Fault Refusal → Prop
  | .next t =>
    t.portReq = n + 1 ∨ (t.portReq = n ∧ (t.phase = p ∨ (t.drbgRequest = none ∧ t.codecRequest = none)))
  | .fault _ => True
  | .refused _ => True

section Numbers

variable {s t : State}

theorem numbersRequests_of_same (hn : t.portReq = s.portReq) (hp : t.phase = s.phase) :
    NumbersRequests s.phase s.portReq (.next t) := .inr ⟨hn, .inl hp⟩

theorem numbersRequests_of_request (hn : t.portReq = s.portReq + 1) : NumbersRequests s.phase s.portReq (.next t) :=
  .inl hn

theorem numbersRequests_of_quiet (hn : t.portReq = s.portReq) (hd : t.drbgRequest = none)
    (hc : t.codecRequest = none) : NumbersRequests s.phase s.portReq (.next t) := .inr ⟨hn, .inr ⟨hd, hc⟩⟩

/-- A command's end leaves no request outstanding (R64). -/
theorem numbersRequests_complete (hn : t.portReq = s.portReq) :
    NumbersRequests s.phase s.portReq (.next t.complete) := numbersRequests_of_quiet hn rfl rfl

theorem numbersRequests_fail (hn : t.portReq = s.portReq) (e : ErrCode) :
    NumbersRequests s.phase s.portReq (.next (t.fail e)) := numbersRequests_of_quiet hn rfl rfl

variable (s)

theorem numbersRequests_refl : NumbersRequests s.phase s.portReq (.next s) := numbersRequests_of_same rfl rfl

@[simp] theorem noteCorrelation_portReq (cnt : Nat) (x : List Byte) :
    (s.noteCorrelation cnt x).portReq = s.portReq := by
  obtain ⟨_, _, e⟩ := noteCorrelation_eq s cnt x
  rw [e]

@[simp] theorem takeDraw_portReq (bs : List Byte) : (s.takeDraw bs).portReq = s.portReq := by
  obtain ⟨_, _, _, e⟩ := takeDraw_eq s bs
  rw [e]

/-! ### The commands' requests (R64) -/

theorem numbersRequests_sampleTurn {m : State} (d : Reg) (hn : m.portReq = s.portReq) :
    NumbersRequests s.phase s.portReq (.next (m.sampleTurn d)) := by
  rcases sampleTurn_cases m d with ⟨_, e⟩ | ⟨_, _, e⟩ | ⟨_, _, e⟩ <;> rw [e]
  · exact numbersRequests_complete (t := m.recordDraws.setPoly d m.candidate) hn
  · exact numbersRequests_fail (t := m.recordDraws) hn _
  · exact numbersRequests_of_request (congrArg (· + 1) hn)

theorem numbersRequests_runSample (d : Reg) : NumbersRequests s.phase s.portReq (.next (s.runSample d)) := by
  unfold State.runSample
  split
  · split
    · exact numbersRequests_fail rfl _
    · exact numbersRequests_sampleTurn s (m := s.startSample) d rfl
  · exact numbersRequests_sampleTurn s d (takeDraw_portReq s _)
  all_goals exact numbersRequests_refl s

theorem numbersRequests_runCcenc (d : Reg) : NumbersRequests s.phase s.portReq (.next (s.runCcenc d)) := by
  unfold State.runCcenc
  split
  · split
    · exact numbersRequests_fail rfl _
    · split
      · exact numbersRequests_fail rfl _
      · exact numbersRequests_of_request rfl
  · split
    · exact numbersRequests_of_quiet rfl rfl rfl
    · exact numbersRequests_fail rfl _
  · exact numbersRequests_fail rfl _
  · exact numbersRequests_complete rfl
  all_goals exact numbersRequests_refl s

theorem numbersRequests_runCcdec (a : Reg) : NumbersRequests s.phase s.portReq (.next (s.runCcdec a)) := by
  unfold State.runCcdec
  split
  · split
    · exact numbersRequests_fail rfl _
    · split
      · exact numbersRequests_fail rfl _
      · exact numbersRequests_of_request (congrArg (· + 1) (noteCorrelation_portReq (s.notePoly a) _ _))
  · exact numbersRequests_fail rfl _
  · split
    · exact numbersRequests_complete rfl
    · exact numbersRequests_fail rfl _
  all_goals exact numbersRequests_refl s

theorem numbersRequests_exec (i : Instr) : NumbersRequests s.phase s.portReq (exec i s) := by
  rw [exec_eq_next]
  cases i with
  | nop => exact numbersRequests_of_same rfl rfl
  | pzero | pmov | pxor | pmul => exact numbersRequests_complete rfl
  | sample d => exact numbersRequests_runSample s d
  | loadp d =>
    simp only [stepOf, State.runLoadp]
    split
    · exact numbersRequests_fail rfl _
    · split
      · exact numbersRequests_fail rfl _
      · exact numbersRequests_complete rfl
  | storep a =>
    simp only [stepOf, State.runStorep]
    split
    · exact numbersRequests_fail rfl _
    · exact numbersRequests_complete rfl
  | rmenc =>
    simp only [stepOf, State.runRmenc]
    split
    · exact numbersRequests_fail rfl _
    · exact numbersRequests_complete rfl
  | rmdec =>
    simp only [stepOf, State.runRmdec]
    split
    · exact numbersRequests_fail rfl _
    · exact numbersRequests_complete (noteCorrelation_portReq (s.noteLoad s.src s.codeLen) _ _)
  | ccenc d => exact numbersRequests_runCcenc s d
  | ccdec a => exact numbersRequests_runCcdec s a

/-! ### The other agents make no request -/

theorem numbersRequests_issue (w : Word) : NumbersRequests s.phase s.portReq (issue w s) := by
  unfold issue
  split
  · exact numbersRequests_of_same rfl rfl
  · split
    · exact numbersRequests_of_same rfl rfl
    · split
      · exact numbersRequests_of_same rfl rfl
      · split
        · exact numbersRequests_exec (s.latch w) _
        · exact numbersRequests_of_quiet rfl rfl rfl

theorem spoilDestination_portReq (i : Instr) : (s.spoilDestination i).portReq = s.portReq := by
  have hpoly : ∀ d, (s.drawPoly d).portReq = s.portReq := fun _ => rfl
  have hrange : ∀ a len, (s.drawRange a len).portReq = s.portReq := fun _ _ => rfl
  cases i <;> simp only [State.spoilDestination, apply_ite State.portReq, hpoly, hrange, ite_self]

/-- A soft reset makes no request: an abandoned one's number does not return (R128). -/
theorem softReset_portReq : s.softReset.portReq = s.portReq := by
  show s.abort.portReq = s.portReq
  unfold State.abort
  split
  · split
    · exact spoilDestination_portReq s _
    · rfl
  · rfl

theorem numbersRequests_writeCsr (c : Csr) (v : Word) : NumbersRequests s.phase s.portReq (writeCsr c v s) := by
  cases c
  case ctrl =>
    show NumbersRequests s.phase s.portReq (.next (s.writeCtrl v))
    unfold State.writeCtrl
    split
    · exact numbersRequests_of_quiet (softReset_portReq s) rfl rfl
    · exact numbersRequests_of_same rfl rfl
  case status =>
    show NumbersRequests s.phase s.portReq (.next (s.writeStatus v))
    rw [writeStatus_eq]
    exact numbersRequests_of_same rfl rfl
  case cmd => exact numbersRequests_issue s v
  all_goals exact numbersRequests_of_same rfl rfl

theorem numbersRequests_hostAccess (a : Access) : NumbersRequests s.phase s.portReq (hostAccess a s) := by
  unfold hostAccess csrAccess
  split
  · split
    · exact numbersRequests_of_same rfl rfl
    · split
      · exact numbersRequests_of_same rfl rfl
      · exact numbersRequests_writeCsr (s.okay 0) _ _
  · unfold State.bufAccess
    split
    · split
      · exact numbersRequests_of_same rfl rfl
      · exact numbersRequests_of_same rfl rfl
    · exact numbersRequests_of_same rfl rfl

theorem numbersRequests_engineTurn : NumbersRequests s.phase s.portReq (engineTurn s) := by
  unfold engineTurn
  split
  · split
    · exact numbersRequests_exec s _
    · exact trivial
  · exact numbersRequests_refl s

/-- An answer ends a request or leaves the state as it was. -/
theorem numbersRequests_answerDrbg (r : Nat) (bs : List Byte) :
    NumbersRequests s.phase s.portReq (.next (s.answerDrbg r bs)) := by
  unfold State.answerDrbg
  split
  · exact numbersRequests_of_quiet rfl rfl rfl
  · exact numbersRequests_refl s

theorem numbersRequests_answerCodec (r : Nat) (ans : CodecAnswer) :
    NumbersRequests s.phase s.portReq (.next (s.answerCodec r ans)) := by
  unfold State.answerCodec
  split
  · exact numbersRequests_of_quiet rfl rfl rfl
  · exact numbersRequests_refl s

theorem numbersRequests_driveRst (b : Bool) : NumbersRequests s.phase s.portReq (.next (s.driveRst b)) := by
  unfold State.driveRst
  split
  · exact numbersRequests_of_same rfl rfl
  · split
    · exact numbersRequests_of_quiet rfl rfl rfl
    · exact numbersRequests_refl s

theorem numbersRequests_advance (i : Input) : NumbersRequests s.phase s.portReq (advance i s) := by
  by_cases hrst : s.rst = true
  · cases i with
    | rst b => exact numbersRequests_driveRst s b
    | _ => simpa [advance, hrst] using numbersRequests_refl s
  · cases i with
    | rst b => exact numbersRequests_driveRst s b
    | host a => simpa [advance, hrst] using numbersRequests_hostAccess s a
    | engine => simpa [advance, hrst] using numbersRequests_engineTurn s
    | drbg r bs => simpa [advance, hrst] using numbersRequests_answerDrbg s r bs
    | codec r ans => simpa [advance, hrst] using numbersRequests_answerCodec s r ans

end Numbers

/-- Taking a step from what is to come leaves the phase and the requests' number (the frame of dropInput). -/
theorem numbersRequests_step {s t : State} (h : step s = .next t) : NumbersRequests s.phase s.portReq (.next t) := by
  have hphase : s.dropInput.phase = s.phase := (congrArg State.phase (dropInput_frame s) :)
  have hnumber : s.dropInput.portReq = s.portReq := (congrArg State.portReq (dropInput_frame s) :)
  have hnumbers := numbersRequests_advance s.dropInput s.nextInput
  rwa [(step_inv h).2, hphase, hnumber] at hnumbers

/-- Which requests are outstanding depends on the phase alone. -/
theorem drbgRequest_congr {s t : State} (h : t.phase = s.phase) : t.drbgRequest = s.drbgRequest := by
  simp only [State.drbgRequest, h]

theorem codecRequest_congr {s t : State} (h : t.phase = s.phase) : t.codecRequest = s.codecRequest := by
  simp only [State.codecRequest, h]

/-- A request that was not outstanding before the step has a number of its own, higher than every earlier one's. -/
theorem portReq_of_step {s t : State} (h : step s = .next t) :
    s.portReq ≤ t.portReq ∧
      (s.drbgRequest = none → s.codecRequest = none → t.drbgRequest ≠ none ∨ t.codecRequest ≠ none →
        t.portReq = s.portReq + 1) := by
  rcases numbersRequests_step h with hnext | ⟨hsame, hphase⟩
  · exact ⟨by omega, fun _ _ _ => hnext⟩
  · refine ⟨by omega, fun hdrbg hcodec hasked => ?_⟩
    have hquiet : t.drbgRequest = none ∧ t.codecRequest = none := hphase.elim
      (fun hp => ⟨(drbgRequest_congr hp).trans hdrbg, (codecRequest_congr hp).trans hcodec⟩) id
    exact absurd hquiet (by simpa only [not_and_or] using hasked)

/-- Settles O44: each answer by its request's number, and the numbers rise with each request. -/
theorem answersReachOnlyOutstandingRequests : Obligations.AnswersReachOnlyOutstandingRequests := by
  unfold Obligations.AnswersReachOnlyOutstandingRequests
  refine ⟨fun s rest r bs ans => ⟨fun h hstale => ?_, fun h hstale => ?_, fun h hrequest hnumber => ?_,
    fun q h hrequest hnumber => ?_⟩, fun s t h => portReq_of_step h⟩
  · exact (step_of_drbg_answer h).trans
      (congrArg Host.Outcome.next (answerDrbg_of_stale (s := { s with inputs := rest }) bs hstale))
  · exact (step_of_codec_answer h).trans
      (congrArg Host.Outcome.next (answerCodec_of_stale (s := { s with inputs := rest }) ans hstale))
  · subst hnumber
    exact step_of_drbg h (phase_of_drbgRequest hrequest)
  · subst hnumber
    obtain ⟨q', hphase⟩ := phase_of_codecRequest (by rw [hrequest]; rfl)
    exact step_of_codec h hphase

end Sys2Proof.Machine
end

section
/-! The recorded faults of U1 and U2 (O60): a state with the records of the one in which a command noted its sources
satisfies NotesPolys or NotesBuf, and what a command does after its note leaves both records. -/

namespace Sys2Proof.Machine

section Noted

variable {s : State}

/-! ### What a note records (R18, U1, U2) -/

theorem bufWritten_eq_false_iff (s : State) (a len : Nat) :
    s.bufWritten a len = false ↔ ∃ k, k < len ∧ Memory.read s.buf (a + k) = none := by
  simp [State.bufWritten]

theorem notesBuf_of_noteLoad {a len : Nat} {t : State} (h : (s.noteLoad a len).SameUninit t) :
    NotesBuf s a len t := by
  obtain ⟨hpoly, hbuf⟩ := h
  refine ⟨hpoly, ?_⟩
  rw [hbuf, noteLoad_uninitBuf, Bool.or_eq_true, Bool.not_eq_true', bufWritten_eq_false_iff]

theorem notesPolys_of_notePoly_notePoly {a b : Reg} {t : State} (h : ((s.notePoly a).notePoly b).SameUninit t) :
    NotesPolys s a b t := by
  obtain ⟨hpoly, hbuf⟩ := h
  refine ⟨?_, hbuf⟩
  simp only [hpoly, notePoly_uninitPoly, notePoly_polyWritten, Bool.or_eq_true, Bool.not_eq_true', or_assoc]

theorem notesPolys_of_notePoly {a : Reg} {t : State} (h : (s.notePoly a).SameUninit t) : NotesPolys s a a t := by
  obtain ⟨hpoly, hbuf⟩ := h
  refine ⟨?_, hbuf⟩
  rw [hpoly, notePoly_uninitPoly, Bool.or_eq_true, Bool.not_eq_true', or_self]

/-- The correlator's working state is no record. -/
theorem sameUninit_noteCorrelation (s : State) (cnt : Nat) (x : List Byte) :
    s.SameUninit (s.noteCorrelation cnt x) := by
  obtain ⟨_, _, e⟩ := noteCorrelation_eq s cnt x
  rw [e]
  exact ⟨rfl, rfl⟩

/-! ### The commands that read a register or a BUF range -/

theorem notesPolys_runPxor (s : State) (d a b : Reg) : NotesPolys s a b (s.runPxor d a b) :=
  notesPolys_of_notePoly_notePoly ⟨rfl, rfl⟩

theorem notesPolys_runPmul (s : State) (d a b : Reg) : NotesPolys s a b (s.runPmul d a b) :=
  notesPolys_of_notePoly_notePoly ⟨rfl, rfl⟩

theorem notesPolys_runStorep (a : Reg) (h : s.dst + s.params.nBytes ≤ s.params.bufBytes) :
    NotesPolys s a a (s.runStorep a) := by
  rw [runStorep_of_inside a h]
  exact notesPolys_of_notePoly ⟨rfl, rfl⟩

theorem runLoadp_of_inside (d : Reg) (h : s.src + s.params.nBytes ≤ s.params.bufBytes) :
    s.runLoadp d =
      if 2 ^ s.params.n ≤ beValue (s.loadBytes s.src s.params.nBytes) then
        (s.noteLoad s.src s.params.nBytes).fail .serialization
      else
        ((s.noteLoad s.src s.params.nBytes).setPoly d (beValue (s.loadBytes s.src s.params.nBytes))).complete := by
  simp [State.runLoadp, Params.inBuf, h]

/-- LOADP reads its range before it finds that the value is too big (R79), and completes either way. -/
theorem runLoadp_notes_and_completes (d : Reg) (h : s.src + s.params.nBytes ≤ s.params.bufBytes) :
    NotesBuf s s.src s.params.nBytes (s.runLoadp d) ∧ (s.runLoadp d).Completed := by
  rw [runLoadp_of_inside d h]
  split
  · exact ⟨notesBuf_of_noteLoad ⟨rfl, rfl⟩, completed_complete _⟩
  · exact ⟨notesBuf_of_noteLoad ⟨rfl, rfl⟩, completed_complete _⟩

theorem notesBuf_runRmenc (h : s.rmRangesOk s.count s.codeLen = true) : NotesBuf s s.src s.count s.runRmenc := by
  rw [runRmenc_of_legal h]
  exact notesBuf_of_noteLoad ⟨rfl, rfl⟩

theorem notesBuf_runRmdec (h : s.rmRangesOk s.codeLen s.count = true) : NotesBuf s s.src s.codeLen s.runRmdec := by
  rw [runRmdec_of_legal h]
  exact notesBuf_of_noteLoad (sameUninit_noteCorrelation _ s.count (s.loadBytes s.src s.codeLen))

theorem runCcenc_notes_and_asks (d : Reg) (havail : s.params.ccAvail = true) (hstart : s.phase = .start)
    (h : s.src + s.params.ccK ≤ s.params.bufBytes) :
    NotesBuf s s.src s.params.ccK (s.runCcenc d) ∧ (s.runCcenc d).codecRequest ≠ none := by
  rw [runCcenc_of_inside d havail hstart h]
  exact ⟨notesBuf_of_noteLoad ⟨rfl, rfl⟩, Option.some_ne_none _⟩

theorem runCcdec_notes_and_asks (a : Reg) (havail : s.params.ccAvail = true) (hstart : s.phase = .start)
    (h : s.dst + s.params.ccK ≤ s.params.bufBytes) :
    NotesPolys s a a (s.runCcdec a) ∧ (s.runCcdec a).codecRequest ≠ none := by
  rw [runCcdec_of_inside a havail hstart h]
  exact ⟨notesPolys_of_notePoly
    (sameUninit_noteCorrelation _ s.params.ccN1 (codewordOf s.params (s.poly a))), Option.some_ne_none _⟩

end Noted

/-- Settles O60: each command notes its sources once, and nothing after the note touches the records. -/
theorem unwrittenSourcesAreRecorded : Obligations.UnwrittenSourcesAreRecorded := by
  unfold Obligations.UnwrittenSourcesAreRecorded
  intro s d a b
  refine ⟨⟨_, rfl, notesPolys_runPxor s d a b, completed_complete _⟩,
    ⟨_, rfl, notesPolys_runPmul s d a b, completed_complete _⟩, fun hdst => ?storep,
    fun hsrc => ⟨_, rfl, runLoadp_notes_and_completes d hsrc⟩, fun hranges => ?rmenc, fun hranges => ?rmdec,
    fun hstart havail => ⟨fun hsrc => ⟨_, rfl, runCcenc_notes_and_asks d havail hstart hsrc⟩,
      fun hdst => ⟨_, rfl, runCcdec_notes_and_asks a havail hstart hdst⟩⟩⟩
  case storep =>
    obtain ⟨-, -, -, -, hcompleted⟩ := wroteBuf_runStorep a hdst
    exact ⟨_, rfl, notesPolys_runStorep a hdst, hcompleted⟩
  case rmenc =>
    obtain ⟨-, -, -, -, hcompleted⟩ := wroteBuf_runRmenc hranges
    exact ⟨_, rfl, notesBuf_runRmenc hranges, hcompleted⟩
  case rmdec =>
    obtain ⟨⟨-, -, -, -, hcompleted⟩, -⟩ := runRmdec_frame hranges
    rw [← codeLen_eq]
    exact ⟨_, rfl, notesBuf_runRmdec hranges, hcompleted⟩

end Sys2Proof.Machine
end
